-- ==== Sys2Proof/Word.lean ====
section
/-! DEFINITION. The container types of the model. -/

namespace Sys2Proof

/-- A byte: the content of a cell of BYTE (20_memory R50). -/
abbrev Byte := BitVec 8

/-- The container of a value of W, IDXW or IDXW+1 bits, all at most 64 (00_scope R7): a register's content, or the
content of a cell of ELEM or WORD. What it holds fits the width the spec gives it (`State.Wf`). -/
abbrev Word := BitVec 64

end Sys2Proof
end

