-- ==== Sys2Proof/Config.lean ====
section
/-! DEFINITION. The parameters of one core (00_scope R6, R7). -/

namespace Sys2Proof

/-- The element and word width, fixed for one core: W is 32 or 64 (00_scope R6). -/
inductive Width where
  | w32
  | w64
  deriving DecidableEq, Repr

/-- W: the bits of an element and of a packed word, and the elements of a block (00_scope R7). -/
def Width.bits : Width → Nat
  | .w32 => 32
  | .w64 => 64

/-- KMAX: the most bytes of one varint (00_scope R7, 90_conflicts C4). -/
def Width.kmax : Width → Nat
  | .w32 => 5
  | .w64 => 9

/-- The parameters of one core that the spec leaves open (00_scope R7): arguments of the model, constant in a run. -/
structure Instance where
  /-- W, as one of its two values. -/
  width : Width
  /-- IDXW: the bits of an index register. -/
  idxw : Nat
  /-- ELEM_SIZE: the cells of ELEM. -/
  elemSize : Nat
  /-- WORD_SIZE: the cells of WORD. -/
  wordSize : Nat
  /-- BYTE_SIZE: the cells of BYTE. -/
  byteSize : Nat
  deriving DecidableEq, Repr

/-- W as a number. -/
abbrev Instance.W (p : Instance) : Nat := p.width.bits

/-- G = W/8: the blocks of a megablock and the width bytes of a header word (00_scope R6, R7). -/
def Instance.G (p : Instance) : Nat := p.W / 8

/-- KMAX as a number. -/
abbrev Instance.kmax (p : Instance) : Nat := p.width.kmax

/-- LASTBITS: the value bits of the last byte of a varint of full length (00_scope R7). -/
def Instance.lastBits (p : Instance) : Nat := p.W - 7 * (p.kmax - 1)

/-- The bounds the spec puts on the open parameters (00_scope R7). -/
def Instance.legal (p : Instance) : Bool :=
  1 ≤ p.idxw && p.idxw ≤ 62 &&
    p.elemSize ≤ 2 ^ p.idxw - 1 && p.wordSize ≤ 2 ^ p.idxw - 1 && p.byteSize ≤ 2 ^ p.idxw - 1

/-- DESIGN CHOICE (log entry 2): the parameters `State.reset` has, those of the programs of 95_test_vectors Part 3. -/
def Config.standard : Instance :=
  { width := .w32, idxw := 32, elemSize := 1024, wordSize := 1024, byteSize := 1024 }

/-- WORD_BYTE_ORDER (00_scope R7): the byte lane at which byte `k` of a W-bit cell lies in a byte memory under the
core. Open, and read by no rule (20_memory R56), so by nothing of the model (log entry 13). -/
opaque Config.wordByteOrder : Width → Nat → Nat

end Sys2Proof
end

