-- ==== Sys2Proof/Syntax.lean ====
section
/-! DEFINITION. The ten commands (30_encoding R82). -/

namespace Sys2Proof

/-- One constructor per row of the opcode table (30_encoding R82, R85). The only operand is the width `b` of PACK and
UNPACK (R83); every other operand comes from the operand registers. -/
inductive Instr where
  /-- Estimate the bit width of one block. -/
  | est
  /-- Pack one block at width `b`. -/
  | pack (b : Nat)
  /-- Unpack one block of width `b`. -/
  | unpack (b : Nat)
  /-- Compress a range with the integrated codec. -/
  | cint
  /-- Decompress a range with the integrated codec. -/
  | dint
  /-- Bound the words CINT writes for a range. -/
  | cap
  /-- Compress a range with the variable-byte codec. -/
  | cvar
  /-- Decompress a range with the variable-byte codec. -/
  | dvar
  /-- Append one value as a varint. -/
  | wrvar
  /-- Consume one varint. -/
  | rdvar
  deriving DecidableEq, Repr

end Sys2Proof
end

