-- ==== Sys2Proof/WellFormed.lean ====
section
/-! DEFINITION. Which terms of `Instr` a command word can carry. -/

namespace Sys2Proof

/-- A width operand that field B, seven bits wide, can hold: 0 to 127 (30_encoding R81, R83). A width above W is well
formed; it makes the command raise E_WIDTH. -/
def widthFits (b : Nat) : Bool := b ≤ 127

/-- Well-formed commands: the width operand of PACK and UNPACK fits field B. -/
def Instr.wf : Instr → Bool
  | .est => true
  | .pack b => widthFits b
  | .unpack b => widthFits b
  | .cint => true
  | .dint => true
  | .cap => true
  | .cvar => true
  | .dvar => true
  | .wrvar => true
  | .rdvar => true

end Sys2Proof
end

