-- ==== Sys2Proof/Decode.lean ====
section
/-! DEFINITION. The command word: its fields, the decoder and the encoder (30_encoding R80 to R85). -/

namespace Sys2Proof

/-- Why a command word is illegal (30_encoding R84). -/
inductive DecodeError where
  /-- Bits 31:11 are not zero. -/
  | zNotZero
  /-- OP is 0x0, 0x7 or 0xC to 0xF. -/
  | reservedOp
  /-- The command has no operand and bits 10:4 are not zero. -/
  | bNotZero
  deriving DecidableEq, Repr

/-- Field OP, bits 3:0 (30_encoding R81). -/
def opField (w : BitVec 32) : BitVec 4 := w.extractLsb' 0 4

/-- Field B, bits 10:4 (30_encoding R81). -/
def bField (w : BitVec 32) : BitVec 7 := w.extractLsb' 4 7

/-- Field Z, bits 31:11 (30_encoding R81). -/
def zField (w : BitVec 32) : BitVec 21 := w.extractLsb' 11 21

/-- A word of format N: command `i`, legal only when field B is zero (30_encoding R81, R84). -/
def decodeFormatN (i : Instr) (w : BitVec 32) : Except DecodeError Instr :=
  if bField w = 0#7 then .ok i else .error .bNotZero

/-- The opcode map (30_encoding R82), total on the 2^32 command words (R84). The width operand is field B
zero-extended (R83). -/
def decode (w : BitVec 32) : Except DecodeError Instr :=
  if zField w ≠ 0#21 then .error .zNotZero
  else
    match (opField w).toNat with
    | 0x1 => decodeFormatN .est w
    | 0x2 => .ok (.pack (bField w).toNat)
    | 0x3 => .ok (.unpack (bField w).toNat)
    | 0x4 => decodeFormatN .cint w
    | 0x5 => decodeFormatN .dint w
    | 0x6 => decodeFormatN .cap w
    | 0x8 => decodeFormatN .cvar w
    | 0x9 => decodeFormatN .dvar w
    | 0xA => decodeFormatN .wrvar w
    | 0xB => decodeFormatN .rdvar w
    | _ => .error .reservedOp

/-- The operation code of a command (30_encoding R82). -/
def Instr.op : Instr → Nat
  | .est => 0x1
  | .pack _ => 0x2
  | .unpack _ => 0x3
  | .cint => 0x4
  | .dint => 0x5
  | .cap => 0x6
  | .cvar => 0x8
  | .dvar => 0x9
  | .wrvar => 0xA
  | .rdvar => 0xB

/-- What a command puts into field B: its width operand, or zero in format N (30_encoding R81). -/
def Instr.widthOperand : Instr → Nat
  | .pack b => b
  | .unpack b => b
  | .est => 0
  | .cint => 0
  | .dint => 0
  | .cap => 0
  | .cvar => 0
  | .dvar => 0
  | .wrvar => 0
  | .rdvar => 0

/-- The word of a well-formed command: `(b << 4) + OP` (30_encoding R85, R86). -/
def encode (i : Instr) : BitVec 32 := BitVec.ofNat 32 (i.widthOperand <<< 4 + i.op)

/-- What the decoder reads from the low `nbits` bits of `w`, the bits above them zero. A command is one 32-bit word
written to CMD (30_encoding R80): there are no bytes to order. -/
def decodeTableWord (nbits w : Nat) : Option Instr :=
  (decode (BitVec.ofNat 32 (w % 2 ^ nbits))).toOption

/-- `decode` of the words of 30_encoding R85, one per constructor, and of its examples. -/
theorem decode_words :
    decode 0x00000001#32 = .ok .est ∧ decode 0x00000052#32 = .ok (.pack 5) ∧
    decode 0x000001F3#32 = .ok (.unpack 31) ∧ decode 0x00000004#32 = .ok .cint ∧
    decode 0x00000005#32 = .ok .dint ∧ decode 0x00000006#32 = .ok .cap ∧
    decode 0x00000008#32 = .ok .cvar ∧ decode 0x00000009#32 = .ok .dvar ∧
    decode 0x0000000A#32 = .ok .wrvar ∧ decode 0x0000000B#32 = .ok .rdvar :=
  ⟨rfl, rfl, rfl, rfl, rfl, rfl, rfl, rfl, rfl, rfl⟩

end Sys2Proof
end

