-- ==== Sys2Proof/Machine/State.lean ====
section
/-! DEFINITION. The state of one core, as plain data, and the state after reset. -/

namespace Sys2Proof.Machine

open Sys2Proof

/-- The three memory spaces (20_memory R50). -/
inductive Space where
  | elem
  | word
  | byte
  deriving DecidableEq, Repr

/-- A space's contents: (index, content) pairs with strictly rising indices, none holding what an unlisted cell
reads as (`Memory.wf`). `Memory 8` is a list of `Host.Cell`. -/
abbrev Memory (n : Nat) := List (Nat × BitVec n)

/-- What a cell that is not listed reads as. DESIGN CHOICE (log entry 3): the spec leaves the contents at power-up
unspecified (10_state R34), and a state may list any contents. -/
def Memory.unlisted (n : Nat) : BitVec n := 0#n

/-- The canonical form of a space's contents. -/
abbrev Memory.wf {n : Nat} (m : Memory n) : Prop :=
  m.Pairwise (fun a b => a.1 < b.1) ∧ ∀ c ∈ m, c.2 ≠ Memory.unlisted n

/-- The contents of the three disjoint spaces (20_memory R50). -/
structure Spaces where
  /-- ELEM: the source and destination arrays. -/
  elem : Memory 64
  /-- WORD: the packed buffer. -/
  word : Memory 64
  /-- BYTE: the variable-byte buffer. -/
  byte : Memory 8
  deriving DecidableEq, Repr

/-- One step of the host (70_reset_and_hazards R249). -/
inductive HostOp where
  /-- `RegWrite(n, v)` (20_memory R59). -/
  | regWrite (n : Fin 16) (v : BitVec 64)
  /-- `RegRead(n)` (20_memory R59). -/
  | regRead (n : Fin 16)
  /-- A write of the cell with index `i` (20_memory R60). -/
  | cellWrite (sp : Space) (i : Nat) (v : BitVec 64)
  /-- A read of the cell with index `i` (20_memory R60). -/
  | cellRead (sp : Space) (i : Nat)
  /-- The external reset (70_reset_and_hazards R230). -/
  | reset
  deriving DecidableEq, Repr

/-- Where the model stops with a fault of its own. The faults of the spec are no case of this type: they are recorded
in STATUS and FINFO of a next state (60_exceptions R203). -/
inductive Fault where
  /-- Raised by the host step `cellWrite` or `cellRead` on a cell that does not exist (20_memory R51, R60); the spec
  gives such an access no effect (log entry 8). Safe. -/
  | hostOutOfExtent (sp : Space) (i : Nat)
  deriving DecidableEq, Repr

/-- What the model gives no meaning. -/
inductive Refusal where
  /-- Raised by an arm of `exec` that has no meaning. No arm is so. Safe. -/
  | notModelled (mnemonic : String)
  /-- Raised by the host step `cellWrite` or `cellRead` while BUSY = 1, which the spec leaves undefined (20_memory R60,
  93_implementation_defined U11, log entry 9). BUSY is 0 between the steps of every run from reset. Safe. -/
  | hostAccessWhileBusy (sp : Space) (i : Nat)
  deriving DecidableEq, Repr

/-- The complete state of one core (10_state R20), its parameters (00_scope R7), and the host's coming steps. CMD holds
nothing and has no field (10_state R21). -/
structure State where
  /-- The parameters of the core; no step writes them (log entry 1). -/
  inst : Instance
  /-- STATUS (10_state R28). -/
  status : BitVec 32
  /-- FINFO (60_exceptions R203). -/
  finfo : BitVec 64
  /-- RES (10_state R26): IDXW+1 bits. -/
  res : BitVec 64
  /-- CARRY (10_state R23): W bits. -/
  carry : BitVec 64
  /-- VAL (10_state R24): W bits. -/
  val : BitVec 64
  /-- EPTR (10_state R25): IDXW bits. -/
  eptr : BitVec 64
  /-- EEND (10_state R25): IDXW bits. -/
  eend : BitVec 64
  /-- WPTR (10_state R27): IDXW bits. -/
  wptr : BitVec 64
  /-- BPTR (10_state R27): IDXW bits. -/
  bptr : BitVec 64
  /-- The memory spaces. -/
  mem : Spaces
  /-- The model's own: the host's steps to come, the next one first (log entry 5). -/
  script : List HostOp
  /-- The model's own: what the last read of the host returned (log entry 6). -/
  rdata : BitVec 64
  deriving DecidableEq, Repr

/-- A core after reset (10_state R34), with given parameters and initial memories, which the spec makes arguments of
a model. -/
def State.powerUp (p : Instance) (m : Spaces) : State :=
  { inst := p, status := 0, finfo := 0, res := 0, carry := 0, val := 0, eptr := 0, eend := 0, wptr := 0, bptr := 0,
    mem := m, script := [], rdata := 0 }

/-- The machine right after reset (10_state R34): the standard parameters (log entry 2), nothing listed in any space. -/
def State.reset : State := State.powerUp Config.standard { elem := [], word := [], byte := [] }

end Sys2Proof.Machine
end

