-- ==== Sys2Proof/Machine/Flags.lean ====
section
/-! DEFINITION. STATUS, the only status of the core (10_state R28), and the fault causes (60_exceptions R200). There are
no condition codes and no arithmetic flags. -/

namespace Sys2Proof.Machine

open Sys2Proof

/-- A fault as a command raises it, with its information (60_exceptions R200). -/
inductive Raise where
  /-- E_OPCODE: an illegal command word. -/
  | opcode (word : BitVec 32)
  /-- E_WIDTH: a width above W. -/
  | width (b : Nat)
  /-- E_DEGEN: a degenerate range. -/
  | degen
  /-- E_ACCESS: a cell index at or beyond the extent of its space. -/
  | access (sp : Space) (i : Nat)
  /-- E_OVERFLOW: delta `i` of the block needs more bits than the width given. -/
  | overflow (i : Nat)
  deriving DecidableEq, Repr

/-- The cause codes (60_exceptions R200). -/
def Raise.cause : Raise → Nat
  | .opcode _ => 1
  | .width _ => 2
  | .degen => 3
  | .access _ _ => 4
  | .overflow _ => 5

/-- The number of a space in STATUS.SPACE (10_state R28). -/
def Space.code : Space → Nat
  | .elem => 1
  | .word => 2
  | .byte => 3

/-- STATUS.SPACE after a fault (60_exceptions R200). -/
def Raise.spaceCode : Raise → Nat
  | .opcode _ => 0
  | .width _ => 0
  | .degen => 0
  | .access sp _ => sp.code
  | .overflow _ => 0

/-- FINFO after a fault: the information, zero-extended (60_exceptions R200, R203). -/
def Raise.info : Raise → BitVec 64
  | .opcode w => w.setWidth 64
  | .width b => BitVec.ofNat 64 b
  | .degen => 0
  | .access _ i => BitVec.ofNat 64 i
  | .overflow i => BitVec.ofNat 64 i

/-- STATUS with BUSY = 0, FAULT = 1, the given CAUSE and SPACE, and every reserved bit 0 (10_state R28). -/
def faultStatus (cause space : Nat) : BitVec 32 :=
  BitVec.ofNat 32 (1 <<< 1 + cause <<< 4 + space <<< 8)

/-- STATUS.BUSY, bit 0 (10_state R28). -/
def State.busy (s : State) : Bool := s.status.getLsbD 0

/-- STATUS.FAULT, bit 1 (10_state R28). -/
def State.faulted (s : State) : Bool := s.status.getLsbD 1

/-- STATUS.CAUSE, bits 6:4 (10_state R28). -/
def State.cause (s : State) : Nat := (s.status.extractLsb' 4 3).toNat

/-- STATUS.SPACE, bits 9:8 (10_state R28). -/
def State.spaceField (s : State) : Nat := (s.status.extractLsb' 8 2).toNat

/-- STATUS with BUSY set: a command runs (10_state R28). -/
def setBusy (st : BitVec 32) : BitVec 32 := st ||| 1#32

/-- STATUS with BUSY cleared: no command runs (10_state R28). -/
def clearBusy (st : BitVec 32) : BitVec 32 := st &&& 0xFFFFFFFE#32

end Sys2Proof.Machine
end

