-- ==== Sys2Proof/Machine/Ops.lean ====
section
/-! DEFINITION. The named operations every command is built from: cells, accesses with their fault, a command's run,
its commit, and taking a fault. -/

namespace Sys2Proof.Machine

open Sys2Proof

/-! ## A space's contents -/

/-- The content of cell `i`. -/
def Memory.read {n : Nat} : Memory n → Nat → BitVec n
  | [], _ => Memory.unlisted n
  | (j, u) :: t, i => if i = j then u else Memory.read t i

/-- The contents with cell `i` holding `v`, in canonical form. -/
def Memory.write {n : Nat} : Memory n → Nat → BitVec n → Memory n
  | [], i, v => if v = Memory.unlisted n then [] else [(i, v)]
  | (j, u) :: t, i, v =>
    if i < j then if v = Memory.unlisted n then (j, u) :: t else (i, v) :: (j, u) :: t
    else if i = j then if v = Memory.unlisted n then t else (i, v) :: t
    else (j, u) :: Memory.write t i v

/-- The number of cells of a space (20_memory R51). -/
def extentOf (p : Instance) : Space → Nat
  | .elem => p.elemSize
  | .word => p.wordSize
  | .byte => p.byteSize

/-- The width of a cell of a space (20_memory R50). -/
def cellBitsOf (p : Instance) : Space → Nat
  | .elem => p.W
  | .word => p.W
  | .byte => 8

/-- The content of cell `i` of space `sp`, zero-extended. -/
def Spaces.cell (m : Spaces) (sp : Space) (i : Nat) : BitVec 64 :=
  match sp with
  | .elem => Memory.read m.elem i
  | .word => Memory.read m.word i
  | .byte => (Memory.read m.byte i).setWidth 64

/-- The spaces with cell `i` of `sp` holding `v`; no other cell changes (20_memory R53). -/
def Spaces.setCell (m : Spaces) (sp : Space) (i : Nat) (v : BitVec 64) : Spaces :=
  match sp with
  | .elem => { m with elem := Memory.write m.elem i v }
  | .word => { m with word := Memory.write m.word i v }
  | .byte => { m with byte := Memory.write m.byte i (v.setWidth 8) }

/-! ## Accesses with their fault -/

/-- `MemRead(S:i, 1)` (20_memory R52). -/
def memRead (p : Instance) (sp : Space) (i : Nat) (m : Spaces) : Except Raise (BitVec 64) :=
  if extentOf p sp ≤ i then .error (.access sp i) else .ok (m.cell sp i)

/-- `MemWrite(S:i, 1, v)` (20_memory R53). -/
def memWrite (p : Instance) (sp : Space) (i : Nat) (v : BitVec 64) (m : Spaces) : Except Raise Spaces :=
  if extentOf p sp ≤ i then .error (.access sp i) else .ok (m.setCell sp i v)

/-- How far a command has come: what it has computed, or the fault it has raised; with the spaces as its writes so far
have left them (60_exceptions R204). Registers do not occur: they change only at commit. -/
inductive Run (α : Type) where
  | done (a : α) (m : Spaces)
  | raised (r : Raise) (m : Spaces)

/-- Go on with `k` after `x`, unless `x` has raised a fault. -/
def Run.bind {α β : Type} (x : Run α) (k : α → Spaces → Run β) : Run β :=
  match x with
  | .done a m => k a m
  | .raised r m => .raised r m

/-- Go on with `k` after a computation that writes nothing, unless it raises a fault. -/
def Run.get {α β : Type} (x : Except Raise α) (m : Spaces) (k : α → Run β) : Run β :=
  match x with
  | .ok a => k a
  | .error r => .raised r m

/-- Read `n` cells of `sp` from index `i` on, ascending, each as a value of `w` bits (20_memory R55, R65). -/
def readCells (p : Instance) (sp : Space) (w : Nat) : Nat → Nat → Spaces → Except Raise (List (BitVec w))
  | 0, _, _ => .ok []
  | n + 1, i, m =>
    (memRead p sp i m).bind fun v => (readCells p sp w n (i + 1) m).bind fun vs => .ok (v.setWidth w :: vs)

/-- Write the values `vs` to the cells of `sp` from index `i` on, ascending (20_memory R55, R65). -/
def writeCells (p : Instance) (sp : Space) {w : Nat} : List (BitVec w) → Nat → Spaces → Run Unit
  | [], _, m => .done () m
  | v :: vs, i, m => Run.get (memWrite p sp i (v.setWidth 64) m) m fun m' => writeCells p sp vs (i + 1) m'

/-! ## The end of a command -/

/-- `v` truncated to `n` bits (00_scope R9), in its container. -/
def truncTo (n : Nat) (v : Nat) : BitVec 64 := BitVec.ofNat 64 (v % 2 ^ n)

/-- The register results of a completed command (10_state R32): RES, and the registers among CARRY, VAL and BPTR that
the command writes. -/
structure Results where
  res : Nat
  carry : Option (BitVec 64) := none
  val : Option (BitVec 64) := none
  bptr : Option Nat := none

/-- The line `commit:` (00_scope R10): the register results are written together, and BUSY is cleared (10_state R28).
The other STATUS bits and FINFO keep their values. -/
def State.commit (r : Results) (m : Spaces) (s : State) : State :=
  { s with
    mem := m
    res := truncTo (s.inst.idxw + 1) r.res
    carry := r.carry.getD s.carry
    val := r.val.getD s.val
    bptr := (r.bptr.map (truncTo s.inst.idxw)).getD s.bptr
    status := clearBusy s.status }

/-- Taking a fault, `raise E_X(info)` (60_exceptions R203), with the spaces as the command has left them (R204): FAULT,
CAUSE, SPACE, FINFO written, BUSY cleared, nothing else. There is no handler and no return (R205). -/
def State.raise (r : Raise) (m : Spaces) (s : State) : State :=
  { s with mem := m, status := faultStatus r.cause r.spaceCode, finfo := r.info }

/-- How a command that ran from state `s` ends: it commits or it takes its fault. -/
def Run.finish (s : State) (x : Run Results) : Host.Outcome State Fault Refusal :=
  match x with
  | .done r m => .next (s.commit r m)
  | .raised r m => .next (s.raise r m)

/-- The start of an accepted command: BUSY is set (10_state R28). -/
def State.begin (s : State) : State := { s with status := setBusy s.status }

/-- The external reset (70_reset_and_hazards R230): every register at its reset value (10_state R34), the spaces not
changed. The only way out of a fault (60_exceptions R205). -/
def State.applyReset (s : State) : State :=
  { s with
    status := 0, finfo := 0, res := 0, carry := 0, val := 0, eptr := 0, eend := 0, wptr := 0, bptr := 0 }

end Sys2Proof.Machine
end

