-- ==== Sys2Proof/Machine/Operands.lean ====
section
/-! DEFINITION. The operands of the commands and the registers as the host's port sees them (10_state R21, R29, R32). -/

namespace Sys2Proof.Machine

open Sys2Proof

/-- `x[CARRY]`: the seed of the delta chain, a value of W bits (10_state R23). -/
def State.seed (s : State) : BitVec s.inst.W := s.carry.setWidth s.inst.W

/-- `x[VAL]`: a value of W bits (10_state R24). -/
def State.value (s : State) : BitVec s.inst.W := s.val.setWidth s.inst.W

/-- `x[EPTR]` as an index. -/
def State.first (s : State) : Nat := s.eptr.toNat

/-- `x[EEND]` as an index. -/
def State.last (s : State) : Nat := s.eend.toNat

/-- `x[WPTR]` as an index. -/
def State.wordAt (s : State) : Nat := s.wptr.toNat

/-- `x[BPTR]` as an index. -/
def State.byteAt (s : State) : Nat := s.bptr.toNat

/-- The length n of the range `[EPTR, EEND)` (42_block_driver R140). -/
def State.len (s : State) : Nat := s.last - s.first

/-- `nb`: the full blocks of the range (42_block_driver R140). -/
def State.blocks (s : State) : Nat := s.len / s.inst.W

/-- `m`: the megablocks of the range (42_block_driver R140). -/
def State.megablocks (s : State) : Nat := s.blocks / s.inst.G

/-- `t`: the tail blocks of the range (42_block_driver R140). -/
def State.tailBlocks (s : State) : Nat := s.blocks % s.inst.G

/-- The element index at which the tail blocks begin (42_block_driver R140). -/
def State.tailStart (s : State) : Nat := s.first + s.megablocks * (s.inst.G * s.inst.W)

/-- The registers of the host's port (10_state R21). -/
inductive Reg where
  | cmd
  | status
  | finfo
  | res
  | carry
  | val
  | eptr
  | eend
  | wptr
  | bptr
  | reserved
  deriving DecidableEq, Repr

/-- The register with number `n` (10_state R21). -/
def regNumbered (n : Fin 16) : Reg :=
  match n.val with
  | 0 => .cmd
  | 1 => .status
  | 2 => .finfo
  | 3 => .res
  | 4 => .carry
  | 5 => .val
  | 6 => .eptr
  | 7 => .eend
  | 8 => .wptr
  | 9 => .bptr
  | _ => .reserved

/-- What `RegRead` of a register returns; CMD and the reserved numbers read 0 (10_state R29). -/
def State.readReg (s : State) : Reg → BitVec 64
  | .cmd => 0
  | .status => s.status.setWidth 64
  | .finfo => s.finfo
  | .res => s.res
  | .carry => s.carry
  | .val => s.val
  | .eptr => s.eptr
  | .eend => s.eend
  | .wptr => s.wptr
  | .bptr => s.bptr
  | .reserved => 0

/-- `RegWrite` of a register other than CMD on an idle, unfaulted core: an operand register takes the value truncated
to its width; a write to STATUS, FINFO, RES or a reserved number is ignored (10_state R29). A write of CMD holds
nothing (R21); what it starts is `writeCmd`. -/
def State.writeReg (s : State) (r : Reg) (v : BitVec 64) : State :=
  match r with
  | .cmd => s
  | .status => s
  | .finfo => s
  | .res => s
  | .carry => { s with carry := truncTo s.inst.W v.toNat }
  | .val => { s with val := truncTo s.inst.W v.toNat }
  | .eptr => { s with eptr := truncTo s.inst.idxw v.toNat }
  | .eend => { s with eend := truncTo s.inst.idxw v.toNat }
  | .wptr => { s with wptr := truncTo s.inst.idxw v.toNat }
  | .bptr => { s with bptr := truncTo s.inst.idxw v.toNat }
  | .reserved => s

end Sys2Proof.Machine
end

