-- ==== Sys2Proof/Machine/Delta.lean ====
section
/-! DEFINITION. The delta chain, the bit-width estimator and EST (40_delta_width). Subtraction and addition of `BitVec w`
are modulo 2^w and never fault (R100). -/

namespace Sys2Proof.Machine

open Sys2Proof

/-- `Deltas(c, e)` (40_delta_width R102). -/
def deltas {w : Nat} : BitVec w → List (BitVec w) → List (BitVec w)
  | _, [] => []
  | c, e :: es => (e - c) :: deltas e es

/-- `Undelta(c, d)` (40_delta_width R103). -/
def undelta {w : Nat} : BitVec w → List (BitVec w) → List (BitVec w)
  | _, [] => []
  | c, d :: ds => (c + d) :: undelta (c + d) ds

/-- The carry after a sequence: its last element, or `c` when it has none (40_delta_width R102). -/
def carryAfter {w : Nat} (c : BitVec w) (e : List (BitVec w)) : BitVec w := e.getLastD c

/-- `bitlen(v)` (00_scope R9). -/
def bitlen (v : Nat) : Nat := if v = 0 then 0 else v.log2 + 1

/-- `clz_W(v)` (00_scope R9). -/
def clz {w : Nat} (v : BitVec w) : Nat := w - bitlen v.toNat

/-- The OR of a sequence: `mask` of 40_delta_width R104. -/
def orAll {w : Nat} (d : List (BitVec w)) : BitVec w := d.foldl (· ||| ·) 0

/-- `Width(c, e)`: the OR of the deltas, then one count of leading zeros (40_delta_width R104). -/
def blockWidth {w : Nat} (c : BitVec w) (e : List (BitVec w)) : Nat := w - clz (orAll (deltas c e))

/-- `ReadBlock(p)`: W elements from index `i` on, ascending (40_delta_width R106). -/
def readBlock (p : Instance) (i : Nat) (m : Spaces) : Except Raise (List (BitVec p.W)) :=
  readCells p .elem p.W p.W i m

/-- `WriteBlock(p, e)`: the elements from index `i` on, ascending (40_delta_width R106). -/
def writeBlock (p : Instance) (e : List (BitVec p.W)) (i : Nat) (m : Spaces) : Run Unit :=
  writeCells p .elem e i m

/-- EST (40_delta_width R107). -/
def execEst (s : State) : Host.Outcome State Fault Refusal :=
  Run.finish s <|
    Run.get (readBlock s.inst s.first s.mem) s.mem fun e =>
      .done { res := blockWidth s.seed e } s.mem

end Sys2Proof.Machine
end

