-- ==== Sys2Proof/Machine/BitPack.lean ====
section
/-! DEFINITION. The bit packer and unpacker, PACK and UNPACK (41_bitpack). -/

namespace Sys2Proof.Machine

open Sys2Proof

/-- The loop of `PackBits` (41_bitpack R122): `off` is the bit offset of the cursor, `cur` the word under
construction; the words come out in ascending order. -/
def packLoop {w : Nat} (b : Nat) : List (BitVec w) → Nat → BitVec w → List (BitVec w)
  | [], _, _ => []
  | d :: ds, off, cur =>
    if w ≤ off + b then (cur ||| d <<< off) :: packLoop b ds (off + b - w) (d >>> (w - off))
    else packLoop b ds (off + b) (cur ||| d <<< off)

/-- `PackBits(d, b)` (41_bitpack R122). -/
def packBits {w : Nat} (d : List (BitVec w)) (b : Nat) : List (BitVec w) := packLoop b d 0 0

/-- The mask `2^b - 1`. -/
def lowMask (w b : Nat) : BitVec w := BitVec.ofNat w (2 ^ b - 1)

/-- The loop of `UnpackBits` (41_bitpack R123), `n` deltas still to come: `ws` are the words from word k on, `off` is
the bit offset of the cursor in word k. -/
def unpackLoop {w : Nat} (b : Nat) : Nat → List (BitVec w) → Nat → List (BitVec w)
  | 0, _, _ => []
  | n + 1, ws, off =>
    let lo := ws.getD 0 0 >>> off
    let field := if w < off + b then lo ||| ws.getD 1 0 <<< (w - off) else lo
    (field &&& lowMask w b) ::
      (if w ≤ off + b then unpackLoop b n (ws.drop 1) (off + b - w) else unpackLoop b n ws (off + b))

/-- `UnpackBits(w, b)`: the W deltas of a block (41_bitpack R123). -/
def unpackBits {w : Nat} (ws : List (BitVec w)) (b : Nat) : List (BitVec w) := unpackLoop b w ws 0

/-- `PackBlock(c, e, b)` for `b ≤ W` (41_bitpack R124): the overflow is that of the first delta that does not fit. -/
def packBlock {w : Nat} (c : BitVec w) (e : List (BitVec w)) (b : Nat) : Except Raise (List (BitVec w)) :=
  if b = w then .ok e
  else
    match (deltas c e).findIdx? (fun d : BitVec w => d >>> b != 0) with
    | some i => .error (.overflow i)
    | none => if b = 0 then .ok [] else .ok (packBits (deltas c e) b)

/-- `UnpackBlock(c, w, b)` for `b ≤ W` (41_bitpack R125). -/
def unpackBlock {w : Nat} (c : BitVec w) (ws : List (BitVec w)) (b : Nat) : List (BitVec w) :=
  if b = 0 then List.replicate w c
  else if b = w then ws
  else undelta c (unpackBits ws b)

/-- PACK b (41_bitpack R126). -/
def execPack (b : Nat) (s : State) : Host.Outcome State Fault Refusal :=
  Run.finish s <|
    if s.inst.W < b then .raised (.width b) s.mem
    else
      Run.get (readBlock s.inst s.first s.mem) s.mem fun e =>
        Run.get (packBlock s.seed e b) s.mem fun out =>
          (writeCells s.inst .word out s.wordAt s.mem).bind fun _ m =>
            .done { res := b, carry := some ((carryAfter s.seed e).setWidth 64) } m

/-- UNPACK b (41_bitpack R127). -/
def execUnpack (b : Nat) (s : State) : Host.Outcome State Fault Refusal :=
  Run.finish s <|
    if s.inst.W < b then .raised (.width b) s.mem
    else
      Run.get (readCells s.inst .word s.inst.W b s.wordAt s.mem) s.mem fun ws =>
        (writeBlock s.inst (unpackBlock s.seed ws b) s.first s.mem).bind fun _ m =>
          .done { res := b, carry := some ((carryAfter s.seed (unpackBlock s.seed ws b)).setWidth 64) } m

end Sys2Proof.Machine
end

