-- ==== Sys2Proof/Machine/BlockDriver.lean ====
section
/-! DEFINITION. The block and megablock driver, CINT and DINT (42_block_driver). A group is a header word and the
payloads of the blocks that share it: G blocks in a megablock, one block in the tail, whose header "degenerates to a
scalar width" (R141). -/

namespace Sys2Proof.Machine

open Sys2Proof

/-- Read `k` blocks from index `i` on, ascending (42_block_driver R142). -/
def readBlocks (p : Instance) : Nat → Nat → Spaces → Except Raise (List (List (BitVec p.W)))
  | 0, _, _ => .ok []
  | k + 1, i, m => (readBlock p i m).bind fun e => (readBlocks p k (i + p.W) m).bind fun es => .ok (e :: es)

/-- One estimate per block, each seeded with the last element of the block before it (42_block_driver R142). -/
def groupWidths {w : Nat} : BitVec w → List (List (BitVec w)) → List Nat
  | _, [] => []
  | s, e :: es => blockWidth s e :: groupWidths (carryAfter s e) es

/-- The header of the widths `b_1, ...`: one byte per block, block 1 highest (42_block_driver R141). -/
def header : List Nat → Nat
  | [] => 0
  | b :: bs => b <<< (bs.length * 8) + header bs

/-- Pack the blocks, each with its width, to WORD from index `q` on (42_block_driver R142). The result is the carry
after the last block and the index after the last word. -/
def packBlocks (p : Instance) : BitVec p.W → List (List (BitVec p.W) × Nat) → Nat → Spaces → Run (BitVec p.W × Nat)
  | c, [], q, m => .done (c, q) m
  | c, (e, b) :: rest, q, m =>
    Run.get (packBlock c e b) m fun out =>
      (writeCells p .word out q m).bind fun _ m' => packBlocks p (carryAfter c e) rest (q + b) m'

/-- Compress one group of `k` blocks from index `i` on to WORD from index `q` on (42_block_driver R142): read the
blocks, write the header, write the payloads. -/
def compressGroup (p : Instance) (k i q : Nat) (c : BitVec p.W) (m : Spaces) : Run (BitVec p.W × Nat) :=
  Run.get (readBlocks p k i m) m fun es =>
    (writeCells p .word [BitVec.ofNat p.W (header (groupWidths c es))] q m).bind fun _ m' =>
      packBlocks p c (es.zip (groupWidths c es)) (q + 1) m'

/-- Compress `n` groups of `k` blocks (42_block_driver R142, R148). -/
def compressGroups (p : Instance) (k : Nat) : Nat → Nat → Nat → BitVec p.W → Spaces → Run (BitVec p.W × Nat)
  | 0, _, q, c, m => .done (c, q) m
  | n + 1, i, q, c, m =>
    (compressGroup p k i q c m).bind fun r m' => compressGroups p k n (i + k * p.W) r.2 r.1 m'

/-- CINT (42_block_driver R142): the megablocks, then the tail blocks. -/
def execCint (s : State) : Host.Outcome State Fault Refusal :=
  Run.finish s <|
    if s.last < s.first then .raised .degen s.mem
    else
      (compressGroups s.inst s.inst.G s.megablocks s.first s.wordAt s.seed s.mem).bind fun r m =>
        (compressGroups s.inst 1 s.tailBlocks s.tailStart r.2 r.1 m).bind fun r' m' =>
          .done { res := r'.2 - s.wordAt, carry := some (r'.1.setWidth 64) } m'

/-- The widths a header word gives its `k` blocks: the whole word for a tail block, one byte per block, block 1
highest, for a megablock (42_block_driver R145). -/
def headerWidths {w : Nat} (k : Nat) (h : BitVec w) : List Nat :=
  if k = 1 then [h.toNat] else (List.range k).map fun j => (h >>> ((k - 1 - j) * 8)).toNat % 256

/-- Unpack blocks of the given widths from WORD index `r` on to ELEM from index `i` on (42_block_driver R146). The result
is the carry after the last block and the index after the last word read. -/
def unpackBlocks (p : Instance) : List Nat → Nat → Nat → BitVec p.W → Spaces → Run (BitVec p.W × Nat)
  | [], _, r, c, m => .done (c, r) m
  | b :: bs, i, r, c, m =>
    if p.W < b then .raised (.width b) m
    else
      Run.get (readCells p .word p.W b r m) m fun ws =>
        (writeBlock p (unpackBlock c ws b) i m).bind fun _ m' =>
          unpackBlocks p bs (i + p.W) (r + b) (carryAfter c (unpackBlock c ws b)) m'

/-- Decompress one group of `k` blocks: read its header, then unpack its blocks (42_block_driver R146). -/
def decompressGroup (p : Instance) (k i r : Nat) (c : BitVec p.W) (m : Spaces) : Run (BitVec p.W × Nat) :=
  Run.get (memRead p .word r m) m fun h => unpackBlocks p (headerWidths k (h.setWidth p.W)) i (r + 1) c m

/-- Decompress `n` groups of `k` blocks (42_block_driver R146, R148). -/
def decompressGroups (p : Instance) (k : Nat) : Nat → Nat → Nat → BitVec p.W → Spaces → Run (BitVec p.W × Nat)
  | 0, _, r, c, m => .done (c, r) m
  | n + 1, i, r, c, m =>
    (decompressGroup p k i r c m).bind fun x m' => decompressGroups p k n (i + k * p.W) x.2 x.1 m'

/-- DINT (42_block_driver R146): the megablocks, then the tail blocks. -/
def execDint (s : State) : Host.Outcome State Fault Refusal :=
  Run.finish s <|
    if s.last = 0 ∨ s.last ≤ s.first ∨ s.len % s.inst.W ≠ 0 then .raised .degen s.mem
    else
      (decompressGroups s.inst s.inst.G s.megablocks s.first s.wordAt s.seed s.mem).bind fun x m =>
        (decompressGroups s.inst 1 s.tailBlocks s.tailStart x.2 x.1 m).bind fun y m' =>
          .done { res := y.2 - s.wordAt, carry := some (y.1.setWidth 64) } m'

end Sys2Proof.Machine
end

