-- ==== Sys2Proof/Machine/Capacity.lean ====
section
/-! DEFINITION. The capacity estimator, CAP (44_capacity). -/

namespace Sys2Proof.Machine

open Sys2Proof

/-- `Cap(n)` (44_capacity R181). -/
def capacity (p : Instance) (n : Nat) : Nat :=
  n / p.W * p.W + n / p.W / p.G + n / p.W % p.G

/-- CAP (44_capacity R180). -/
def execCap (s : State) : Host.Outcome State Fault Refusal :=
  Run.finish s <|
    if s.last < s.first then .raised .degen s.mem
    else .done { res := capacity s.inst s.len } s.mem

end Sys2Proof.Machine
end

