-- ==== Sys2Proof/Machine/VarByte.lean ====
section
/-! DEFINITION. The variable-byte delta codec, WRVAR, RDVAR, CVAR and DVAR (43_varbyte). All shifts are logical (R161). -/

namespace Sys2Proof.Machine

open Sys2Proof

/-- The byte count of `VarEncode(v)`: the smallest `j` in `1 .. KMAX-1` with `v >> 7j = 0`, else KMAX (43_varbyte
R161). -/
def varLen {w : Nat} (kmax : Nat) (v : BitVec w) : Nat :=
  ((List.range' 1 (kmax - 1)).find? fun j => v >>> (7 * j) == 0).getD kmax

/-- The bytes of `VarEncode(v)`: seven value bits and the continuation flag each, the last byte the rest without the
flag (43_varbyte R161). -/
def varEncode {w : Nat} (kmax : Nat) (v : BitVec w) : List Byte :=
  (List.range (varLen kmax v - 1)).map (fun j => (v >>> (7 * j)).setWidth 8 &&& 0x7F#8 ||| 0x80#8) ++
    [(v >>> (7 * (varLen kmax v - 1))).setWidth 8]

/-- The loop of `VarDecode` (43_varbyte R162): `x` is the byte read last, `n` the bytes read so far, `acc` the
accumulator, whose bits above W-1 are discarded; `fuel` is KMAX - n. -/
def varDecodeLoop (p : Instance) (bp : Nat) (m : Spaces) :
    Nat → Byte → Nat → BitVec p.W → Except Raise (BitVec p.W × Nat)
  | 0, _, n, acc => .ok (acc, n)
  | fuel + 1, x, n, acc =>
    if x.getLsbD 7 then
      (memRead p .byte (bp + n) m).bind fun v =>
        let y := v.setWidth 8
        varDecodeLoop p bp m fuel y (n + 1)
          (if n < p.kmax - 1 then acc ||| (y &&& 0x7F#8).setWidth p.W <<< (7 * n)
           else acc ||| y.setWidth p.W <<< (7 * n))
    else .ok (acc, n)

/-- `VarDecode(bp)`: the value and the byte count of the varint at BYTE index `bp` (43_varbyte R162). -/
def varDecode (p : Instance) (bp : Nat) (m : Spaces) : Except Raise (BitVec p.W × Nat) :=
  (memRead p .byte bp m).bind fun v =>
    varDecodeLoop p bp m (p.kmax - 1) (v.setWidth 8) 1 ((v.setWidth 8 &&& 0x7F#8).setWidth p.W)

/-- WRVAR (43_varbyte R164). -/
def execWrvar (s : State) : Host.Outcome State Fault Refusal :=
  Run.finish s <|
    (writeCells s.inst .byte (varEncode s.inst.kmax s.value) s.byteAt s.mem).bind fun _ m =>
      .done { res := (varEncode s.inst.kmax s.value).length,
              bptr := some (s.byteAt + (varEncode s.inst.kmax s.value).length) } m

/-- RDVAR (43_varbyte R165). -/
def execRdvar (s : State) : Host.Outcome State Fault Refusal :=
  Run.finish s <|
    Run.get (varDecode s.inst s.byteAt s.mem) s.mem fun x =>
      .done { res := x.2, val := some (x.1.setWidth 64), bptr := some (s.byteAt + x.2) } s.mem

/-- The loop of CVAR (43_varbyte R166) over `n` elements from index `i` on, `a` the BYTE index of the next byte. The
result is the carry after the last element and the index after the last byte. -/
def cvarLoop (p : Instance) : Nat → Nat → Nat → BitVec p.W → Spaces → Run (BitVec p.W × Nat)
  | 0, _, a, c, m => .done (c, a) m
  | n + 1, i, a, c, m =>
    Run.get (memRead p .elem i m) m fun x =>
      let v := x.setWidth p.W
      (writeCells p .byte (varEncode p.kmax (v - c)) a m).bind fun _ m' =>
        cvarLoop p n (i + 1) (a + (varEncode p.kmax (v - c)).length) v m'

/-- CVAR (43_varbyte R166). -/
def execCvar (s : State) : Host.Outcome State Fault Refusal :=
  Run.finish s <|
    if s.last < s.first then .raised .degen s.mem
    else
      (cvarLoop s.inst s.len s.first s.byteAt s.seed s.mem).bind fun r m =>
        .done { res := r.2 - s.byteAt, carry := some (r.1.setWidth 64), bptr := some r.2 } m

/-- The loop of DVAR (43_varbyte R167) over `n` elements from index `i` on, `a` the BYTE index of the next byte. The
result is the carry after the last element and the index after the last byte read. -/
def dvarLoop (p : Instance) : Nat → Nat → Nat → BitVec p.W → Spaces → Run (BitVec p.W × Nat)
  | 0, _, a, c, m => .done (c, a) m
  | n + 1, i, a, c, m =>
    Run.get (varDecode p a m) m fun x =>
      Run.get (memWrite p .elem i ((c + x.1).setWidth 64) m) m fun m' =>
        dvarLoop p n (i + 1) (a + x.2) (c + x.1) m'

/-- DVAR (43_varbyte R167). -/
def execDvar (s : State) : Host.Outcome State Fault Refusal :=
  Run.finish s <|
    if s.last < s.first then .raised .degen s.mem
    else
      (dvarLoop s.inst s.len s.first s.byteAt s.seed s.mem).bind fun r m =>
        .done { res := r.2 - s.byteAt, carry := some (r.1.setWidth 64), bptr := some r.2 } m

end Sys2Proof.Machine
end

