-- ==== Sys2Proof/Machine/Dispatch.lean ====
section
/-! DEFINITION. The dispatch from a command to its meaning (30_encoding R82). -/

namespace Sys2Proof.Machine

open Sys2Proof

/-- The run of an accepted command from the registers and spaces of `s` to its end (70_reset_and_hazards R240). -/
def exec (i : Instr) (s : State) : Host.Outcome State Fault Refusal :=
  match i with
  | .est => Sys2Proof.Machine.execEst s
  | .pack b => Sys2Proof.Machine.execPack b s
  | .unpack b => Sys2Proof.Machine.execUnpack b s
  | .cint => Sys2Proof.Machine.execCint s
  | .dint => Sys2Proof.Machine.execDint s
  | .cap => Sys2Proof.Machine.execCap s
  | .cvar => Sys2Proof.Machine.execCvar s
  | .dvar => Sys2Proof.Machine.execDvar s
  | .wrvar => Sys2Proof.Machine.execWrvar s
  | .rdvar => Sys2Proof.Machine.execRdvar s

end Sys2Proof.Machine
end

