-- ==== Sys2Proof/Machine/HostPort.lean ====
section
/-! DEFINITION. The steps of the host: the register port, the access to cells, and reset (70_reset_and_hazards R249). -/

namespace Sys2Proof.Machine

open Sys2Proof

/-- An accepted write of CMD: a legal word starts its command and the command runs to its end; an illegal word raises
E_OPCODE (30_encoding R80, R84). -/
def writeCmd (w : BitVec 32) (s : State) : Host.Outcome State Fault Refusal :=
  match decode w with
  | .ok i => exec i s.begin
  | .error _ => .next (s.raise (.opcode w) s.mem)

/-- `RegWrite(n, v)` (10_state R29): ignored while BUSY or FAULT; a write of CMD, which is 32 bits wide, takes the low
32 bits of `v` (log entry 11). -/
def hostRegWrite (n : Fin 16) (v : BitVec 64) (s : State) : Host.Outcome State Fault Refusal :=
  if s.busy || s.faulted then .next s
  else if regNumbered n = .cmd then writeCmd (v.setWidth 32) s
  else .next (s.writeReg (regNumbered n) v)

/-- `RegRead(n)` (10_state R29): changes nothing of the core. -/
def hostRegRead (n : Fin 16) (s : State) : State := { s with rdata := s.readReg (regNumbered n) }

/-- The host's access to the cell with index `i` of `sp` (20_memory R60): `k` of the state when the host may make it.
An idle core allows it, faulted or not (70_reset_and_hazards R249). -/
def hostAccess (sp : Space) (i : Nat) (s : State) (k : State) : Host.Outcome State Fault Refusal :=
  if s.busy then .refused (.hostAccessWhileBusy sp i)
  else if extentOf s.inst sp ≤ i then .fault (.hostOutOfExtent sp i)
  else .next k

/-- The host's write of a cell, with the value truncated to the width of the cell (log entry 12). -/
def hostCellWrite (sp : Space) (i : Nat) (v : BitVec 64) (s : State) : Host.Outcome State Fault Refusal :=
  hostAccess sp i s { s with mem := s.mem.setCell sp i (truncTo (cellBitsOf s.inst sp) v.toNat) }

/-- The host's read of a cell. -/
def hostCellRead (sp : Space) (i : Nat) (s : State) : Host.Outcome State Fault Refusal :=
  hostAccess sp i s { s with rdata := s.mem.cell sp i }

/-- One step of the host (70_reset_and_hazards R249). -/
def hostStep (op : HostOp) (s : State) : Host.Outcome State Fault Refusal :=
  match op with
  | .regWrite n v => hostRegWrite n v s
  | .regRead n => .next (hostRegRead n s)
  | .cellWrite sp i v => hostCellWrite sp i v s
  | .cellRead sp i => hostCellRead sp i s
  | .reset => .next s.applyReset

/-- The next step of the system: the host's next step, taken off its script; with none to come, the core is idle and
keeps all its state (60_exceptions R212). -/
def nextStep (s : State) : Host.Outcome State Fault Refusal :=
  match s.script with
  | [] => .next s
  | op :: rest => hostStep op { s with script := rest }

/-- The host's step that gives the core the command word with the low `nbits` bits of `w`: a write of register 0. -/
def cmdWrite (nbits w : Nat) : HostOp := .regWrite 0 (BitVec.ofNat 64 (w % 2 ^ nbits))

end Sys2Proof.Machine
end

