-- ==== Sys2Proof/Machine/Step.lean ====
section
/-! DEFINITION. One step of the machine. -/

namespace Sys2Proof.Machine

open Sys2Proof

/-- One step: the host's next step (70_reset_and_hazards R249). -/
def step (s : State) : Host.Outcome State Fault Refusal := nextStep s

/-- The state in which the host writes the command word `w` to CMD next. The core fetches nothing (10_state R31): a
command comes from the host's port, so it is placed first in the host's script (log entry 5). -/
def State.withFetchWord (s : State) (nbits w : Nat) : State := { s with script := cmdWrite nbits w :: s.script }

end Sys2Proof.Machine
end

