-- ==== Sys2Proof/Safety.lean ====
section
/-! DEFINITION. What is always true of a core, in the terms the statements use, and what a run that has gone wrong is. -/

namespace Sys2Proof.Machine

open Sys2Proof

/-- The content of a register of `n` bits fits it (10_state R21). -/
abbrev fitsIn (n : Nat) (v : BitVec 64) : Prop := v.toNat < 2 ^ n

/-- A space's contents are in canonical form, lie below the extent (20_memory R51) and fit the width of a cell (R50). -/
abbrev Memory.within {n : Nat} (m : Memory n) (extent bits : Nat) : Prop :=
  Memory.wf m ∧ ∀ c ∈ m, c.1 < extent ∧ c.2.toNat < 2 ^ bits

/-- The contents of the three spaces are possible for the parameters `p`. -/
abbrev Spaces.within (m : Spaces) (p : Instance) : Prop :=
  Memory.within m.elem p.elemSize p.W ∧ Memory.within m.word p.wordSize p.W ∧ Memory.within m.byte p.byteSize 8

/-- The parameters are legal (00_scope R7), every register holds a value of its width (10_state R21), and the spaces
hold cells that exist. Holds in every state of every run, also while a command runs. -/
abbrev State.Sound (s : State) : Prop :=
  s.inst.legal = true ∧ s.mem.within s.inst ∧
    fitsIn (s.inst.idxw + 1) s.res ∧ fitsIn s.inst.W s.carry ∧ fitsIn s.inst.W s.val ∧
    fitsIn s.inst.idxw s.eptr ∧ fitsIn s.inst.idxw s.eend ∧ fitsIn s.inst.idxw s.wptr ∧ fitsIn s.inst.idxw s.bptr

/-- STATUS and FINFO between commands (10_state R28, 60_exceptions R200): BUSY and every reserved bit are 0; without a
fault CAUSE, SPACE and FINFO are 0; with one CAUSE is 1 to 5, and SPACE names a space exactly for E_ACCESS. -/
abbrev State.StatusLegal (s : State) : Prop :=
  s.busy = false ∧ s.status &&& 0xFFFFFC8C#32 = 0#32 ∧
    (s.faulted = false → s.cause = 0 ∧ s.spaceField = 0 ∧ s.finfo = 0#64) ∧
    (s.faulted = true → 1 ≤ s.cause ∧ s.cause ≤ 5 ∧ (s.spaceField = 0 ↔ s.cause ≠ 4))

/-- The invariant of the machine: it holds after reset and every step keeps it. -/
abbrev State.Wf (s : State) : Prop := s.Sound ∧ s.StatusLegal

/-- The `n` cells of `sp` from index `i` on, each as a value of `w` bits. -/
def Spaces.cells (m : Spaces) (sp : Space) (w n i : Nat) : List (BitVec w) :=
  (List.range n).map fun j => (m.cell sp (i + j)).setWidth w

/-- The core accepts a write of a register (10_state R29): idle and not faulted. -/
abbrev State.Accepting (s : State) : Prop := s.busy = false ∧ s.faulted = false

/-- A run has gone wrong when FAULT = 1 (70_reset_and_hazards R249). -/
def State.goneWrong (s : State) : Bool := s.faulted

end Sys2Proof.Machine
end

