-- ==== Sys2Proof/Certificates/Slice0/Reference.lean ====
section
/-! DEFINITION. What the statements say things about: the blocks of a range, the packed stream as the format defines it,
the positions a decoder visits, and the tables of the spec. -/

namespace Sys2Proof.Machine

open Sys2Proof

/-! ## The source range -/

/-- The block `ELEM[EPTR, EPTR + W)`. -/
def State.block (s : State) : List (BitVec s.inst.W) := s.mem.cells .elem s.inst.W s.inst.W s.first

/-- The full blocks of `[EPTR, EEND)`, ascending (42_block_driver R140). -/
def State.blockList (s : State) : List (List (BitVec s.inst.W)) :=
  (List.range s.blocks).map fun g => s.mem.cells .elem s.inst.W s.inst.W (s.first + g * s.inst.W)

/-- The elements of `[EPTR, EEND)`. -/
def State.elements (s : State) : List (BitVec s.inst.W) := s.mem.cells .elem s.inst.W s.len s.first

/-- The widths of the full blocks, the carry running through them (42_block_driver R142). -/
def State.widths (s : State) : List Nat := groupWidths s.seed s.blockList

/-! ## The packed stream (42_block_driver R141) -/

/-- The carry after a list of blocks. -/
def carryAfterBlocks {w : Nat} (c : BitVec w) (es : List (List (BitVec w))) : BitVec w := carryAfter c es.flatten

/-- `payload(b)` of each block at its own width, in order. -/
def payloads {w : Nat} : BitVec w → List (List (BitVec w)) → List (BitVec w)
  | _, [] => []
  | c, e :: es =>
    (match packBlock c e (blockWidth c e) with
      | .ok out => out
      | .error _ => []) ++ payloads (carryAfter c e) es

/-- `n` groups of `k` blocks: each a header and the payloads of its blocks. -/
def groupStream {w : Nat} (k : Nat) : Nat → BitVec w → List (List (BitVec w)) → List (BitVec w)
  | 0, _, _ => []
  | n + 1, c, es =>
    BitVec.ofNat w (header (groupWidths c (es.take k))) :: payloads c (es.take k) ++
      groupStream k n (carryAfterBlocks c (es.take k)) (es.drop k)

/-- The stream of the first `g` megablocks and the first `u` tail blocks of the range of `s`. -/
def State.streamOf (s : State) (g u : Nat) : List (BitVec s.inst.W) :=
  groupStream s.inst.G g s.seed s.blockList ++
    groupStream 1 u (carryAfterBlocks s.seed (s.blockList.take (g * s.inst.G))) (s.blockList.drop (g * s.inst.G))

/-- `stream = megablock^m tailblock^t` for the full blocks of the range of `s`. -/
def State.stream (s : State) : List (BitVec s.inst.W) := s.streamOf s.megablocks s.tailBlocks

/-- The stream of the groups before the first one that leaves ELEM: the whole stream when none does. No tail block lies
inside ELEM unless every megablock does, since the tail begins where the megablocks end. -/
def State.streamInside (s : State) : List (BitVec s.inst.W) :=
  s.streamOf (min s.megablocks ((s.inst.elemSize - s.first) / (s.inst.G * s.inst.W)))
    (min s.tailBlocks ((s.inst.elemSize - s.tailStart) / s.inst.W))

/-- The payload of a block as one number: value `i` of the list shifted left by `i * b` (41_bitpack R121). -/
def payloadNumber {w : Nat} (b : Nat) (d : List (BitVec w)) : Nat :=
  ((List.range d.length).map fun i => (d.getD i 0).toNat <<< (i * b)).sum

/-! ## What a decoder of the packed stream visits (42_block_driver R145, R146) -/

/-- Payloads of the given widths one after another from WORD index `r` on: the index and the width of each. -/
def payloadsAt : List Nat → Nat → List (Nat × Nat)
  | [], _ => []
  | b :: bs, r => (r, b) :: payloadsAt bs (r + b)

/-- The widths in the header at WORD index `r` of a group of `k` blocks. -/
def headerAt (p : Instance) (m : Spaces) (k r : Nat) : List Nat :=
  headerWidths k ((m.cell .word r).setWidth p.W)

/-- The index after the last word of `n` groups of `k` blocks from WORD index `r` on. -/
def groupsEnd (p : Instance) (m : Spaces) (k : Nat) : Nat → Nat → Nat
  | 0, r => r
  | n + 1, r => groupsEnd p m k n (r + 1 + (headerAt p m k r).sum)

/-- The payloads of `n` groups of `k` blocks from WORD index `r` on. -/
def groupsPayloads (p : Instance) (m : Spaces) (k : Nat) : Nat → Nat → List (Nat × Nat)
  | 0, _ => []
  | n + 1, r => payloadsAt (headerAt p m k r) (r + 1) ++ groupsPayloads p m k n (r + 1 + (headerAt p m k r).sum)

/-- The index after the last word of the packed stream at WPTR, for the range of `s`. -/
def State.streamEnd (s : State) : Nat :=
  groupsEnd s.inst s.mem 1 s.tailBlocks (groupsEnd s.inst s.mem s.inst.G s.megablocks s.wordAt)

/-- The payloads of the packed stream at WPTR, one per block of the range of `s`. -/
def State.payloadList (s : State) : List (Nat × Nat) :=
  groupsPayloads s.inst s.mem s.inst.G s.megablocks s.wordAt ++
    groupsPayloads s.inst s.mem 1 s.tailBlocks (groupsEnd s.inst s.mem s.inst.G s.megablocks s.wordAt)

/-- The elements of blocks with the given payloads, the carry running through them. -/
def decodeBlocks (p : Instance) (m : Spaces) : BitVec p.W → List (Nat × Nat) → List (BitVec p.W)
  | _, [] => []
  | c, (r, b) :: rest =>
    unpackBlock c (m.cells .word p.W b r) b ++
      decodeBlocks p m (carryAfter c (unpackBlock c (m.cells .word p.W b r) b)) rest

/-! ## The varint stream -/

/-- The varints of the deltas of the range of `s`, one after another (43_varbyte R160, R166). -/
def State.varStream (s : State) : List Byte := (deltas s.seed s.elements).flatMap (varEncode s.inst.kmax)

/-- The varints of the elements before the first one that lies outside ELEM: all of them when none does. -/
def State.varStreamInside (s : State) : List Byte :=
  (deltas s.seed (s.mem.cells .elem s.inst.W (min s.len (s.inst.elemSize - s.first)) s.first)).flatMap
    (varEncode s.inst.kmax)

/-! ## The tables of the spec -/

/-- Which operand registers a command reads or writes, the entries of 10_state R32 that are not "-". -/
def registersUsed : Instr → List Reg
  | .est => [.carry, .eptr]
  | .pack _ => [.carry, .eptr, .wptr]
  | .unpack _ => [.carry, .eptr, .wptr]
  | .cint => [.carry, .eptr, .eend, .wptr]
  | .dint => [.carry, .eptr, .eend, .wptr]
  | .cap => [.eptr, .eend]
  | .wrvar => [.val, .bptr]
  | .rdvar => [.val, .bptr]
  | .cvar => [.carry, .eptr, .eend, .bptr]
  | .dvar => [.carry, .eptr, .eend, .bptr]

/-- Which operand registers a command writes (10_state R32). -/
def registersWritten : Instr → List Reg
  | .est => []
  | .pack _ => [.carry]
  | .unpack _ => [.carry]
  | .cint => [.carry]
  | .dint => [.carry]
  | .cap => []
  | .wrvar => [.bptr]
  | .rdvar => [.val, .bptr]
  | .cvar => [.carry, .bptr]
  | .dvar => [.carry, .bptr]

/-- Which space a command writes (10_state R32). -/
def spaceWritten : Instr → Option Space
  | .est => none
  | .pack _ => some .word
  | .unpack _ => some .elem
  | .cint => some .word
  | .dint => some .elem
  | .cap => none
  | .wrvar => some .byte
  | .rdvar => none
  | .cvar => some .byte
  | .dvar => some .elem

/-- The cells a command may write in the space it writes: the first index, and the first index above (20_memory R55). -/
def State.destination (s : State) : Instr → Nat × Nat
  | .est => (0, 0)
  | .pack b => (s.wordAt, s.wordAt + b)
  | .unpack _ => (s.first, s.first + s.inst.W)
  | .cint => (s.wordAt, s.wordAt + capacity s.inst s.len)
  | .dint => (s.first, s.last)
  | .cap => (0, 0)
  | .wrvar => (s.byteAt, s.byteAt + s.inst.kmax)
  | .rdvar => (0, 0)
  | .cvar => (s.byteAt, s.byteAt + s.inst.kmax * s.len)
  | .dvar => (s.first, s.last)

/-- The causes a command can raise, with STATUS.SPACE (60_exceptions R202). -/
def causesOf : Instr → List (Nat × Nat)
  | .est => [(4, 1)]
  | .pack _ => [(2, 0), (4, 1), (4, 2), (5, 0)]
  | .unpack _ => [(2, 0), (4, 2), (4, 1)]
  | .cint => [(3, 0), (4, 1), (4, 2)]
  | .dint => [(2, 0), (3, 0), (4, 2), (4, 1)]
  | .cap => [(3, 0)]
  | .wrvar => [(4, 3)]
  | .rdvar => [(4, 3)]
  | .cvar => [(3, 0), (4, 1), (4, 3)]
  | .dvar => [(3, 0), (4, 3), (4, 1)]

end Sys2Proof.Machine
end

