-- ==== Sys2Proof/Certificates/Slice0/Obligations.lean ====
section
/-! DEFINITION. The statements about the machine, for the provers. -/

open Sys2Proof Sys2Proof.Machine

/-! ## The command word -/

/-- 30_encoding R85: the word of every command, and the examples under the table. -/
def Obligations.DecodeTableWords : Prop :=
  decode 0x00000001#32 = .ok .est ∧ decode 0x00000004#32 = .ok .cint ∧ decode 0x00000005#32 = .ok .dint ∧
    decode 0x00000006#32 = .ok .cap ∧ decode 0x00000008#32 = .ok .cvar ∧ decode 0x00000009#32 = .ok .dvar ∧
    decode 0x0000000A#32 = .ok .wrvar ∧ decode 0x0000000B#32 = .ok .rdvar ∧
    (∀ b < 128, decode (BitVec.ofNat 32 (b * 16 + 2)) = .ok (.pack b)) ∧
    (∀ b < 128, decode (BitVec.ofNat 32 (b * 16 + 3)) = .ok (.unpack b)) ∧
    decode 0x00000052#32 = .ok (.pack 5) ∧ decode 0x000001F3#32 = .ok (.unpack 31) ∧
    decode 0x00000202#32 = .ok (.pack 32) ∧ decode 0x00000403#32 = .ok (.unpack 64) ∧
    decode 0x00000212#32 = .ok (.pack 33) ∧
    (∀ s : State, s.inst.width = .w32 → exec (.pack 33) s = .next (s.raise (.width 33) s.mem)) ∧
    (∃ e, decode 0x00000014#32 = .error e) ∧ ∃ e, decode 0x00000802#32 = .error e

/-- 30_encoding R84: which words are illegal, what an illegal word does, and the match and mask of every legal word. -/
def Obligations.IllegalWordRaisesOpcodeFault : Prop :=
  (∀ w : BitVec 32, (∃ e, decode w = .error e) ↔
    ((w.toNat % 16 = 0 ∨ w.toNat % 16 = 7 ∨ 0xC ≤ w.toNat % 16) ∨ w.toNat / 2048 ≠ 0 ∨
      (w.toNat % 16 ≠ 2 ∧ w.toNat % 16 ≠ 3 ∧ w.toNat / 16 % 128 ≠ 0))) ∧
  (∀ (w : BitVec 32) (i : Instr), decode w = .ok i ↔
    match i with
    | .pack b => w &&& 0xFFFFF80F#32 = 0x2#32 ∧ b = w.toNat / 16 % 128
    | .unpack b => w &&& 0xFFFFF80F#32 = 0x3#32 ∧ b = w.toNat / 16 % 128
    | i => w &&& 0xFFFFFFFF#32 = BitVec.ofNat 32 i.op) ∧
  ∀ (w : BitVec 32) (e : DecodeError) (s : State), s.Accepting → decode w = .error e →
    hostStep (.regWrite 0 (w.setWidth 64)) s = .next { s with status := 0x12#32, finfo := w.setWidth 64 }

/-- 30_encoding R81 to R83: decoding the encoding of a well-formed command gives it back, with every width operand. -/
def Obligations.DecodeOfEncode : Prop := ∀ i : Instr, i.wf = true → decode (encode i) = .ok i

/-- 30_encoding R84: no two words are the same command, and every legal word is the encoding of a well-formed one. -/
def Obligations.EncodeOfDecode : Prop :=
  ∀ (w : BitVec 32) (i : Instr), decode w = .ok i → i.wf = true ∧ encode i = w

/-! ## The host's port -/

/-- 30_encoding R80, 70_reset_and_hazards R249: a step is the host's next step; an accepted write of a legal word to CMD
runs its command; with no step of the host to come the core stays as it is. That the host's steps are a list in the state,
and that a write to CMD takes the low 32 bits of a wider value, are the model's choices (log entries 5 and 11). -/
def Obligations.StepRunsDecodedCommand : Prop :=
  (∀ (s : State) (op : HostOp) (rest : List HostOp), s.script = op :: rest →
    step s = hostStep op { s with script := rest }) ∧
  (∀ (s : State) (v : BitVec 64) (i : Instr), s.Accepting → decode (v.setWidth 32) = .ok i →
    hostStep (.regWrite 0 v) s = exec i s.begin) ∧
  (∀ (s : State) (nbits w : Nat) (i : Instr), s.Accepting → decodeTableWord nbits w = some i →
    step (s.withFetchWord nbits w) = exec i s.begin) ∧
  ∀ s : State, s.script = [] → step s = .next s

/-- 10_state R29: which host writes are ignored, what an operand register holds after a write, and what a read
returns. -/
def Obligations.HostRegisterAccess : Prop :=
  (∀ (s : State) (n : Fin 16) (v : BitVec 64), s.busy = true ∨ s.faulted = true →
    hostStep (.regWrite n v) s = .next s) ∧
  (∀ (s : State) (n : Fin 16), hostStep (.regRead n) s =
    .next { s with
      rdata := match n.val with
        | 1 => s.status.setWidth 64
        | 2 => s.finfo
        | 3 => s.res
        | 4 => s.carry
        | 5 => s.val
        | 6 => s.eptr
        | 7 => s.eend
        | 8 => s.wptr
        | 9 => s.bptr
        | _ => 0#64 }) ∧
  (∀ (s : State) (r : Reg), r ≠ .status → s.begin.readReg r = s.readReg r) ∧
  (∀ s : State, (s.begin.readReg .status).getLsbD 0 = true) ∧
  (∀ (s : State) (n : Fin 16) (v : BitVec 64), s.Accepting → n.val = 1 ∨ n.val = 2 ∨ n.val = 3 ∨ 10 ≤ n.val →
    hostStep (.regWrite n v) s = .next s) ∧
  (∀ (s : State) (w : BitVec 32) (i : Instr), s.Accepting → decode w = .ok i →
    hostStep (.regWrite 0 (w.setWidth 64)) s = exec i s.begin) ∧
  ∀ (s : State) (v : BitVec 64), s.Accepting →
    hostStep (.regWrite 4 v) s = .next { s with carry := BitVec.ofNat 64 (v.toNat % 2 ^ s.inst.W) } ∧
    hostStep (.regWrite 5 v) s = .next { s with val := BitVec.ofNat 64 (v.toNat % 2 ^ s.inst.W) } ∧
    hostStep (.regWrite 6 v) s = .next { s with eptr := BitVec.ofNat 64 (v.toNat % 2 ^ s.inst.idxw) } ∧
    hostStep (.regWrite 7 v) s = .next { s with eend := BitVec.ofNat 64 (v.toNat % 2 ^ s.inst.idxw) } ∧
    hostStep (.regWrite 8 v) s = .next { s with wptr := BitVec.ofNat 64 (v.toNat % 2 ^ s.inst.idxw) } ∧
    hostStep (.regWrite 9 v) s = .next { s with bptr := BitVec.ofNat 64 (v.toNat % 2 ^ s.inst.idxw) }

/-- 20_memory R60, 70_reset_and_hazards R249: on an idle core, faulted or not, the host reads and writes any cell that
exists, and nothing else changes. -/
def Obligations.HostReachesCellsWhenIdle : Prop :=
  ∀ (s : State) (sp : Space) (i : Nat), s.Sound → s.busy = false → i < extentOf s.inst sp →
    hostStep (.cellRead sp i) s = .next { s with rdata := s.mem.cell sp i } ∧
    ∀ v : BitVec 64, v.toNat < 2 ^ cellBitsOf s.inst sp →
      ∃ t, hostStep (.cellWrite sp i v) s = .next t ∧ t = { s with mem := t.mem } ∧ t.mem.cell sp i = v ∧
        ∀ sp' k, sp' ≠ sp ∨ k ≠ i → t.mem.cell sp' k = s.mem.cell sp' k

/-- 10_state R34, 70_reset_and_hazards R230: every register after reset, in any state and for any parameters and initial
memories; the spaces and the parameters stay. -/
def Obligations.ResetClearsRegisters : Prop :=
  (∀ (p : Instance) (m : Spaces), (State.powerUp p m).inst = p ∧ (State.powerUp p m).mem = m ∧
    ∀ r : Reg, (State.powerUp p m).readReg r = 0#64) ∧
  ∀ s : State, ∃ t, hostStep .reset s = .next t ∧ (∀ r : Reg, t.readReg r = 0#64) ∧ t.Accepting ∧
    t.inst = s.inst ∧ t.mem = s.mem

/-! ## Invariants -/

/-- 10_state R21, R28, R34: the invariant holds after reset, for all legal parameters and possible initial memories. -/
def Obligations.ResetIsWellFormed : Prop :=
  State.reset.Wf ∧ ∀ (p : Instance) (m : Spaces), p.legal = true → m.within p → (State.powerUp p m).Wf

/-- 10_state R21, R28, 20_memory R50, R51, 60_exceptions R200: every step keeps the invariant: registers and cells hold
values of their widths, memory stays in canonical form inside the extents, BUSY is 0 between steps, and STATUS and FINFO
describe at most one fault. -/
def Obligations.StepKeepsWellFormed : Prop := ∀ s t : State, s.Wf → step s = .next t → t.Wf

/-- 00_scope R6, R7, 20_memory R51: no step changes a parameter of the core. -/
def Obligations.StepKeepsParameters : Prop := ∀ s t : State, step s = .next t → t.inst = s.inst

/-- 70_reset_and_hazards R240: every command ends, completed or faulted, in every state. -/
def Obligations.EveryCommandEnds : Prop := ∀ (i : Instr) (s : State), ∃ t, exec i s = .next t

/-- 10_state R28, 70_reset_and_hazards R249: at the end of an accepted command BUSY is 0; a completed command leaves
STATUS and FINFO as they were before the write of CMD. -/
def Obligations.CommandLeavesCoreIdle : Prop :=
  ∀ (s t : State) (v : BitVec 64), s.Accepting → hostStep (.regWrite 0 v) s = .next t →
    t.busy = false ∧ (t.faulted = false → t.status = s.status ∧ t.finfo = s.finfo)

/-- From a state of the invariant a step never refuses, and stops only where the host reaches for a cell that does not
exist (log entries 7, 8, 9: the model's choice). -/
def Obligations.StepStopsOnlyOutsideExtents : Prop :=
  ∀ s : State, s.Wf →
    (∀ r, step s ≠ .refused r) ∧
    ∀ f, step s = .fault f → ∃ sp i rest, f = .hostOutOfExtent sp i ∧ extentOf s.inst sp ≤ i ∧
      (s.script = .cellRead sp i :: rest ∨ ∃ v, s.script = .cellWrite sp i v :: rest)

/-! ## Faults -/

/-- 60_exceptions R200, R203: what raising each fault writes, and that it writes nothing else. -/
def Obligations.RaiseWritesStatusAndInfo : Prop :=
  ∀ (r : Raise) (m : Spaces) (s : State),
    s.raise r m = { s with mem := m, status := (s.raise r m).status, finfo := (s.raise r m).finfo } ∧
    (s.raise r m).busy = false ∧ (s.raise r m).faulted = true ∧ (s.raise r m).status &&& 0xFFFFFC8C#32 = 0#32 ∧
    match r with
    | .opcode w => (s.raise r m).cause = 1 ∧ (s.raise r m).spaceField = 0 ∧ (s.raise r m).finfo = w.setWidth 64
    | .width b => (s.raise r m).cause = 2 ∧ (s.raise r m).spaceField = 0 ∧ (s.raise r m).finfo = BitVec.ofNat 64 b
    | .degen => (s.raise r m).cause = 3 ∧ (s.raise r m).spaceField = 0 ∧ (s.raise r m).finfo = 0#64
    | .access .elem i => (s.raise r m).cause = 4 ∧ (s.raise r m).spaceField = 1 ∧ (s.raise r m).finfo = BitVec.ofNat 64 i
    | .access .word i => (s.raise r m).cause = 4 ∧ (s.raise r m).spaceField = 2 ∧ (s.raise r m).finfo = BitVec.ofNat 64 i
    | .access .byte i => (s.raise r m).cause = 4 ∧ (s.raise r m).spaceField = 3 ∧ (s.raise r m).finfo = BitVec.ofNat 64 i
    | .overflow i => (s.raise r m).cause = 5 ∧ (s.raise r m).spaceField = 0 ∧ (s.raise r m).finfo = BitVec.ofNat 64 i

/-- 60_exceptions R205: after a fault the core accepts no command and no register write, STATUS and FINFO keep
describing that fault, and every register keeps its value, until reset, which clears FAULT. -/
def Obligations.FaultStaysUntilReset : Prop :=
  ∀ s : State, s.faulted = true →
    (∀ (n : Fin 16) (v : BitVec 64), hostStep (.regWrite n v) s = .next s) ∧
    (∀ (op : HostOp) (t : State), op ≠ .reset → hostStep op s = .next t →
      t = { s with mem := t.mem, rdata := t.rdata }) ∧
    ∀ t, hostStep .reset s = .next t → t.faulted = false ∧ t.cause = 0 ∧ t.finfo = 0#64

/-- 60_exceptions R204: a command that faults leaves every register but STATUS and FINFO as it was; E_DEGEN, E_OVERFLOW,
and the E_WIDTH of PACK and UNPACK leave the spaces as they were. -/
def Obligations.FaultingCommandKeepsRegisters : Prop :=
  ∀ (i : Instr) (s t : State), s.faulted = false → exec i s = .next t → t.faulted = true →
    t = { s with mem := t.mem, status := t.status, finfo := t.finfo } ∧
    (t.cause = 3 ∨ t.cause = 5 ∨ (t.cause = 2 ∧ i ≠ .dint) → t.mem = s.mem)

/-- 60_exceptions R202: no command raises a cause outside its row of the table. -/
def Obligations.CommandsRaiseOnlyTheirCauses : Prop :=
  ∀ (i : Instr) (s t : State), s.faulted = false → exec i s = .next t → t.faulted = true →
    (t.cause, t.spaceField) ∈ causesOf i

/-- 60_exceptions R201 (E_DEGEN), 42_block_driver R142, R146, 43_varbyte R166, R167, 44_capacity R180: the degenerate
ranges of each command, whatever else its operands are; no space is touched. -/
def Obligations.DegenerateRangesFault : Prop :=
  (∀ s : State, s.last < s.first →
    exec .cint s = .next (s.raise .degen s.mem) ∧ exec .cvar s = .next (s.raise .degen s.mem) ∧
    exec .dvar s = .next (s.raise .degen s.mem) ∧ exec .cap s = .next (s.raise .degen s.mem)) ∧
  ∀ s : State, s.last = 0 ∨ s.last ≤ s.first ∨ (s.last - s.first) % s.inst.W ≠ 0 →
    exec .dint s = .next (s.raise .degen s.mem)

/-! ## Which command touches what -/

/-- 10_state R32, 20_memory R55: whether a command completes or faults, it changes no operand register but those it writes,
no parameter, no space but the one it writes, and of that one no cell outside the destination its operands give. -/
def Obligations.CommandsWriteOnlyTheirState : Prop :=
  ∀ (i : Instr) (s t : State), exec i s = .next t →
    t.inst = s.inst ∧ t.script = s.script ∧ t.rdata = s.rdata ∧
    (Reg.carry ∉ registersWritten i → t.carry = s.carry) ∧ (Reg.val ∉ registersWritten i → t.val = s.val) ∧
    (Reg.bptr ∉ registersWritten i → t.bptr = s.bptr) ∧ t.eptr = s.eptr ∧ t.eend = s.eend ∧ t.wptr = s.wptr ∧
    (spaceWritten i ≠ some Space.elem → t.mem.elem = s.mem.elem) ∧
    (spaceWritten i ≠ some Space.word → t.mem.word = s.mem.word) ∧
    (spaceWritten i ≠ some Space.byte → t.mem.byte = s.mem.byte) ∧
    ∀ sp k, spaceWritten i ≠ some sp ∨ k < (s.destination i).1 ∨ (s.destination i).2 ≤ k →
      t.mem.cell sp k = s.mem.cell sp k

/-- 10_state R32: "A register marked '-' is ignored by that command, whatever it holds": with another value in it the
command ends in the same way, with that value still in the register. -/
def Obligations.CommandsIgnoreUnnamedRegisters : Prop :=
  ∀ (i : Instr) (r : Reg) (s : State) (v : BitVec 64),
    r ∈ [Reg.carry, .val, .eptr, .eend, .wptr, .bptr] → r ∉ registersUsed i →
    ∃ t, exec i s = .next t ∧ exec i (s.writeReg r v) = .next (t.writeReg r v)

/-! ## The spaces -/

/-- 20_memory R52, R53: an access outside the extent raises E_ACCESS with the index; one inside reads the cell, or writes
it and no other cell of any space. -/
def Obligations.AccessReadsAndWritesOneCell : Prop :=
  ∀ (p : Instance) (sp : Space) (i : Nat) (m : Spaces) (v : BitVec 64), m.within p → v.toNat < 2 ^ cellBitsOf p sp →
    (extentOf p sp ≤ i → memRead p sp i m = .error (.access sp i) ∧ memWrite p sp i v m = .error (.access sp i)) ∧
    (i < extentOf p sp → memRead p sp i m = .ok (m.cell sp i) ∧ (m.cell sp i).toNat < 2 ^ cellBitsOf p sp ∧
      ∃ m', memWrite p sp i v m = .ok m' ∧ memRead p sp i m' = .ok v ∧ m'.within p ∧
        ∀ sp' k, sp' ≠ sp ∨ k ≠ i → m'.cell sp' k = m.cell sp' k)

/-! ## The delta chain and the estimator -/

/-- 40_delta_width R102: the deltas of a sequence and the carry after it. -/
def Obligations.DeltasAreDifferences : Prop :=
  ∀ (w : Nat) (c : BitVec w) (e : List (BitVec w)),
    (deltas c e).length = e.length ∧
    (∀ h : 0 < (deltas c e).length, (deltas c e)[0] = e.getD 0 0 - c) ∧
    (∀ (i : Nat) (h : i + 1 < (deltas c e).length), (deltas c e)[i + 1] = e.getD (i + 1) 0 - e.getD i 0) ∧
    carryAfter c e = if e.length = 0 then c else e.getD (e.length - 1) 0

/-- 40_delta_width R103: the running sum, and that the chain and the running sum undo each other for every carry. -/
def Obligations.DeltasAndUndeltaInvert : Prop :=
  ∀ (w : Nat) (c : BitVec w) (l : List (BitVec w)),
    (undelta c l).length = l.length ∧
    (∀ h : 0 < (undelta c l).length, (undelta c l)[0] = c + l.getD 0 0) ∧
    (∀ (i : Nat) (h : i + 1 < (undelta c l).length),
      (undelta c l)[i + 1] = (undelta c l)[i] + l.getD (i + 1) 0) ∧
    undelta c (deltas c l) = l ∧ deltas c (undelta c l) = l

/-- 40_delta_width R105, 41_bitpack R129: the estimate is the smallest width in which every delta of the block fits, when
it is 0 and when it is W, and the block packs at it and comes back. -/
def Obligations.EstimateIsTheLeastWidth : Prop :=
  ∀ (w : Nat) (c : BitVec w) (e : List (BitVec w)), 0 < w → e.length = w →
    blockWidth c e ≤ w ∧ (∀ d ∈ deltas c e, d.toNat < 2 ^ blockWidth c e) ∧
    (∀ b, (∀ d ∈ deltas c e, d.toNat < 2 ^ b) → blockWidth c e ≤ b) ∧
    (blockWidth c e = 0 ↔ ∀ x ∈ e, x = c) ∧
    (blockWidth c e = w ↔ ∃ d ∈ deltas c e, d.msb = true) ∧
    ∃ out, packBlock c e (blockWidth c e) = .ok out ∧ unpackBlock c out (blockWidth c e) = e

/-- 40_delta_width R107: EST on a block inside ELEM leaves in RES the least width of its deltas against CARRY, and
changes nothing else. -/
def Obligations.EstCompletes : Prop :=
  ∀ s : State, s.Sound → s.first + s.inst.W ≤ s.inst.elemSize →
    ∃ t, exec .est s = .next t ∧ t = { s with res := t.res, status := clearBusy s.status } ∧
      (∀ d ∈ deltas s.seed s.block, d.toNat < 2 ^ t.res.toNat) ∧
      ∀ b, (∀ d ∈ deltas s.seed s.block, d.toNat < 2 ^ b) → t.res.toNat ≤ b

/-- 40_delta_width R107: EST on a block that leaves ELEM raises E_ACCESS at its first index outside. -/
def Obligations.EstFaultsOutsideElem : Prop :=
  ∀ s : State, s.inst.elemSize < s.first + s.inst.W →
    exec .est s = .next (s.raise (.access .elem (max s.first s.inst.elemSize)) s.mem)

/-! ## The packer -/

/-- 41_bitpack R121: bit `j` of delta `i` is payload bit `i * b + j`, payload bit `n` is bit `n mod W` of word `n div W`;
and payload word `k` is bits `W * k` upward of the payload as one number. -/
def Obligations.PackedLayoutIsContiguous : Prop :=
  ∀ (w b : Nat) (d : List (BitVec w)), d.length = w → 1 ≤ b → b < w → (∀ x ∈ d, x.toNat < 2 ^ b) →
    (packBits d b).length = b ∧
    (∀ i j, i < w → j < b →
      ((packBits d b).getD ((i * b + j) / w) 0).getLsbD ((i * b + j) % w) = (d.getD i 0).getLsbD j) ∧
    ∀ k < b, (packBits d b).getD k 0 = BitVec.ofNat w (payloadNumber b d >>> (w * k))

/-- 41_bitpack R123: delta `i` is bits `i * b` upward of the payload, each delta fits `b` bits, and packing and
unpacking undo each other. -/
def Obligations.UnpackBitsInvertsPackBits : Prop :=
  ∀ (w b : Nat), 1 ≤ b → b < w →
    (∀ ws : List (BitVec w), ws.length = b →
      (unpackBits ws b).length = w ∧
      (∀ i < w, ((unpackBits ws b).getD i 0).toNat = (payloadNumber w ws >>> (i * b)) % 2 ^ b) ∧
      packBits (unpackBits ws b) b = ws) ∧
    ∀ d : List (BitVec w), d.length = w → (∀ x ∈ d, x.toNat < 2 ^ b) → unpackBits (packBits d b) b = d

/-- 41_bitpack R128: a block packs at every width from its estimate to W, and comes back; at a smaller width PACK raises
E_OVERFLOW and writes nothing. -/
def Obligations.BlockRoundTrips : Prop :=
  (∀ (w b : Nat) (c : BitVec w) (e : List (BitVec w)), e.length = w → blockWidth c e ≤ b → b ≤ w →
    ∃ out, packBlock c e b = .ok out ∧ out.length = b ∧ unpackBlock c out b = e) ∧
  ∀ (s : State) (b : Nat), s.first + s.inst.W ≤ s.inst.elemSize → b < blockWidth s.seed s.block →
    ∃ i < s.inst.W, exec (.pack b) s = .next (s.raise (.overflow i) s.mem)

/-- 41_bitpack R126: PACK b writes the b payload words at WPTR, the elements themselves when b = W and the contiguous
bits of the deltas when 1 ≤ b < W; CARRY becomes the last element of the block and RES becomes b; nothing else changes. -/
def Obligations.PackCompletes : Prop :=
  ∀ (b : Nat) (s : State), s.Sound → b ≤ s.inst.W → s.first + s.inst.W ≤ s.inst.elemSize →
    (b = s.inst.W ∨ ∀ d ∈ deltas s.seed s.block, d.toNat < 2 ^ b) →
    (b = 0 ∨ s.wordAt + b ≤ s.inst.wordSize) →
    ∃ t, exec (.pack b) s = .next t ∧
      t = { s with
        mem := { s.mem with word := t.mem.word }
        res := BitVec.ofNat 64 b
        carry := s.mem.cell .elem (s.first + s.inst.W - 1)
        status := clearBusy s.status } ∧
      (∀ i, i < s.wordAt ∨ s.wordAt + b ≤ i → t.mem.cell .word i = s.mem.cell .word i) ∧
      (b = s.inst.W → t.mem.cells .word s.inst.W s.inst.W s.wordAt = s.block) ∧
      (1 ≤ b → b < s.inst.W → ∀ i j, i < s.inst.W → j < b →
        (t.mem.cell .word (s.wordAt + (i * b + j) / s.inst.W)).getLsbD ((i * b + j) % s.inst.W) =
          ((deltas s.seed s.block).getD i 0).getLsbD j)

/-- 41_bitpack R126, 60_exceptions R206: the faults of PACK in the order they can occur, with what each leaves. -/
def Obligations.PackFaultsInOrder : Prop :=
  ∀ (b : Nat) (s : State),
    (s.inst.W < b → exec (.pack b) s = .next (s.raise (.width b) s.mem)) ∧
    (b ≤ s.inst.W → s.inst.elemSize < s.first + s.inst.W →
      exec (.pack b) s = .next (s.raise (.access .elem (max s.first s.inst.elemSize)) s.mem)) ∧
    (b < s.inst.W → s.first + s.inst.W ≤ s.inst.elemSize →
      ∀ i < s.inst.W, 2 ^ b ≤ ((deltas s.seed s.block).getD i 0).toNat →
        (∀ j < i, ((deltas s.seed s.block).getD j 0).toNat < 2 ^ b) →
        exec (.pack b) s = .next (s.raise (.overflow i) s.mem)) ∧
    (s.Sound → b ≤ s.inst.W → s.first + s.inst.W ≤ s.inst.elemSize →
      (b = s.inst.W ∨ ∀ d ∈ deltas s.seed s.block, d.toNat < 2 ^ b) → 0 < b → s.inst.wordSize < s.wordAt + b →
      ∃ m out, exec (.pack b) s = .next (s.raise (.access .word (max s.wordAt s.inst.wordSize)) m) ∧
        packBlock s.seed s.block b = .ok out ∧ m = { s.mem with word := m.word } ∧
        m.cells .word s.inst.W (s.inst.wordSize - s.wordAt) s.wordAt = out.take (s.inst.wordSize - s.wordAt) ∧
        ∀ i, i < s.wordAt ∨ s.inst.wordSize ≤ i → m.cell .word i = s.mem.cell .word i)

/-- 41_bitpack R127: UNPACK b writes W elements at EPTR: CARRY repeated when b = 0, the words themselves when b = W, and
otherwise the running sum of the contiguous b-bit fields; CARRY becomes the last of them and RES becomes b; nothing else
changes. Every payload decodes. -/
def Obligations.UnpackCompletes : Prop :=
  ∀ (b : Nat) (s : State), s.Sound → b ≤ s.inst.W → (b = 0 ∨ s.wordAt + b ≤ s.inst.wordSize) →
    s.first + s.inst.W ≤ s.inst.elemSize →
    ∃ t, exec (.unpack b) s = .next t ∧
      t = { s with
        mem := { s.mem with elem := t.mem.elem }
        res := BitVec.ofNat 64 b
        carry := t.mem.cell .elem (s.first + s.inst.W - 1)
        status := clearBusy s.status } ∧
      (∀ i, i < s.first ∨ s.first + s.inst.W ≤ i → t.mem.cell .elem i = s.mem.cell .elem i) ∧
      (b = 0 → t.mem.cells .elem s.inst.W s.inst.W s.first = List.replicate s.inst.W s.seed) ∧
      (b = s.inst.W →
        t.mem.cells .elem s.inst.W s.inst.W s.first = s.mem.cells .word s.inst.W s.inst.W s.wordAt) ∧
      (1 ≤ b → b < s.inst.W → ∀ i j, i < s.inst.W → j < s.inst.W →
        ((deltas s.seed (t.mem.cells .elem s.inst.W s.inst.W s.first)).getD i 0).getLsbD j =
          (decide (j < b) &&
            (s.mem.cell .word (s.wordAt + (i * b + j) / s.inst.W)).getLsbD ((i * b + j) % s.inst.W)))

/-- 41_bitpack R127, 60_exceptions R206: the faults of UNPACK in the order they can occur, with what each leaves. -/
def Obligations.UnpackFaultsInOrder : Prop :=
  ∀ (b : Nat) (s : State),
    (s.inst.W < b → exec (.unpack b) s = .next (s.raise (.width b) s.mem)) ∧
    (b ≤ s.inst.W → 0 < b → s.inst.wordSize < s.wordAt + b →
      exec (.unpack b) s = .next (s.raise (.access .word (max s.wordAt s.inst.wordSize)) s.mem)) ∧
    (s.Sound → b ≤ s.inst.W → (b = 0 ∨ s.wordAt + b ≤ s.inst.wordSize) → s.inst.elemSize < s.first + s.inst.W →
      ∃ m, exec (.unpack b) s = .next (s.raise (.access .elem (max s.first s.inst.elemSize)) m) ∧
        m = { s.mem with elem := m.elem } ∧
        m.cells .elem s.inst.W (s.inst.elemSize - s.first) s.first =
          (unpackBlock s.seed (s.mem.cells .word s.inst.W b s.wordAt) b).take (s.inst.elemSize - s.first) ∧
        ∀ i, i < s.first ∨ s.inst.elemSize ≤ i → m.cell .elem i = s.mem.cell .elem i)

/-! ## The block driver -/

/-- 42_block_driver R141, R145: the header of G widths is one byte for each block, block 1 highest, fits a word, and gives
the widths back; the header of a tail block is its width, all W bits of the word. -/
def Obligations.HeaderHoldsOneBytePerBlock : Prop :=
  (∀ (p : Instance) (bs : List Nat), bs.length = p.G → (∀ b ∈ bs, b ≤ p.W) →
    header bs < 2 ^ p.W ∧
    header bs = ((List.range p.G).map fun k => bs.getD k 0 <<< ((p.G - 1 - k) * 8)).sum ∧
    headerWidths p.G (BitVec.ofNat p.W (header bs)) = bs) ∧
  (∀ (p : Instance) (h : BitVec p.W) (k : Nat), k < p.G →
    (headerWidths p.G h).getD k 0 = (h.extractLsb' ((p.G - 1 - k) * 8) 8).toNat) ∧
  ∀ (p : Instance) (h : BitVec p.W), headerWidths 1 h = [h.toNat] ∧ header [h.toNat] = h.toNat

/-- 42_block_driver R141, R142: CINT on a range whose full blocks lie inside ELEM and whose packed stream fits in WORD
writes exactly that stream at WPTR; RES becomes its length and CARRY the last element encoded; nothing else changes. -/
def Obligations.CintWritesPackedStream : Prop :=
  ∀ s : State, s.Sound → s.first ≤ s.last →
    (s.blocks = 0 ∨ s.first + s.blocks * s.inst.W ≤ s.inst.elemSize) →
    (s.blocks = 0 ∨ s.wordAt + s.stream.length ≤ s.inst.wordSize) →
    ∃ t, exec .cint s = .next t ∧
      t = { s with
        mem := { s.mem with word := t.mem.word }
        res := BitVec.ofNat 64 s.stream.length
        carry := if s.blocks = 0 then s.carry else s.mem.cell .elem (s.first + s.blocks * s.inst.W - 1)
        status := clearBusy s.status } ∧
      t.mem.cells .word s.inst.W s.stream.length s.wordAt = s.stream ∧
      ∀ i, i < s.wordAt ∨ s.wordAt + s.stream.length ≤ i → t.mem.cell .word i = s.mem.cell .word i

/-- 42_block_driver R142, 60_exceptions R204: CINT writes the groups before the first one that leaves ELEM, in order. Where
their words run past WORD it raises E_ACCESS on WORD at the first index outside, after the words below it were written;
otherwise, where a full block leaves ELEM, it raises E_ACCESS on ELEM at the first element outside, after all those words
and none of the current group were written. Nothing else changes. -/
def Obligations.CintFaultsAtTheExtents : Prop :=
  ∀ s : State, s.Sound → s.first ≤ s.last → 0 < s.blocks →
    (s.first + s.blocks * s.inst.W ≤ s.inst.elemSize → s.streamInside = s.stream) ∧
    (s.streamInside ≠ [] → s.inst.wordSize < s.wordAt + s.streamInside.length →
      ∃ m, exec .cint s = .next (s.raise (.access .word (max s.wordAt s.inst.wordSize)) m) ∧
        m = { s.mem with word := m.word } ∧
        m.cells .word s.inst.W (s.inst.wordSize - s.wordAt) s.wordAt =
          s.streamInside.take (s.inst.wordSize - s.wordAt) ∧
        ∀ i, i < s.wordAt ∨ s.inst.wordSize ≤ i → m.cell .word i = s.mem.cell .word i) ∧
    (s.inst.elemSize < s.first + s.blocks * s.inst.W →
      (s.streamInside = [] ∨ s.wordAt + s.streamInside.length ≤ s.inst.wordSize) →
      ∃ m, exec .cint s = .next (s.raise (.access .elem (max s.first s.inst.elemSize)) m) ∧
        m = { s.mem with word := m.word } ∧ (s.streamInside = [] → m = s.mem) ∧
        m.cells .word s.inst.W s.streamInside.length s.wordAt = s.streamInside ∧
        ∀ i, i < s.wordAt ∨ s.wordAt + s.streamInside.length ≤ i → m.cell .word i = s.mem.cell .word i)

/-- 42_block_driver R143: the words a completed CINT writes, counted from the widths, and their bounds. -/
def Obligations.CintLengthIsHeadersPlusWidths : Prop :=
  ∀ s t : State, s.Sound → s.faulted = false → exec .cint s = .next t → t.faulted = false →
    t.res.toNat = s.megablocks + s.tailBlocks + s.widths.sum ∧
    s.blocks / s.inst.G + s.blocks % s.inst.G ≤ t.res.toNat ∧ t.res.toNat ≤ capacity s.inst s.len

/-- 42_block_driver R144, R142: CINT over `[EPTR, mid)` and then over `[mid, EEND)`, with CARRY left and WPTR advanced by
the first RES, writes what one CINT over the whole range writes, when the first range is whole megablocks. -/
def Obligations.CintStreamsWholeMegablocks : Prop :=
  ∀ (s t u : State) (mid : Nat), s.Sound → s.faulted = false → s.first ≤ mid → mid ≤ s.last →
    (mid - s.first) % (s.inst.G * s.inst.W) = 0 →
    exec .cint { s with eend := BitVec.ofNat 64 mid } = .next t → t.faulted = false →
    exec .cint { t with
      eptr := BitVec.ofNat 64 mid, eend := s.eend, wptr := BitVec.ofNat 64 (s.wordAt + t.res.toNat) } = .next u →
    u.faulted = false →
    ∃ v, exec .cint s = .next v ∧ v.faulted = false ∧ v.mem = u.mem ∧ v.carry = u.carry ∧ v.res.toNat = t.res.toNat + u.res.toNat

/-- 42_block_driver R145, R146: DINT on a range of whole blocks inside ELEM, over a stream whose widths are at most W and
which ends inside WORD, writes the decoded elements at EPTR; RES becomes the words read and CARRY the last element;
nothing else changes. -/
def Obligations.DintCompletes : Prop :=
  ∀ s : State, s.Sound → s.first < s.last → s.len % s.inst.W = 0 → s.last ≤ s.inst.elemSize →
    (∀ x ∈ s.payloadList, x.2 ≤ s.inst.W) → s.streamEnd ≤ s.inst.wordSize →
    ∃ t, exec .dint s = .next t ∧
      t = { s with
        mem := { s.mem with elem := t.mem.elem }
        res := BitVec.ofNat 64 (s.streamEnd - s.wordAt)
        carry := t.mem.cell .elem (s.last - 1)
        status := clearBusy s.status } ∧
      t.mem.cells .elem s.inst.W s.len s.first = decodeBlocks s.inst s.mem s.seed s.payloadList ∧
      ∀ i, i < s.first ∨ s.last ≤ i → t.mem.cell .elem i = s.mem.cell .elem i

/-- 42_block_driver R145, R146: a width above W raises E_WIDTH with that width when its block is reached; the blocks
before it have been written, and nothing else has. -/
def Obligations.DintFaultsAtTheFirstBadWidth : Prop :=
  ∀ (s : State) (k : Nat), s.Sound → s.first < s.last → s.len % s.inst.W = 0 → k < s.payloadList.length →
    (∀ j < k, (s.payloadList.getD j (0, 0)).2 ≤ s.inst.W) → s.inst.W < (s.payloadList.getD k (0, 0)).2 →
    (s.payloadList.getD k (0, 0)).1 ≤ s.inst.wordSize → (k = 0 ∨ s.first + k * s.inst.W ≤ s.inst.elemSize) →
    ∃ m, exec .dint s = .next (s.raise (.width (s.payloadList.getD k (0, 0)).2) m) ∧
      m = { s.mem with elem := m.elem } ∧
      m.cells .elem s.inst.W (k * s.inst.W) s.first = decodeBlocks s.inst s.mem s.seed (s.payloadList.take k) ∧
      ∀ i, i < s.first ∨ s.first + k * s.inst.W ≤ i → m.cell .elem i = s.mem.cell .elem i

/-- 42_block_driver R146, 60_exceptions R204: DINT whose first block that cannot be decoded is block `k` raises E_ACCESS on
WORD where the header of that block's group, or else a word of its payload, lies outside, with the blocks before it
written; and E_ACCESS on ELEM where the block leaves ELEM, with the elements of that block below the extent written as
well. Nothing else changes. -/
def Obligations.DintFaultsAtTheExtents : Prop :=
  ∀ (s : State) (k r b : Nat), s.Sound → s.first < s.last → s.len % s.inst.W = 0 → k < s.payloadList.length →
    (r, b) = s.payloadList.getD k (0, 0) → (∀ j < k, (s.payloadList.getD j (0, 0)).2 ≤ s.inst.W) →
    (k = 0 ∨ s.first + k * s.inst.W ≤ s.inst.elemSize) →
    ((k % s.inst.G = 0 ∨ s.megablocks * s.inst.G ≤ k) → (k = 0 ∨ r - 1 ≤ s.inst.wordSize) → s.inst.wordSize ≤ r - 1 →
      ∃ m, exec .dint s = .next (s.raise (.access .word (r - 1)) m) ∧ m = { s.mem with elem := m.elem } ∧
        m.cells .elem s.inst.W (k * s.inst.W) s.first = decodeBlocks s.inst s.mem s.seed (s.payloadList.take k) ∧
        ∀ i, i < s.first ∨ s.first + k * s.inst.W ≤ i → m.cell .elem i = s.mem.cell .elem i) ∧
    (b ≤ s.inst.W → r ≤ s.inst.wordSize → s.inst.wordSize < r + b →
      ∃ m, exec .dint s = .next (s.raise (.access .word s.inst.wordSize) m) ∧ m = { s.mem with elem := m.elem } ∧
        m.cells .elem s.inst.W (k * s.inst.W) s.first = decodeBlocks s.inst s.mem s.seed (s.payloadList.take k) ∧
        ∀ i, i < s.first ∨ s.first + k * s.inst.W ≤ i → m.cell .elem i = s.mem.cell .elem i) ∧
    (b ≤ s.inst.W → r + b ≤ s.inst.wordSize → s.inst.elemSize < s.first + (k + 1) * s.inst.W →
      ∃ m, exec .dint s = .next (s.raise (.access .elem (max s.first s.inst.elemSize)) m) ∧
        m = { s.mem with elem := m.elem } ∧
        m.cells .elem s.inst.W (s.inst.elemSize - s.first) s.first =
          (decodeBlocks s.inst s.mem s.seed (s.payloadList.take (k + 1))).take (s.inst.elemSize - s.first) ∧
        ∀ i, i < s.first ∨ s.inst.elemSize ≤ i → m.cell .elem i = s.mem.cell .elem i)

/-- 42_block_driver R147: DINT over what CINT has written, with the same element count and WPTR and any destination and
carry, completes with the same RES; with the same carry it gives back exactly the source elements and the same CARRY;
with another carry every element before the first block whose width is W is off by the difference of the carries, and the
rest is exact. -/
def Obligations.IntegratedCodecRoundTrips : Prop :=
  ∀ (s t : State) (dst : Nat) (c : BitVec 64), s.Sound → s.faulted = false → s.first < s.last →
    s.len % s.inst.W = 0 → exec .cint s = .next t → t.faulted = false → dst + s.len ≤ s.inst.elemSize →
    fitsIn s.inst.W c →
    ∃ v, exec .dint { t with
        carry := c, eptr := BitVec.ofNat 64 dst, eend := BitVec.ofNat 64 (dst + s.len) } = .next v ∧
      v.faulted = false ∧ v.res = t.res ∧ (c = s.carry → v.carry = t.carry) ∧
      (∀ j < s.len, (v.mem.cell .elem (dst + j)).setWidth s.inst.W = (s.mem.cell .elem (s.first + j)).setWidth s.inst.W +
        if j < (s.widths.takeWhile (· ≠ s.inst.W)).length * s.inst.W then c.setWidth s.inst.W - s.seed else 0) ∧
      ∀ i, i < dst ∨ dst + s.len ≤ i → v.mem.cell .elem i = s.mem.cell .elem i

/-! ## The capacity estimator -/

/-- 44_capacity R180, R181: CAP leaves in RES, and changes nothing else, W words for every full block, one for every
megablock and one for every tail block; a reversed range raises E_DEGEN. -/
def Obligations.CapCompletes : Prop :=
  decode 0x00000006#32 = .ok .cap ∧
  (∀ s : State, s.Sound → s.first ≤ s.last →
    exec .cap s = .next { s with
      res := BitVec.ofNat 64 ((s.last - s.first) / s.inst.W * s.inst.W + (s.last - s.first) / s.inst.W / s.inst.G +
        (s.last - s.first) / s.inst.W % s.inst.G)
      status := clearBusy s.status }) ∧
  ∀ s : State, s.last < s.first → exec .cap s = .next (s.raise .degen s.mem)

/-- 44_capacity R182: a completed CINT writes at most Cap(n) words, and exactly so many when every block has width W; the
excess over the raw size is the number of headers; with Cap(n) words set aside CINT raises no E_ACCESS on WORD; Cap(n)
fits in IDXW+1 bits. -/
def Obligations.CapacityIsSoundAndTight : Prop :=
  (∀ s t : State, s.Sound → s.faulted = false → exec .cint s = .next t → t.faulted = false →
    t.res.toNat ≤ capacity s.inst s.len ∧
    (t.res.toNat = capacity s.inst s.len ↔ ∀ b ∈ s.widths, b = s.inst.W) ∧
    capacity s.inst s.len = s.blocks * s.inst.W + (s.megablocks + s.tailBlocks)) ∧
  (∀ s t : State, s.Sound → s.faulted = false → s.wordAt + capacity s.inst s.len ≤ s.inst.wordSize →
    exec .cint s = .next t → t.faulted = true → ¬ (t.cause = 4 ∧ t.spaceField = 2)) ∧
  (∀ (p : Instance) (n : Nat), capacity p n ≤ n + n / p.W ∧ n + n / p.W ≤ n + n / 32 ∧
    (n < 2 ^ p.idxw → n + n / 32 < 2 ^ (p.idxw + 1) ∧ capacity p n < 2 ^ (p.idxw + 1))) ∧
  capacity Config.standard 4294967295 = 4328521698 ∧ 4294967296 ≤ capacity Config.standard 4294967295

/-! ## The variable-byte codec -/

/-- 43_varbyte R160, R161: the length and every byte of a varint. -/
def Obligations.VarintBytesCarrySevenBits : Prop :=
  ∀ (wd : Width) (v : BitVec wd.bits),
    (varEncode wd.kmax v).length = varLen wd.kmax v ∧ 1 ≤ varLen wd.kmax v ∧ varLen wd.kmax v ≤ wd.kmax ∧
    (∀ k, 1 ≤ k → k < wd.kmax → (varLen wd.kmax v ≤ k ↔ v.toNat < 2 ^ (7 * k))) ∧
    (∀ j, j + 1 < varLen wd.kmax v →
      ((varEncode wd.kmax v).getD j 0).toNat = v.toNat / 2 ^ (7 * j) % 128 + 128) ∧
    ((varEncode wd.kmax v).getD (varLen wd.kmax v - 1) 0).toNat = v.toNat / 2 ^ (7 * (varLen wd.kmax v - 1)) ∧
    (varLen wd.kmax v < wd.kmax → ((varEncode wd.kmax v).getD (varLen wd.kmax v - 1) 0).toNat < 128)

/-- 43_varbyte R162: the decoder reads up to the first byte without the flag, at most KMAX bytes; each byte gives seven
bits but byte KMAX-1, which gives all eight; bits above W-1 are dropped; it never faults on what the bytes hold, only where
they leave BYTE. -/
def Obligations.VarDecodeReadsUpToTheFlag : Prop :=
  ∀ (p : Instance) (m : Spaces) (bp n : Nat), 1 ≤ n → n ≤ p.kmax →
    (∀ j, j + 1 < n → (m.cell .byte (bp + j)).getLsbD 7 = true) →
    (n = p.kmax ∨ (m.cell .byte (bp + (n - 1))).getLsbD 7 = false) →
    (bp + n ≤ p.byteSize → varDecode p bp m =
      .ok (BitVec.ofNat p.W (((List.range n).map fun j =>
        (if j = p.kmax - 1 then (m.cell .byte (bp + j)).toNat else (m.cell .byte (bp + j)).toNat % 128) <<< (7 * j)).sum),
        n)) ∧
    (p.byteSize < bp + n → varDecode p bp m = .error (.access .byte (max bp p.byteSize)))

/-- 43_varbyte R163: decoding the bytes of a value gives the value and their count, no proper prefix of them is a complete
varint, and no shorter byte string decodes to the value. -/
def Obligations.VarintsDecodeUniquely : Prop :=
  ∀ (p : Instance) (v : BitVec p.W),
    (1 ≤ (varEncode p.kmax v).length ∧ (varEncode p.kmax v).length ≤ p.kmax) ∧
    (∀ (m : Spaces) (bp : Nat), bp + (varEncode p.kmax v).length ≤ p.byteSize →
      m.cells .byte 8 (varEncode p.kmax v).length bp = varEncode p.kmax v →
      varDecode p bp m = .ok (v, (varEncode p.kmax v).length)) ∧
    (∀ (m : Spaces) (bp n : Nat), n < (varEncode p.kmax v).length → p.byteSize = bp + n →
      m.cells .byte 8 n bp = (varEncode p.kmax v).take n → varDecode p bp m = .error (.access .byte (bp + n))) ∧
    ∀ (m : Spaces) (bp n : Nat), varDecode p bp m = .ok (v, n) → (varEncode p.kmax v).length ≤ n

/-- 43_varbyte R164: WRVAR writes the varint of VAL at BPTR, advances BPTR by its length, leaves the length in RES and
changes nothing else; where the bytes leave BYTE it raises E_ACCESS at the first index outside, with the bytes below it
written and the registers kept. -/
def Obligations.WrvarAppendsOneVarint : Prop :=
  decode 0x0000000A#32 = .ok .wrvar ∧ varEncode 5 300#32 = [0xAC#8, 0x02#8] ∧
  ∀ s : State, s.Sound →
    (s.byteAt + (varEncode s.inst.kmax s.value).length ≤ s.inst.byteSize →
      ∃ t, exec .wrvar s = .next t ∧
        t = { s with
          mem := { s.mem with byte := t.mem.byte }
          res := BitVec.ofNat 64 (varEncode s.inst.kmax s.value).length
          bptr := BitVec.ofNat 64 (s.byteAt + (varEncode s.inst.kmax s.value).length)
          status := clearBusy s.status } ∧
        t.mem.cells .byte 8 (varEncode s.inst.kmax s.value).length s.byteAt = varEncode s.inst.kmax s.value ∧
        ∀ i, i < s.byteAt ∨ s.byteAt + (varEncode s.inst.kmax s.value).length ≤ i →
          t.mem.cell .byte i = s.mem.cell .byte i) ∧
    (s.inst.byteSize < s.byteAt + (varEncode s.inst.kmax s.value).length →
      ∃ m, exec .wrvar s = .next (s.raise (.access .byte (max s.byteAt s.inst.byteSize)) m) ∧
        m = { s.mem with byte := m.byte } ∧
        m.cells .byte 8 (s.inst.byteSize - s.byteAt) s.byteAt =
          (varEncode s.inst.kmax s.value).take (s.inst.byteSize - s.byteAt) ∧
        ∀ i, i < s.byteAt ∨ s.inst.byteSize ≤ i → m.cell .byte i = s.mem.cell .byte i)

/-- 43_varbyte R165: RDVAR leaves the value of the varint at BPTR in VAL and its length in RES, advances BPTR by it and
changes nothing else; where the varint leaves BYTE it raises E_ACCESS with the registers kept. -/
def Obligations.RdvarConsumesOneVarint : Prop :=
  decode 0x0000000B#32 = .ok .rdvar ∧
  ∀ s : State, s.Sound →
    (∀ (v : BitVec s.inst.W) (n : Nat), varDecode s.inst s.byteAt s.mem = .ok (v, n) →
      exec .rdvar s = .next { s with
        val := v.setWidth 64
        res := BitVec.ofNat 64 n
        bptr := BitVec.ofNat 64 (s.byteAt + n)
        status := clearBusy s.status }) ∧
    (∀ r, varDecode s.inst s.byteAt s.mem = .error r →
      r = .access .byte (max s.byteAt s.inst.byteSize) ∧ exec .rdvar s = .next (s.raise r s.mem)) ∧
    ((s.mem.cell .byte s.byteAt).toNat = 0xAC → (s.mem.cell .byte (s.byteAt + 1)).toNat = 0x02 →
      s.byteAt + 2 ≤ s.inst.byteSize →
      exec .rdvar s = .next { s with
        val := 300#64, res := 2#64, bptr := BitVec.ofNat 64 (s.byteAt + 2), status := clearBusy s.status })

/-- 43_varbyte R166: CVAR writes the varints of the deltas of the range one after another at BPTR; RES becomes their
length, BPTR advances by it, CARRY becomes the last element; an empty range changes nothing but RES; nothing else
changes. -/
def Obligations.CvarCompletes : Prop :=
  ∀ s : State, s.Sound → s.first ≤ s.last → (s.len = 0 ∨ s.last ≤ s.inst.elemSize) →
    (s.len = 0 ∨ s.byteAt + s.varStream.length ≤ s.inst.byteSize) →
    ∃ t, exec .cvar s = .next t ∧
      t = { s with
        mem := { s.mem with byte := t.mem.byte }
        res := BitVec.ofNat 64 s.varStream.length
        bptr := BitVec.ofNat 64 (s.byteAt + s.varStream.length)
        carry := if s.len = 0 then s.carry else s.mem.cell .elem (s.last - 1)
        status := clearBusy s.status } ∧
      t.mem.cells .byte 8 s.varStream.length s.byteAt = s.varStream ∧
      ∀ i, i < s.byteAt ∨ s.byteAt + s.varStream.length ≤ i → t.mem.cell .byte i = s.mem.cell .byte i

/-- 43_varbyte R166, 60_exceptions R204: CVAR writes the varints of the elements before the first one outside ELEM, in
order. Where they run past BYTE it raises E_ACCESS on BYTE at the first index outside, after the bytes below it were
written; otherwise, where the range leaves ELEM, it raises E_ACCESS on ELEM at the first element outside, after all those
bytes were written. Nothing else changes. -/
def Obligations.CvarFaultsAtTheExtents : Prop :=
  ∀ s : State, s.Sound → s.first < s.last →
    (s.last ≤ s.inst.elemSize → s.varStreamInside = s.varStream) ∧
    (s.varStreamInside ≠ [] → s.inst.byteSize < s.byteAt + s.varStreamInside.length →
      ∃ m, exec .cvar s = .next (s.raise (.access .byte (max s.byteAt s.inst.byteSize)) m) ∧
        m = { s.mem with byte := m.byte } ∧
        m.cells .byte 8 (s.inst.byteSize - s.byteAt) s.byteAt =
          s.varStreamInside.take (s.inst.byteSize - s.byteAt) ∧
        ∀ i, i < s.byteAt ∨ s.inst.byteSize ≤ i → m.cell .byte i = s.mem.cell .byte i) ∧
    (s.inst.elemSize < s.last →
      (s.varStreamInside = [] ∨ s.byteAt + s.varStreamInside.length ≤ s.inst.byteSize) →
      ∃ m, exec .cvar s = .next (s.raise (.access .elem (max s.first s.inst.elemSize)) m) ∧
        m = { s.mem with byte := m.byte } ∧ (s.varStreamInside = [] → m = s.mem) ∧
        m.cells .byte 8 s.varStreamInside.length s.byteAt = s.varStreamInside ∧
        ∀ i, i < s.byteAt ∨ s.byteAt + s.varStreamInside.length ≤ i → m.cell .byte i = s.mem.cell .byte i)

/-- 43_varbyte R167: DVAR decodes one varint for each element of the range, at positions that follow one another from
BPTR on, and writes the running sum of their values at EPTR; RES becomes the bytes read, BPTR advances by them, CARRY
becomes the last element; nothing else changes. -/
def Obligations.DvarCompletes : Prop :=
  ∀ (s : State) (pos : Nat → Nat) (d : Nat → BitVec s.inst.W), s.Sound → s.first ≤ s.last →
    (s.len = 0 ∨ s.last ≤ s.inst.elemSize) → pos 0 = s.byteAt →
    (∀ i < s.len, ∃ n, varDecode s.inst (pos i) s.mem = .ok (d i, n) ∧ pos (i + 1) = pos i + n) →
    ∃ t, exec .dvar s = .next t ∧
      t = { s with
        mem := { s.mem with elem := t.mem.elem }
        res := BitVec.ofNat 64 (pos s.len - s.byteAt)
        bptr := BitVec.ofNat 64 (pos s.len)
        carry := if s.len = 0 then s.carry else t.mem.cell .elem (s.last - 1)
        status := clearBusy s.status } ∧
      t.mem.cells .elem s.inst.W s.len s.first = undelta s.seed ((List.range s.len).map d) ∧
      ∀ i, i < s.first ∨ s.last ≤ i → t.mem.cell .elem i = s.mem.cell .elem i

/-- 43_varbyte R167, 60_exceptions R204: DVAR whose varint `k` leaves BYTE, or whose element `k` lies outside ELEM, raises
that E_ACCESS, after the elements before it were written. -/
def Obligations.DvarFaultsAtTheExtents : Prop :=
  ∀ (s : State) (pos : Nat → Nat) (d : Nat → BitVec s.inst.W) (k : Nat) (r : Raise), s.Sound → s.first < s.last →
    k < s.len → (k = 0 ∨ s.first + k ≤ s.inst.elemSize) → pos 0 = s.byteAt →
    (∀ i < k, ∃ n, varDecode s.inst (pos i) s.mem = .ok (d i, n) ∧ pos (i + 1) = pos i + n) →
    (varDecode s.inst (pos k) s.mem = .error r ∨
      ((∃ x, varDecode s.inst (pos k) s.mem = .ok x) ∧ s.inst.elemSize ≤ s.first + k ∧
        r = .access .elem (s.first + k))) →
    ∃ m, exec .dvar s = .next (s.raise r m) ∧ m = { s.mem with elem := m.elem } ∧
      m.cells .elem s.inst.W k s.first = undelta s.seed ((List.range k).map d) ∧
      ∀ i, i < s.first ∨ s.first + k ≤ i → m.cell .elem i = s.mem.cell .elem i

/-- 43_varbyte R168: DVAR over what CVAR has appended, with the same carry, count and BPTR, gives back the source elements
and ends with the same RES, CARRY and BPTR; each element takes 1 to KMAX bytes; two CVAR commands over adjacent ranges
write what one over the joined range writes. -/
def Obligations.VariableByteCodecRoundTrips : Prop :=
  (∀ (s t : State) (dst : Nat), s.Sound → s.faulted = false → s.first ≤ s.last → exec .cvar s = .next t →
    t.faulted = false → dst + s.len < 2 ^ s.inst.idxw → (s.len = 0 ∨ dst + s.len ≤ s.inst.elemSize) →
    s.len ≤ t.res.toNat ∧ t.res.toNat ≤ s.inst.kmax * s.len ∧
    ∃ v, exec .dvar { t with
        carry := s.carry, bptr := s.bptr, eptr := BitVec.ofNat 64 dst, eend := BitVec.ofNat 64 (dst + s.len) } =
        .next v ∧
      v.faulted = false ∧ v.res = t.res ∧ v.carry = t.carry ∧ v.bptr = t.bptr ∧
      v.mem.cells .elem s.inst.W s.len dst = s.elements ∧
      ∀ i, i < dst ∨ dst + s.len ≤ i → v.mem.cell .elem i = s.mem.cell .elem i) ∧
  ∀ (s t u : State) (mid : Nat), s.Sound → s.faulted = false → s.first ≤ mid → mid ≤ s.last →
    exec .cvar { s with eend := BitVec.ofNat 64 mid } = .next t → t.faulted = false →
    exec .cvar { t with eptr := BitVec.ofNat 64 mid, eend := s.eend } = .next u → u.faulted = false →
    ∃ v, exec .cvar s = .next v ∧ v.faulted = false ∧ v.mem = u.mem ∧ v.carry = u.carry ∧ v.bptr = u.bptr ∧
      v.res.toNat = t.res.toNat + u.res.toNat
end

