-- ==== Sys2Proof/Laws/State.lean ====
section
/-! SUPPORT. What each field is after each update of a state. -/

namespace Sys2Proof.Machine

open Sys2Proof

/-! ## Taking a fault -/

@[simp] theorem State.raise_inst (r : Raise) (m : Spaces) (s : State) : (s.raise r m).inst = s.inst := rfl
@[simp] theorem State.raise_status (r : Raise) (m : Spaces) (s : State) :
    (s.raise r m).status = faultStatus r.cause r.spaceCode := rfl
@[simp] theorem State.raise_finfo (r : Raise) (m : Spaces) (s : State) : (s.raise r m).finfo = r.info := rfl
@[simp] theorem State.raise_res (r : Raise) (m : Spaces) (s : State) : (s.raise r m).res = s.res := rfl
@[simp] theorem State.raise_carry (r : Raise) (m : Spaces) (s : State) : (s.raise r m).carry = s.carry := rfl
@[simp] theorem State.raise_val (r : Raise) (m : Spaces) (s : State) : (s.raise r m).val = s.val := rfl
@[simp] theorem State.raise_eptr (r : Raise) (m : Spaces) (s : State) : (s.raise r m).eptr = s.eptr := rfl
@[simp] theorem State.raise_eend (r : Raise) (m : Spaces) (s : State) : (s.raise r m).eend = s.eend := rfl
@[simp] theorem State.raise_wptr (r : Raise) (m : Spaces) (s : State) : (s.raise r m).wptr = s.wptr := rfl
@[simp] theorem State.raise_bptr (r : Raise) (m : Spaces) (s : State) : (s.raise r m).bptr = s.bptr := rfl
@[simp] theorem State.raise_mem (r : Raise) (m : Spaces) (s : State) : (s.raise r m).mem = m := rfl
@[simp] theorem State.raise_script (r : Raise) (m : Spaces) (s : State) : (s.raise r m).script = s.script := rfl
@[simp] theorem State.raise_rdata (r : Raise) (m : Spaces) (s : State) : (s.raise r m).rdata = s.rdata := rfl

/-! ## The commit of a command -/

@[simp] theorem State.commit_inst (r : Results) (m : Spaces) (s : State) : (s.commit r m).inst = s.inst := rfl
@[simp] theorem State.commit_status (r : Results) (m : Spaces) (s : State) :
    (s.commit r m).status = clearBusy s.status := rfl
@[simp] theorem State.commit_finfo (r : Results) (m : Spaces) (s : State) : (s.commit r m).finfo = s.finfo := rfl
@[simp] theorem State.commit_res (r : Results) (m : Spaces) (s : State) :
    (s.commit r m).res = truncTo (s.inst.idxw + 1) r.res := rfl
@[simp] theorem State.commit_carry (r : Results) (m : Spaces) (s : State) :
    (s.commit r m).carry = r.carry.getD s.carry := rfl
@[simp] theorem State.commit_val (r : Results) (m : Spaces) (s : State) : (s.commit r m).val = r.val.getD s.val := rfl
@[simp] theorem State.commit_eptr (r : Results) (m : Spaces) (s : State) : (s.commit r m).eptr = s.eptr := rfl
@[simp] theorem State.commit_eend (r : Results) (m : Spaces) (s : State) : (s.commit r m).eend = s.eend := rfl
@[simp] theorem State.commit_wptr (r : Results) (m : Spaces) (s : State) : (s.commit r m).wptr = s.wptr := rfl
@[simp] theorem State.commit_bptr (r : Results) (m : Spaces) (s : State) :
    (s.commit r m).bptr = (r.bptr.map (truncTo s.inst.idxw)).getD s.bptr := rfl
@[simp] theorem State.commit_mem (r : Results) (m : Spaces) (s : State) : (s.commit r m).mem = m := rfl
@[simp] theorem State.commit_script (r : Results) (m : Spaces) (s : State) : (s.commit r m).script = s.script := rfl
@[simp] theorem State.commit_rdata (r : Results) (m : Spaces) (s : State) : (s.commit r m).rdata = s.rdata := rfl

/-! ## The start of a command -/

@[simp] theorem State.begin_inst (s : State) : s.begin.inst = s.inst := rfl
@[simp] theorem State.begin_status (s : State) : s.begin.status = setBusy s.status := rfl
@[simp] theorem State.begin_finfo (s : State) : s.begin.finfo = s.finfo := rfl
@[simp] theorem State.begin_res (s : State) : s.begin.res = s.res := rfl
@[simp] theorem State.begin_carry (s : State) : s.begin.carry = s.carry := rfl
@[simp] theorem State.begin_val (s : State) : s.begin.val = s.val := rfl
@[simp] theorem State.begin_eptr (s : State) : s.begin.eptr = s.eptr := rfl
@[simp] theorem State.begin_eend (s : State) : s.begin.eend = s.eend := rfl
@[simp] theorem State.begin_wptr (s : State) : s.begin.wptr = s.wptr := rfl
@[simp] theorem State.begin_bptr (s : State) : s.begin.bptr = s.bptr := rfl
@[simp] theorem State.begin_mem (s : State) : s.begin.mem = s.mem := rfl
@[simp] theorem State.begin_script (s : State) : s.begin.script = s.script := rfl
@[simp] theorem State.begin_rdata (s : State) : s.begin.rdata = s.rdata := rfl

/-! ## Reset -/

@[simp] theorem State.applyReset_inst (s : State) : s.applyReset.inst = s.inst := rfl
@[simp] theorem State.applyReset_status (s : State) : s.applyReset.status = 0 := rfl
@[simp] theorem State.applyReset_finfo (s : State) : s.applyReset.finfo = 0 := rfl
@[simp] theorem State.applyReset_res (s : State) : s.applyReset.res = 0 := rfl
@[simp] theorem State.applyReset_carry (s : State) : s.applyReset.carry = 0 := rfl
@[simp] theorem State.applyReset_val (s : State) : s.applyReset.val = 0 := rfl
@[simp] theorem State.applyReset_eptr (s : State) : s.applyReset.eptr = 0 := rfl
@[simp] theorem State.applyReset_eend (s : State) : s.applyReset.eend = 0 := rfl
@[simp] theorem State.applyReset_wptr (s : State) : s.applyReset.wptr = 0 := rfl
@[simp] theorem State.applyReset_bptr (s : State) : s.applyReset.bptr = 0 := rfl
@[simp] theorem State.applyReset_mem (s : State) : s.applyReset.mem = s.mem := rfl
@[simp] theorem State.applyReset_script (s : State) : s.applyReset.script = s.script := rfl
@[simp] theorem State.applyReset_rdata (s : State) : s.applyReset.rdata = s.rdata := rfl

/-! ## The host's write of a register -/

@[simp] theorem State.writeReg_inst (s : State) (r : Reg) (v : BitVec 64) : (s.writeReg r v).inst = s.inst := by
  cases r <;> rfl
@[simp] theorem State.writeReg_status (s : State) (r : Reg) (v : BitVec 64) : (s.writeReg r v).status = s.status := by
  cases r <;> rfl
@[simp] theorem State.writeReg_finfo (s : State) (r : Reg) (v : BitVec 64) : (s.writeReg r v).finfo = s.finfo := by
  cases r <;> rfl
@[simp] theorem State.writeReg_res (s : State) (r : Reg) (v : BitVec 64) : (s.writeReg r v).res = s.res := by
  cases r <;> rfl
@[simp] theorem State.writeReg_mem (s : State) (r : Reg) (v : BitVec 64) : (s.writeReg r v).mem = s.mem := by
  cases r <;> rfl
@[simp] theorem State.writeReg_script (s : State) (r : Reg) (v : BitVec 64) : (s.writeReg r v).script = s.script := by
  cases r <;> rfl
@[simp] theorem State.writeReg_rdata (s : State) (r : Reg) (v : BitVec 64) : (s.writeReg r v).rdata = s.rdata := by
  cases r <;> rfl

/-! ## BUSY -/

@[simp] theorem State.busy_begin (s : State) : s.begin.busy = true := by
  simp [State.busy, setBusy]

@[simp] theorem State.faulted_begin (s : State) : s.begin.faulted = s.faulted := by
  simp [State.faulted, setBusy]

theorem clearBusy_getLsbD (st : BitVec 32) (i : Nat) : (clearBusy st).getLsbD i = (st.getLsbD i && i != 0) := by
  unfold clearBusy
  rw [BitVec.getLsbD_and]
  by_cases h : i < 32
  · have : ∀ j < 32, (0xFFFFFFFE#32).getLsbD j = (j != 0) := by decide
    rw [this i h]
  · simp [BitVec.getLsbD_of_ge _ _ (Nat.le_of_not_lt h)]

/-- STATUS of an idle core is not changed by clearing BUSY, nor by setting BUSY and clearing it. -/
theorem clearBusy_of_idle {s : State} (h : s.busy = false) : clearBusy s.status = s.status := by
  refine BitVec.eq_of_getLsbD_eq fun i hi => ?_
  rw [clearBusy_getLsbD]
  rcases i with _ | i
  · simpa [State.busy] using h.symm
  · simp

theorem clearBusy_setBusy (st : BitVec 32) : clearBusy (setBusy st) = clearBusy st := by
  refine BitVec.eq_of_getLsbD_eq fun i hi => ?_
  rw [clearBusy_getLsbD, clearBusy_getLsbD]
  rcases i with _ | i
  · simp
  · simp [setBusy, BitVec.getLsbD_one]

/-- What a state is whose run has ended: it has committed or it has taken a fault. -/
theorem Run.finish_next {s t : State} {x : Run Results} (h : Run.finish s x = .next t) :
    (∃ r m, x = .done r m ∧ t = s.commit r m) ∨ (∃ r m, x = .raised r m ∧ t = s.raise r m) := by
  cases x with
  | done r m => exact .inl ⟨r, m, rfl, by injection h with h; exact h.symm⟩
  | raised r m => exact .inr ⟨r, m, rfl, by injection h with h; exact h.symm⟩

@[simp] theorem Run.finish_done (s : State) (r : Results) (m : Spaces) :
    Run.finish s (.done r m) = .next (s.commit r m) := rfl

@[simp] theorem Run.finish_raised (s : State) (r : Raise) (m : Spaces) :
    Run.finish s (.raised r m) = .next (s.raise r m) := rfl

end Sys2Proof.Machine
end

