-- ==== Sys2Proof/Laws/Memory.lean ====
section
/-! SUPPORT. Reads and writes of a space's contents, and the canonical form. -/

namespace Sys2Proof.Machine

open Sys2Proof

variable {n : Nat}

/-- A cell below the first listed index is not listed. -/
theorem Memory.read_of_lt (m : Memory n) (i : Nat) (h : ∀ c ∈ m, i < c.1) : Memory.read m i = Memory.unlisted n := by
  induction m with
  | nil => rfl
  | cons c t ih =>
    have hc : i < c.1 := h c (by simp)
    rw [Memory.read, if_neg (by omega)]
    exact ih fun d hd => h d (by simp [hd])

/-- A write leaves every other cell alone. -/
theorem Memory.read_write_other (m : Memory n) {i k : Nat} (v : BitVec n) (h : k ≠ i) :
    Memory.read (Memory.write m i v) k = Memory.read m k := by
  induction m with
  | nil => unfold Memory.write; split <;> simp [Memory.read, h]
  | cons c t ih =>
    obtain ⟨j, u⟩ := c
    unfold Memory.write
    split
    · split <;> simp [Memory.read, h]
    · split
      · rename_i hij; subst hij
        split <;> simp [Memory.read, h]
      · simp [Memory.read, ih]

/-- A read after a write gives the value written. -/
theorem Memory.read_write_same (m : Memory n) (i : Nat) (v : BitVec n) (h : Memory.wf m) :
    Memory.read (Memory.write m i v) i = v := by
  induction m with
  | nil => unfold Memory.write; split <;> simp_all [Memory.read]
  | cons c t ih =>
    obtain ⟨j, u⟩ := c
    obtain ⟨hp, hn⟩ := h
    rw [List.pairwise_cons] at hp
    unfold Memory.write
    split
    · rename_i hij
      split
      · rename_i hv
        rw [Memory.read_of_lt _ _ fun d hd => ?_, hv]
        rcases List.mem_cons.1 hd with rfl | hd
        · exact hij
        · exact Nat.lt_trans hij (hp.1 d hd)
      · simp [Memory.read]
    · split
      · rename_i hij; subst hij
        split
        · rename_i hv
          rw [Memory.read_of_lt _ _ fun d hd => hp.1 d hd, hv]
        · simp [Memory.read]
      · rename_i hij
        rw [Memory.read, if_neg hij]
        exact ih ⟨hp.2, fun d hd => hn d (by simp [hd])⟩

/-- What is listed after a write was listed before, or is the cell written. -/
theorem Memory.mem_write {m : Memory n} {i : Nat} {v : BitVec n} {c : Nat × BitVec n}
    (h : c ∈ Memory.write m i v) : c ∈ m ∨ (c = (i, v) ∧ v ≠ Memory.unlisted n) := by
  induction m with
  | nil =>
    unfold Memory.write at h
    split at h
    · simp at h
    · rename_i hv; exact .inr ⟨by simpa using h, hv⟩
  | cons d t ih =>
    obtain ⟨j, u⟩ := d
    unfold Memory.write at h
    split at h
    · split at h
      · exact .inl h
      · rename_i hv
        rcases List.mem_cons.1 h with h | h
        · exact .inr ⟨h, hv⟩
        · exact .inl h
    · split at h
      · split at h
        · exact .inl (List.mem_cons_of_mem _ h)
        · rename_i hv
          rcases List.mem_cons.1 h with h | h
          · exact .inr ⟨h, hv⟩
          · exact .inl (List.mem_cons_of_mem _ h)
      · rcases List.mem_cons.1 h with h | h
        · exact .inl (by simp [h])
        · rcases ih h with h | h
          · exact .inl (List.mem_cons_of_mem _ h)
          · exact .inr h

/-- A write keeps the canonical form. -/
theorem Memory.write_wf {m : Memory n} (i : Nat) (v : BitVec n) (h : Memory.wf m) : Memory.wf (Memory.write m i v) := by
  refine ⟨?_, fun c hc => ?_⟩
  · induction m with
    | nil => unfold Memory.write; split <;> simp
    | cons c t ih =>
      obtain ⟨j, u⟩ := c
      obtain ⟨hp, hn⟩ := h
      have hp' := List.pairwise_cons.1 hp
      unfold Memory.write
      split
      · rename_i hij
        split
        · exact hp
        · refine List.pairwise_cons.2 ⟨fun d hd => ?_, hp⟩
          rcases List.mem_cons.1 hd with rfl | hd
          · exact hij
          · exact Nat.lt_trans hij (hp'.1 d hd)
      · split
        · rename_i hij; subst hij
          split
          · exact hp'.2
          · exact List.pairwise_cons.2 ⟨hp'.1, hp'.2⟩
        · refine List.pairwise_cons.2 ⟨fun d hd => ?_, ih ⟨hp'.2, fun e he => hn e (by simp [he])⟩⟩
          rcases Memory.mem_write hd with hd | ⟨rfl, -⟩
          · exact hp'.1 d hd
          · simp only; omega
  · rcases Memory.mem_write hc with hc | ⟨rfl, hv⟩
    · exact h.2 c hc
    · exact hv

/-- A write below the extent of a value that fits keeps what `within` says. -/
theorem Memory.write_within {m : Memory n} {extent bits i : Nat} {v : BitVec n} (h : Memory.within m extent bits)
    (hi : i < extent) (hv : v.toNat < 2 ^ bits) : Memory.within (Memory.write m i v) extent bits := by
  refine ⟨Memory.write_wf i v h.1, fun c hc => ?_⟩
  rcases Memory.mem_write hc with hc | ⟨rfl, -⟩
  · exact h.2 c hc
  · exact ⟨hi, hv⟩

/-- A cell of a possible space holds a value of the cell's width. -/
theorem Memory.read_lt {m : Memory n} {extent bits : Nat} (h : Memory.within m extent bits) (i : Nat) :
    (Memory.read m i).toNat < 2 ^ bits := by
  obtain ⟨-, h⟩ := h
  induction m with
  | nil => simp [Memory.read, Memory.unlisted]
  | cons c t ih =>
    rw [Memory.read]
    split
    · exact (h c (by simp)).2
    · exact ih fun d hd => h d (by simp [hd])

/-! ## The three spaces -/

/-- A write leaves every other cell of every space alone (20_memory R53). -/
theorem Spaces.cell_setCell_other (m : Spaces) {sp sp' : Space} {i k : Nat} (v : BitVec 64)
    (h : sp' ≠ sp ∨ k ≠ i) : (m.setCell sp i v).cell sp' k = m.cell sp' k := by
  cases sp <;> cases sp' <;> simp_all [Spaces.setCell, Spaces.cell, Memory.read_write_other]

@[simp] theorem Spaces.setCell_elem_word (m : Spaces) (i : Nat) (v : BitVec 64) : (m.setCell .elem i v).word = m.word := rfl
@[simp] theorem Spaces.setCell_elem_byte (m : Spaces) (i : Nat) (v : BitVec 64) : (m.setCell .elem i v).byte = m.byte := rfl
@[simp] theorem Spaces.setCell_word_elem (m : Spaces) (i : Nat) (v : BitVec 64) : (m.setCell .word i v).elem = m.elem := rfl
@[simp] theorem Spaces.setCell_word_byte (m : Spaces) (i : Nat) (v : BitVec 64) : (m.setCell .word i v).byte = m.byte := rfl
@[simp] theorem Spaces.setCell_byte_elem (m : Spaces) (i : Nat) (v : BitVec 64) : (m.setCell .byte i v).elem = m.elem := rfl
@[simp] theorem Spaces.setCell_byte_word (m : Spaces) (i : Nat) (v : BitVec 64) : (m.setCell .byte i v).word = m.word := rfl

/-- A read after a write to the same cell gives the value written. -/
theorem Spaces.cell_setCell_same {m : Spaces} {p : Instance} (h : m.within p) (sp : Space) (i : Nat) {v : BitVec 64}
    (hv : v.toNat < 2 ^ cellBitsOf p sp) : (m.setCell sp i v).cell sp i = v := by
  obtain ⟨⟨he, -⟩, ⟨hw, -⟩, ⟨hb, -⟩⟩ := h
  cases sp with
  | elem => exact Memory.read_write_same _ _ _ he
  | word => exact Memory.read_write_same _ _ _ hw
  | byte =>
    simp only [Spaces.setCell, Spaces.cell, Memory.read_write_same _ _ _ hb]
    apply BitVec.eq_of_toNat_eq
    simp only [cellBitsOf] at hv
    simp only [BitVec.toNat_setWidth]
    rw [Nat.mod_eq_of_lt hv, Nat.mod_eq_of_lt (by omega)]

/-- A write below the extent of a value that fits its cell keeps the spaces possible. -/
theorem Spaces.setCell_within {m : Spaces} {p : Instance} (h : m.within p) {sp : Space} {i : Nat} {v : BitVec 64}
    (hi : i < extentOf p sp) (hv : v.toNat < 2 ^ cellBitsOf p sp) : (m.setCell sp i v).within p := by
  obtain ⟨he, hw, hb⟩ := h
  cases sp with
  | elem => exact ⟨Memory.write_within he hi hv, hw, hb⟩
  | word => exact ⟨he, Memory.write_within hw hi hv, hb⟩
  | byte =>
    refine ⟨he, hw, Memory.write_within hb hi ?_⟩
    simp only [cellBitsOf] at hv
    simp only [BitVec.toNat_setWidth]
    omega

/-- A cell holds a value of its width. -/
theorem Spaces.cell_lt {m : Spaces} {p : Instance} (h : m.within p) (sp : Space) (i : Nat) :
    (m.cell sp i).toNat < 2 ^ cellBitsOf p sp := by
  obtain ⟨he, hw, hb⟩ := h
  cases sp with
  | elem => exact Memory.read_lt he i
  | word => exact Memory.read_lt hw i
  | byte =>
    have := Memory.read_lt hb i
    simp only [Spaces.cell, cellBitsOf, BitVec.toNat_setWidth]
    omega

/-- The spaces right after reset are possible. -/
theorem State.reset_within : State.reset.mem.within State.reset.inst := by decide

end Sys2Proof.Machine
end

