-- ==== Sys2Proof/Laws/Ops.lean ====
section
/-! SUPPORT. Everything the shared operations over the spaces can do: one access, a run of reads, a run of writes, and
how runs follow one another. -/

namespace Sys2Proof.Machine

open Sys2Proof

variable {p : Instance} {sp : Space} {w : Nat}

/-! ## One access -/

theorem memRead_of_lt {i : Nat} (m : Spaces) (h : i < extentOf p sp) : memRead p sp i m = .ok (m.cell sp i) := by
  rw [memRead, if_neg (by omega)]

theorem memRead_of_ge {i : Nat} (m : Spaces) (h : extentOf p sp ≤ i) :
    memRead p sp i m = .error (.access sp i) := by
  rw [memRead, if_pos h]

theorem memWrite_of_lt {i : Nat} (v : BitVec 64) (m : Spaces) (h : i < extentOf p sp) :
    memWrite p sp i v m = .ok (m.setCell sp i v) := by
  rw [memWrite, if_neg (by omega)]

theorem memWrite_of_ge {i : Nat} (v : BitVec 64) (m : Spaces) (h : extentOf p sp ≤ i) :
    memWrite p sp i v m = .error (.access sp i) := by
  rw [memWrite, if_pos h]

/-! ## Runs -/

/-- The spaces as a run leaves them. -/
def Run.mem {α : Type} : Run α → Spaces
  | .done _ m => m
  | .raised _ m => m

@[simp] theorem Run.mem_done {α : Type} (a : α) (m : Spaces) : (Run.done a m).mem = m := rfl
@[simp] theorem Run.mem_raised {α : Type} (r : Raise) (m : Spaces) : (Run.raised (α := α) r m).mem = m := rfl

@[simp] theorem Run.bind_done {α β : Type} (a : α) (m : Spaces) (k : α → Spaces → Run β) :
    (Run.done a m).bind k = k a m := rfl
@[simp] theorem Run.bind_raised {α β : Type} (r : Raise) (m : Spaces) (k : α → Spaces → Run β) :
    (Run.raised r m).bind k = .raised r m := rfl
@[simp] theorem Run.get_ok {α β : Type} (a : α) (m : Spaces) (k : α → Run β) : Run.get (.ok a) m k = k a := rfl
@[simp] theorem Run.get_error {α β : Type} (r : Raise) (m : Spaces) (k : α → Run β) :
    Run.get (.error r) m k = .raised r m := rfl

/-- Two runs, one after the other, complete exactly when both do. -/
theorem Run.bind_eq_done {α β : Type} {x : Run α} {k : α → Spaces → Run β} {b : β} {m : Spaces} :
    x.bind k = .done b m ↔ ∃ a m', x = .done a m' ∧ k a m' = .done b m := by
  cases x <;> simp

/-- Two runs, one after the other, raise what the first raises, or what the second raises after it. -/
theorem Run.bind_eq_raised {α β : Type} {x : Run α} {k : α → Spaces → Run β} {r : Raise} {m : Spaces} :
    x.bind k = .raised r m ↔ x = .raised r m ∨ ∃ a m', x = .done a m' ∧ k a m' = .raised r m := by
  cases x <;> simp

theorem Run.get_eq_done {α β : Type} {x : Except Raise α} {m m' : Spaces} {k : α → Run β} {b : β} :
    Run.get x m k = .done b m' ↔ ∃ a, x = .ok a ∧ k a = .done b m' := by
  cases x <;> simp

theorem Run.get_eq_raised {α β : Type} {x : Except Raise α} {m m' : Spaces} {k : α → Run β} {r : Raise} :
    Run.get x m k = .raised r m' ↔ (x = .error r ∧ m = m') ∨ ∃ a, x = .ok a ∧ k a = .raised r m' := by
  cases x <;> simp

/-- What every way a run can go keeps, two runs one after the other keep. -/
theorem Run.bind_keeps {α β : Type} (P : Spaces → Prop) {x : Run α} {k : α → Spaces → Run β} (hx : P x.mem)
    (hk : ∀ a m, P m → P (k a m).mem) : P (x.bind k).mem := by
  cases x with
  | done a m => exact hk a m hx
  | raised r m => exact hx

theorem Run.get_keeps {α β : Type} (P : Spaces → Prop) {x : Except Raise α} {m : Spaces} {k : α → Run β} (hx : P m)
    (hk : ∀ a, P (k a).mem) : P (Run.get x m k).mem := by
  cases x with
  | ok a => exact hk a
  | error r => exact hx

@[simp] theorem Except.bind_ok {ε α β : Type} (a : α) (k : α → Except ε β) : (Except.ok a).bind k = k a := rfl
@[simp] theorem Except.bind_error {ε α β : Type} (r : ε) (k : α → Except ε β) :
    (Except.error r : Except ε α).bind k = .error r := rfl

/-! ## A run of reads -/

@[simp] theorem Spaces.cells_length (m : Spaces) (sp : Space) (w n i : Nat) : (m.cells sp w n i).length = n := by
  simp [Spaces.cells]

@[simp] theorem Spaces.cells_getElem (m : Spaces) (sp : Space) (w n i j : Nat) (h : j < (m.cells sp w n i).length) :
    (m.cells sp w n i)[j] = (m.cell sp (i + j)).setWidth w := by
  simp [Spaces.cells]

theorem Spaces.cells_succ (m : Spaces) (sp : Space) (w n i : Nat) :
    m.cells sp w (n + 1) i = (m.cell sp i).setWidth w :: m.cells sp w n (i + 1) := by
  simp [Spaces.cells, List.range_succ_eq_map, Nat.add_assoc, Nat.add_comm 1, Function.comp_def]

/-- Reads inside the extent give the cells. -/
theorem readCells_ok (m : Spaces) : ∀ {n i : Nat}, i + n ≤ extentOf p sp →
    readCells p sp w n i m = .ok (m.cells sp w n i)
  | 0, i, _ => by simp [readCells, Spaces.cells]
  | n + 1, i, h => by
    rw [readCells, memRead_of_lt m (by omega), Except.bind_ok, readCells_ok m (n := n) (by omega), Except.bind_ok,
      Spaces.cells_succ]

/-- Reads that leave the extent raise E_ACCESS at the first index outside (60_exceptions R206). -/
theorem readCells_error (m : Spaces) : ∀ {n i : Nat}, 0 < n → extentOf p sp < i + n →
    readCells p sp w n i m = .error (.access sp (max i (extentOf p sp)))
  | n + 1, i, _, h => by
    rw [readCells]
    rcases Nat.lt_or_ge i (extentOf p sp) with hi | hi
    · rw [memRead_of_lt m hi, Except.bind_ok, readCells_error m (n := n) (by omega) (by omega), Except.bind_error]
      congr 2
      omega
    · rw [memRead_of_ge m hi, Except.bind_error, Nat.max_eq_left hi]

/-! ## A run of writes -/

/-- The spaces with the values `vs` in the cells of `sp` from index `i` on. -/
def Spaces.store (sp : Space) : List (BitVec w) → Nat → Spaces → Spaces
  | [], _, m => m
  | v :: vs, i, m => Spaces.store sp vs (i + 1) (m.setCell sp i (v.setWidth 64))

/-- Writes inside the extent store the values. -/
theorem writeCells_done : ∀ {vs : List (BitVec w)} {i : Nat} (m : Spaces), i + vs.length ≤ extentOf p sp →
    writeCells p sp vs i m = .done () (m.store sp vs i)
  | [], _, _, _ => rfl
  | v :: vs, i, m, h => by
    rw [List.length_cons] at h
    rw [writeCells, memWrite_of_lt _ m (by omega), Run.get_ok, writeCells_done _ (by omega), Spaces.store]

/-- Writes that leave the extent raise E_ACCESS at the first index outside; the values below it are stored
(60_exceptions R204). -/
theorem writeCells_raised : ∀ {vs : List (BitVec w)} {i : Nat} (m : Spaces), vs ≠ [] →
    extentOf p sp < i + vs.length →
    writeCells p sp vs i m =
      .raised (.access sp (max i (extentOf p sp))) (m.store sp (vs.take (extentOf p sp - i)) i)
  | v :: vs, i, m, _, h => by
    rw [List.length_cons] at h
    rw [writeCells]
    rcases Nat.lt_or_ge i (extentOf p sp) with hi | hi
    · have hvs : vs ≠ [] := by rintro rfl; simp at h; omega
      rw [memWrite_of_lt _ m hi, Run.get_ok, writeCells_raised _ hvs (by omega)]
      obtain ⟨d, hd⟩ : ∃ d, extentOf p sp - i = d + 1 := ⟨extentOf p sp - i - 1, by omega⟩
      rw [hd, List.take_succ_cons, Spaces.store, show extentOf p sp - (i + 1) = d by omega]
      congr 2
      omega
    · rw [memWrite_of_ge _ m hi, Run.get_error, Nat.max_eq_left hi, Nat.sub_eq_zero_of_le hi, List.take_zero]
      rfl

/-- What every write of a cell keeps, a run of writes keeps, however it ends. -/
theorem writeCells_keeps (P : Spaces → Prop) : ∀ (vs : List (BitVec w)) (i : Nat) (m : Spaces), P m →
    (∀ v ∈ vs, ∀ j m', j < extentOf p sp → P m' → P (m'.setCell sp j (v.setWidth 64))) →
    P (writeCells p sp vs i m).mem
  | [], _, _, h, _ => h
  | v :: vs, i, m, h, hk => by
    rw [writeCells]
    rcases Nat.lt_or_ge i (extentOf p sp) with hi | hi
    · rw [memWrite_of_lt _ m hi, Run.get_ok]
      exact writeCells_keeps P vs (i + 1) _ (hk v (by simp) i m hi h) fun u hu => hk u (by simp [hu])
    · rw [memWrite_of_ge _ m hi]
      exact h

/-- A value of `w` bits fits a cell of at least `w` bits. -/
theorem setWidth_toNat_lt {w b : Nat} (v : BitVec w) (h : w ≤ b) : (v.setWidth 64).toNat < 2 ^ b := by
  rw [BitVec.toNat_setWidth]
  exact Nat.lt_of_le_of_lt (Nat.mod_le _ _) (Nat.lt_of_lt_of_le v.isLt (Nat.pow_le_pow_right (by decide) h))

/-- Writes of values of a cell's width keep the spaces possible, however the run ends. -/
theorem writeCells_within (vs : List (BitVec w)) (i : Nat) {m : Spaces} (h : m.within p) (hw : w ≤ cellBitsOf p sp) :
    (writeCells p sp vs i m).mem.within p :=
  writeCells_keeps (·.within p) vs i m h fun v _ _ _ hj hm => Spaces.setCell_within hm hj (setWidth_toNat_lt v hw)

theorem Spaces.store_append (vs us : List (BitVec w)) : ∀ (i : Nat) (m : Spaces),
    m.store sp (vs ++ us) i = (m.store sp vs i).store sp us (i + vs.length) := by
  induction vs with
  | nil => intro i m; rfl
  | cons v vs ih =>
    intro i m
    rw [List.cons_append, Spaces.store, ih, Spaces.store, List.length_cons, show i + 1 + vs.length = i + (vs.length + 1) by omega]

/-- Storing leaves every other cell of every space alone. -/
theorem Spaces.cell_store_other : ∀ (vs : List (BitVec w)) {sp' : Space} {i k : Nat} (m : Spaces),
    (sp' ≠ sp ∨ k < i ∨ i + vs.length ≤ k) → (m.store sp vs i).cell sp' k = m.cell sp' k
  | [], _, _, _, _, _ => rfl
  | v :: vs, sp', i, k, m, h => by
    rw [List.length_cons] at h
    rw [Spaces.store, Spaces.cell_store_other vs _ (h.imp_right fun h => by omega), Spaces.cell_setCell_other]
    exact h.imp_right fun h => by omega

theorem Spaces.store_within : ∀ (vs : List (BitVec w)) {i : Nat} {m : Spaces}, m.within p →
    i + vs.length ≤ extentOf p sp → w ≤ cellBitsOf p sp → (m.store sp vs i).within p
  | [], _, _, h, _, _ => h
  | v :: vs, i, m, h, hi, hw => by
    rw [List.length_cons] at hi
    exact Spaces.store_within vs (Spaces.setCell_within h (by omega) (setWidth_toNat_lt v hw)) (by omega) hw

/-- A cell stored to holds the value stored. -/
theorem Spaces.cell_store_same : ∀ (vs : List (BitVec w)) {i : Nat} {m : Spaces}, m.within p →
    i + vs.length ≤ extentOf p sp → w ≤ cellBitsOf p sp → ∀ {j : Nat} (hj : j < vs.length),
    (m.store sp vs i).cell sp (i + j) = vs[j].setWidth 64
  | v :: vs, i, m, h, hi, hw, 0, _ => by
    rw [List.length_cons] at hi
    rw [Spaces.store, Spaces.cell_store_other vs _ (by omega)]
    exact Spaces.cell_setCell_same h sp i (setWidth_toNat_lt v hw)
  | v :: vs, i, m, h, hi, hw, j + 1, hj => by
    rw [List.length_cons] at hi hj
    rw [Spaces.store, show i + (j + 1) = i + 1 + j by omega]
    rw [Spaces.cell_store_same vs (Spaces.setCell_within h (by omega) (setWidth_toNat_lt v hw)) (by omega) hw
      (j := j) (by omega)]
    simp

@[simp] theorem Spaces.store_word_elem (vs : List (BitVec w)) : ∀ (i : Nat) (m : Spaces), (m.store .word vs i).elem = m.elem := by
  induction vs with
  | nil => intros; rfl
  | cons v vs ih => intros; rw [Spaces.store, ih]; rfl
@[simp] theorem Spaces.store_word_byte (vs : List (BitVec w)) : ∀ (i : Nat) (m : Spaces), (m.store .word vs i).byte = m.byte := by
  induction vs with
  | nil => intros; rfl
  | cons v vs ih => intros; rw [Spaces.store, ih]; rfl
@[simp] theorem Spaces.store_elem_word (vs : List (BitVec w)) : ∀ (i : Nat) (m : Spaces), (m.store .elem vs i).word = m.word := by
  induction vs with
  | nil => intros; rfl
  | cons v vs ih => intros; rw [Spaces.store, ih]; rfl
@[simp] theorem Spaces.store_elem_byte (vs : List (BitVec w)) : ∀ (i : Nat) (m : Spaces), (m.store .elem vs i).byte = m.byte := by
  induction vs with
  | nil => intros; rfl
  | cons v vs ih => intros; rw [Spaces.store, ih]; rfl
@[simp] theorem Spaces.store_byte_elem (vs : List (BitVec w)) : ∀ (i : Nat) (m : Spaces), (m.store .byte vs i).elem = m.elem := by
  induction vs with
  | nil => intros; rfl
  | cons v vs ih => intros; rw [Spaces.store, ih]; rfl
@[simp] theorem Spaces.store_byte_word (vs : List (BitVec w)) : ∀ (i : Nat) (m : Spaces), (m.store .byte vs i).word = m.word := by
  induction vs with
  | nil => intros; rfl
  | cons v vs ih => intros; rw [Spaces.store, ih]; rfl

/-- Storing the values the cells hold already in another memory makes the cells read as those values. -/
theorem Spaces.cells_store_same {vs : List (BitVec w)} {i : Nat} {m : Spaces} (h : m.within p)
    (hi : i + vs.length ≤ extentOf p sp) (hw : w ≤ cellBitsOf p sp) (h64 : w ≤ 64) :
    (m.store sp vs i).cells sp w vs.length i = vs := by
  refine List.ext_getElem (by simp) fun j h1 h2 => ?_
  rw [Spaces.cells_getElem, Spaces.cell_store_same vs h hi hw h2]
  apply BitVec.eq_of_toNat_eq
  simp only [BitVec.toNat_setWidth]
  have := vs[j].isLt
  have h' : 2 ^ w ≤ 2 ^ 64 := Nat.pow_le_pow_right (by decide) h64
  rw [Nat.mod_eq_of_lt (a := vs[j].toNat) (by omega), Nat.mod_eq_of_lt this]

/-- Runs of cells agree where the cells agree. -/
theorem Spaces.cells_congr {m m' : Spaces} {n i : Nat} (h : ∀ j, i ≤ j → j < i + n → m'.cell sp j = m.cell sp j) :
    m'.cells sp w n i = m.cells sp w n i := by
  refine List.ext_getElem (by simp) fun j h1 h2 => ?_
  rw [Spaces.cells_getElem, Spaces.cells_getElem, h (i + j) (by omega) (by simp at h1; omega)]

/-! ## Truncation -/

@[simp] theorem truncTo_toNat {n : Nat} (v : Nat) (h : n ≤ 64) : (truncTo n v).toNat = v % 2 ^ n := by
  rw [truncTo, BitVec.toNat_ofNat]
  exact Nat.mod_eq_of_lt (Nat.lt_of_lt_of_le (Nat.mod_lt _ (Nat.two_pow_pos n)) (Nat.pow_le_pow_right (by decide) h))

/-- A truncated value fits. -/
theorem truncTo_fits (n v : Nat) : fitsIn n (truncTo n v) := by
  rw [fitsIn, truncTo, BitVec.toNat_ofNat]
  exact Nat.lt_of_le_of_lt (Nat.mod_le _ _) (Nat.mod_lt _ (Nat.two_pow_pos n))

/-- Truncation leaves a value that fits. -/
theorem truncTo_of_lt {n v : Nat} (h : v < 2 ^ n) : truncTo n v = BitVec.ofNat 64 v := by
  rw [truncTo, Nat.mod_eq_of_lt h]

/-- W is 32 or 64 (00_scope R6). -/
theorem Instance.W_cases (p : Instance) : p.W = 32 ∨ p.W = 64 := by
  obtain ⟨w, _, _, _, _⟩ := p
  cases w
  · exact .inl rfl
  · exact .inr rfl

end Sys2Proof.Machine
end

