-- ==== Sys2Proof/Laws/Codec.lean ====
section
/-! SUPPORT. Small facts about the pure functions of the codec: lengths, and what each is of an empty and of a longer
list. -/

namespace Sys2Proof.Machine

open Sys2Proof

variable {w : Nat}

@[simp] theorem deltas_nil (c : BitVec w) : deltas c [] = [] := rfl
@[simp] theorem deltas_cons (c e : BitVec w) (es : List (BitVec w)) : deltas c (e :: es) = (e - c) :: deltas e es := rfl
@[simp] theorem undelta_nil (c : BitVec w) : undelta c [] = [] := rfl
@[simp] theorem undelta_cons (c d : BitVec w) (ds : List (BitVec w)) :
    undelta c (d :: ds) = (c + d) :: undelta (c + d) ds := rfl

@[simp] theorem deltas_length (c : BitVec w) (e : List (BitVec w)) : (deltas c e).length = e.length := by
  induction e generalizing c with
  | nil => rfl
  | cons x xs ih => simp [ih]

@[simp] theorem undelta_length (c : BitVec w) (d : List (BitVec w)) : (undelta c d).length = d.length := by
  induction d generalizing c with
  | nil => rfl
  | cons x xs ih => simp [ih]

@[simp] theorem carryAfter_nil (c : BitVec w) : carryAfter c [] = c := rfl

@[simp] theorem carryAfter_cons (c e : BitVec w) (es : List (BitVec w)) : carryAfter c (e :: es) = carryAfter e es := by
  cases es <;> rfl

theorem carryAfter_append (c : BitVec w) (e f : List (BitVec w)) :
    carryAfter c (e ++ f) = carryAfter (carryAfter c e) f := by
  induction e generalizing c with
  | nil => rfl
  | cons x xs ih => simp [ih]

theorem deltas_append (c : BitVec w) (e f : List (BitVec w)) :
    deltas c (e ++ f) = deltas c e ++ deltas (carryAfter c e) f := by
  induction e generalizing c with
  | nil => rfl
  | cons x xs ih => simp [ih]

theorem orAll_cons (d : BitVec w) (ds : List (BitVec w)) : orAll (d :: ds) = d ||| orAll ds := by
  have h : ∀ (ds : List (BitVec w)) (x : BitVec w), ds.foldl (· ||| ·) x = x ||| ds.foldl (· ||| ·) 0 := by
    intro ds
    induction ds with
    | nil => simp
    | cons y ys ih =>
      intro x
      rw [List.foldl_cons, ih, List.foldl_cons, ih (0 ||| y)]
      simp [BitVec.or_assoc]
  rw [orAll, List.foldl_cons, h]
  simp [orAll]

@[simp] theorem unpackLoop_length (b : Nat) : ∀ (n : Nat) (ws : List (BitVec w)) (off : Nat),
    (unpackLoop b n ws off).length = n
  | 0, _, _ => rfl
  | n + 1, ws, off => by
    simp only [unpackLoop, List.length_cons]
    split <;> rw [unpackLoop_length b n]

@[simp] theorem unpackBits_length (ws : List (BitVec w)) (b : Nat) : (unpackBits ws b).length = w := by
  simp [unpackBits]

/-- An unpacked block has W elements (41_bitpack R125). -/
theorem unpackBlock_length (c : BitVec w) (ws : List (BitVec w)) (b : Nat) (h : ws.length = b) :
    (unpackBlock c ws b).length = w := by
  unfold unpackBlock
  split
  · simp
  · split
    · omega
    · simp

@[simp] theorem groupWidths_length (c : BitVec w) (es : List (List (BitVec w))) :
    (groupWidths c es).length = es.length := by
  induction es generalizing c with
  | nil => rfl
  | cons e es ih => simp [groupWidths, ih]

/-- The header of one block is its width (42_block_driver R141). -/
@[simp] theorem header_singleton (b : Nat) : header [b] = b := by simp [header]

@[simp] theorem varEncode_length (kmax : Nat) (v : BitVec w) :
    (varEncode kmax v).length = varLen kmax v - 1 + 1 := by
  simp [varEncode]

/-- A varint has at least one byte and at most KMAX (43_varbyte R160). -/
theorem varLen_le (kmax : Nat) (h : 1 ≤ kmax) (v : BitVec w) : 1 ≤ varLen kmax v ∧ varLen kmax v ≤ kmax := by
  unfold varLen
  cases hf : (List.range' 1 (kmax - 1)).find? fun j => v >>> (7 * j) == 0 with
  | none => exact ⟨h, Nat.le_refl _⟩
  | some j =>
    have := List.mem_of_find?_eq_some hf
    rw [List.mem_range'] at this
    obtain ⟨i, hi, rfl⟩ := this
    simp only [Option.getD_some]
    omega

end Sys2Proof.Machine
end

