-- ==== Sys2Proof/Laws/Frame.lean ====
section
/-! SUPPORT. What the loops of the commands keep, however they end: everything that a write of one cell of the space they
write keeps. -/

namespace Sys2Proof.Machine

open Sys2Proof

variable {p : Instance} {sp : Space} {P : Spaces → Prop}

/-- Every write of a value that fits to a cell of `sp` that exists keeps `P`. -/
def KeptBy (p : Instance) (sp : Space) (P : Spaces → Prop) : Prop :=
  ∀ (v : BitVec 64) (j : Nat) (m : Spaces), v.toNat < 2 ^ cellBitsOf p sp → j < extentOf p sp → P m →
    P (m.setCell sp j v)

/-- Writes keep the spaces possible. -/
theorem keptBy_within : KeptBy p sp (·.within p) := fun _ _ _ hv hj hm => Spaces.setCell_within hm hj hv

/-- Writes to one space leave the cells of another alone. -/
theorem keptBy_cell {sp' : Space} (h : sp' ≠ sp) (k : Nat) (x : BitVec 64) :
    KeptBy p sp fun m => m.cell sp' k = x :=
  fun v _ m _ _ hm => (Spaces.cell_setCell_other m v (.inl h)).trans hm

/-- Writes to WORD leave ELEM and BYTE as they are. -/
theorem keptBy_word (m₀ : Spaces) : KeptBy p .word fun m => m.elem = m₀.elem ∧ m.byte = m₀.byte :=
  fun _ _ _ _ _ hm => hm

/-- Writes to ELEM leave WORD and BYTE as they are. -/
theorem keptBy_elem (m₀ : Spaces) : KeptBy p .elem fun m => m.word = m₀.word ∧ m.byte = m₀.byte :=
  fun _ _ _ _ _ hm => hm

/-- Writes to BYTE leave ELEM and WORD as they are. -/
theorem keptBy_byte (m₀ : Spaces) : KeptBy p .byte fun m => m.elem = m₀.elem ∧ m.word = m₀.word :=
  fun _ _ _ _ _ hm => hm

theorem writeCells_kept {w : Nat} (hk : KeptBy p sp P) (hw : w ≤ cellBitsOf p sp) (vs : List (BitVec w)) (i : Nat)
    {m : Spaces} (h : P m) : P (writeCells p sp vs i m).mem :=
  writeCells_keeps P vs i m h fun v _ _ _ hj hm => hk _ _ _ (setWidth_toNat_lt v hw) hj hm

theorem packBlocks_kept (hk : KeptBy p .word P) : ∀ (es : List (List (BitVec p.W) × Nat)) (c : BitVec p.W) (q : Nat)
    (m : Spaces), P m → P (packBlocks p c es q m).mem
  | [], _, _, _, h => h
  | (e, b) :: rest, c, q, m, h => by
    rw [packBlocks]
    exact Run.get_keeps P h fun out => Run.bind_keeps P (writeCells_kept hk (Nat.le_refl _) out q h)
      fun _ m' h' => packBlocks_kept hk rest _ _ m' h'

theorem compressGroup_kept (hk : KeptBy p .word P) (k i q : Nat) (c : BitVec p.W) (m : Spaces) (h : P m) :
    P (compressGroup p k i q c m).mem := by
  rw [compressGroup]
  exact Run.get_keeps P h fun es => Run.bind_keeps P (writeCells_kept hk (Nat.le_refl _) _ q h)
    fun _ m' h' => packBlocks_kept hk _ _ _ m' h'

theorem compressGroups_kept (hk : KeptBy p .word P) (k : Nat) : ∀ (n i q : Nat) (c : BitVec p.W) (m : Spaces), P m →
    P (compressGroups p k n i q c m).mem
  | 0, _, _, _, _, h => h
  | n + 1, i, q, c, m, h => by
    rw [compressGroups]
    exact Run.bind_keeps P (compressGroup_kept hk k i q c m h) fun _ m' h' => compressGroups_kept hk k n _ _ _ m' h'

theorem unpackBlocks_kept (hk : KeptBy p .elem P) : ∀ (bs : List Nat) (i r : Nat) (c : BitVec p.W) (m : Spaces), P m →
    P (unpackBlocks p bs i r c m).mem
  | [], _, _, _, _, h => h
  | b :: bs, i, r, c, m, h => by
    rw [unpackBlocks]
    split
    · exact h
    · exact Run.get_keeps P h fun ws => Run.bind_keeps P (writeCells_kept hk (Nat.le_refl _) _ i h)
        fun _ m' h' => unpackBlocks_kept hk bs _ _ _ m' h'

theorem decompressGroup_kept (hk : KeptBy p .elem P) (k i r : Nat) (c : BitVec p.W) (m : Spaces) (h : P m) :
    P (decompressGroup p k i r c m).mem := by
  rw [decompressGroup]
  exact Run.get_keeps P h fun _ => unpackBlocks_kept hk _ _ _ _ m h

theorem decompressGroups_kept (hk : KeptBy p .elem P) (k : Nat) : ∀ (n i r : Nat) (c : BitVec p.W) (m : Spaces), P m →
    P (decompressGroups p k n i r c m).mem
  | 0, _, _, _, _, h => h
  | n + 1, i, r, c, m, h => by
    rw [decompressGroups]
    exact Run.bind_keeps P (decompressGroup_kept hk k i r c m h) fun _ m' h' => decompressGroups_kept hk k n _ _ _ m' h'

theorem cvarLoop_kept (hk : KeptBy p .byte P) : ∀ (n i a : Nat) (c : BitVec p.W) (m : Spaces), P m →
    P (cvarLoop p n i a c m).mem
  | 0, _, _, _, _, h => h
  | n + 1, i, a, c, m, h => by
    rw [cvarLoop]
    exact Run.get_keeps P h fun x => Run.bind_keeps P (writeCells_kept hk (Nat.le_refl _) _ a h)
      fun _ m' h' => cvarLoop_kept hk n _ _ _ m' h'

theorem dvarLoop_kept (hk : KeptBy p .elem P) : ∀ (n i a : Nat) (c : BitVec p.W) (m : Spaces), P m →
    P (dvarLoop p n i a c m).mem
  | 0, _, _, _, _, h => h
  | n + 1, i, a, c, m, h => by
    rw [dvarLoop]
    refine Run.get_keeps P h fun x => ?_
    rcases Nat.lt_or_ge i (extentOf p .elem) with hi | hi
    · rw [memWrite_of_lt _ m hi, Run.get_ok]
      exact dvarLoop_kept hk n _ _ _ _ (hk _ _ _ (setWidth_toNat_lt _ (Nat.le_refl _)) hi h)
    · rw [memWrite_of_ge _ m hi]
      exact h

end Sys2Proof.Machine
end

