-- ==== Sys2Proof/Laws/PerInstr.lean ====
section
/-! SUPPORT. The fields of the word of each well-formed command (30_encoding R81, R82): the operation code, the width
operand in field B, and zero in field Z. -/

namespace Sys2Proof.Laws.Fields

open Sys2Proof

/-- The fields of the word of `i`. -/
def Statement (i : Instr) : Prop :=
  i.wf = true →
    (opField (encode i)).toNat = i.op ∧ (bField (encode i)).toNat = i.widthOperand ∧ zField (encode i) = 0#21

theorem est : Statement .est := fun _ => ⟨rfl, rfl, rfl⟩

theorem pack (b : Nat) : Statement (.pack b) := fun h => by
  have hb : b < 128 := by simpa [Instr.wf, widthFits, Nat.lt_succ_iff] using h
  clear h
  revert b
  decide +kernel

theorem unpack (b : Nat) : Statement (.unpack b) := fun h => by
  have hb : b < 128 := by simpa [Instr.wf, widthFits, Nat.lt_succ_iff] using h
  clear h
  revert b
  decide +kernel

theorem cint : Statement .cint := fun _ => ⟨rfl, rfl, rfl⟩

theorem dint : Statement .dint := fun _ => ⟨rfl, rfl, rfl⟩

theorem cap : Statement .cap := fun _ => ⟨rfl, rfl, rfl⟩

theorem cvar : Statement .cvar := fun _ => ⟨rfl, rfl, rfl⟩

theorem dvar : Statement .dvar := fun _ => ⟨rfl, rfl, rfl⟩

theorem wrvar : Statement .wrvar := fun _ => ⟨rfl, rfl, rfl⟩

theorem rdvar : Statement .rdvar := fun _ => ⟨rfl, rfl, rfl⟩

end Sys2Proof.Laws.Fields
end

