-- ==== Sys2Proof/Tests/Slice0.lean ====
section
/-! SUPPORT. Small tests with expected results from the spec, and a witness for the hypotheses of every statement. -/

namespace Sys2Proof.Tests

open Sys2Proof Sys2Proof.Machine

/-! ## Helpers -/

def isNext : Host.Outcome State Fault Refusal → Bool
  | .next _ => true
  | _ => false

def after : Host.Outcome State Fault Refusal → State
  | .next s => s
  | _ => State.reset

theorem eq_next {o : Host.Outcome State Fault Refusal} (h : isNext o = true) : o = .next (after o) := by
  cases o <;> simp_all [isNext, after]

/-- Cells `base ...` holding `f 0, f 1, ...`. -/
def cellsOf {k : Nat} (base n : Nat) (f : Nat → Nat) : Memory k :=
  (List.range n).map fun j => (base + j, BitVec.ofNat k (f j))

/-- A core after reset with given spaces. -/
def core32 (elem word : Memory 64) (byte : Memory 8) : State :=
  State.powerUp Config.standard { elem := elem, word := word, byte := byte }

def core64 (elem word : Memory 64) (byte : Memory 8) : State :=
  State.powerUp { Config.standard with width := .w64 } { elem := elem, word := word, byte := byte }

/-- A W = 32 core with 32 elements 1 to 32, so all deltas against CARRY = 0 are 1. -/
def ramp : State := core32 (cellsOf 0 32 (· + 1)) [] []

/-- A W = 32 core with the packed stream of `ramp` and with one varint, 300, then the bytes of 43_varbyte R166's
example. -/
def packed : State :=
  core32 [] [(0, 1#64), (1, 0xFFFFFFFF#64)]
    [(0, 0xAC#8), (1, 0x02#8), (2, 0x01#8), (3, 0xD3#8), (4, 0xFD#8), (5, 0xFF#8), (6, 0x07#8)]

/-! ## Well-formedness and decoding -/

theorem test_wf_refuses_pack_128 : (Instr.pack 128).wf = false := by decide
theorem test_wf_refuses_unpack_128 : (Instr.unpack 128).wf = false := by decide
theorem test_wf_accepts_pack_127 : (Instr.pack 127).wf = true := by decide

/-- 30_encoding R85, the words bit by bit. -/
theorem test_decode_est : decode 0b00000000000000000000000000000001#32 = .ok .est := by decide
theorem test_decode_pack : decode 0b00000000000000000000000001010010#32 = .ok (.pack 5) := by decide
theorem test_decode_unpack : decode 0b00000000000000000000000111110011#32 = .ok (.unpack 31) := by decide
theorem test_decode_cint : decode 0b00000000000000000000000000000100#32 = .ok .cint := by decide
theorem test_decode_dint : decode 0b00000000000000000000000000000101#32 = .ok .dint := by decide
theorem test_decode_cap : decode 0b00000000000000000000000000000110#32 = .ok .cap := by decide
theorem test_decode_cvar : decode 0b00000000000000000000000000001000#32 = .ok .cvar := by decide
theorem test_decode_dvar : decode 0b00000000000000000000000000001001#32 = .ok .dvar := by decide
theorem test_decode_wrvar : decode 0b00000000000000000000000000001010#32 = .ok .wrvar := by decide
theorem test_decode_rdvar : decode 0b00000000000000000000000000001011#32 = .ok .rdvar := by decide
/-- 95_test_vectors V7. -/
theorem test_decode_cint_with_b : decode 0x00000014#32 = .error .bNotZero := by decide
theorem test_decode_bit_11 : decode 0x00000802#32 = .error .zNotZero := by decide
theorem test_decode_zero : decode 0x00000000#32 = .error .reservedOp := by decide
theorem test_decodeTableWord : decodeTableWord 32 0x403 = some (.unpack 64) := by decide

/-! ## Commands -/

/-- 95_test_vectors V1: c = FFFFFFFF, all elements 0, gives 1; W = 64, c = 1, all 0, gives 64. -/
theorem test_est_wraps : (after (exec .est { core32 [] [] [] with carry := 0xFFFFFFFF#64 })).res = 1 := by decide
theorem test_est_64 : (after (exec .est { core64 [] [] [] with carry := 1#64 })).res = 64 := by decide +kernel

/-- 95_test_vectors V2.2, first and last word. -/
theorem test_pack_5 :
    let t := after (exec (.pack 5) { core32 (cellsOf 0 32 fun j => 1000 + j * (j + 1) / 2) [] [] with carry := 1000#64 })
    t.mem.word.map (·.2) = [0x8A418820#64, 0xC5A92839#64, 0xCA307B9A#64, 0x38BDAB49#64, 0xFFBBCDEB#64] ∧ t.carry = 1496 := by
  decide +kernel
/-- 95_test_vectors V2.3: delta 16 does not fit in 4 bits. -/
theorem test_pack_overflow :
    let t := after (exec (.pack 4) { core32 (cellsOf 0 32 fun j => 1000 + j * (j + 1) / 2) [] [] with carry := 1000#64 })
    t.status = 0x052#32 ∧ t.finfo = 16 ∧ t.mem.word = [] := by
  decide +kernel

/-- 95_test_vectors V2.10. -/
theorem test_unpack_2 :
    let t := after (exec (.unpack 2) { core32 [] [(0, 0xA5A5A5A5#64), (1, 0x0F0F0F0F#64)] [] with carry := 10#64 })
    (t.mem.elem.map (·.2.toNat)).take 9 = [11, 12, 14, 16, 17, 18, 20, 22, 23] ∧ t.carry = 58 := by
  decide +kernel
/-- 95_test_vectors V2.11. -/
theorem test_unpack_127 :
    (after (exec (.unpack 127) State.reset)).status = 0x022#32 ∧
      (after (exec (.unpack 127) State.reset)).finfo = 127 := by decide

/-- 42_block_driver R142: a lone block takes a header, here 1, and its payload, here 32 deltas of one bit. -/
theorem test_cint_lone_block :
    (after (exec .cint { ramp with eend := 32#64 })).mem.word = [(0, 1#64), (1, 0xFFFFFFFF#64)] := by decide +kernel
/-- 42_block_driver R142 corner case (a): 31 elements are no block. -/
theorem test_cint_short :
    (after (exec .cint { ramp with eend := 31#64 })).mem.word = [] ∧
      (after (exec .cint { ramp with eend := 31#64 })).res = 0 := by decide

theorem test_dint_lone_block :
    (after (exec .dint { packed with eend := 32#64 })).mem.elem = cellsOf 0 32 (· + 1) := by decide +kernel
/-- 95_test_vectors P7: block 1 is written, block 2 has width 33. -/
theorem test_dint_bad_width :
    let t := after (exec .dint { core32 [] [(0, 0x01210000#64), (1, 0xFFFFFFFE#64)] [] with eend := 128#64 })
    t.status = 0x022#32 ∧ t.finfo = 33 ∧ t.res = 0 ∧ t.mem.elem.length = 31 := by decide +kernel

/-- 95_test_vectors V4. -/
theorem test_cap_160 : (after (exec .cap { State.reset with eend := 160#64 })).res = 162 := by decide
theorem test_cap_33_bits :
    (after (exec .cap { State.reset with eend := 4294967295#64 })).res = 4328521698 := by decide

/-- 95_test_vectors S3. -/
theorem test_cvar_300 :
    (after (exec .cvar { core32 [(0, 300#64), (1, 301#64), (2, 16777216#64)] [] [] with eend := 3#64 })).mem.byte =
      packed.mem.byte := by decide +kernel
theorem test_dvar_300 :
    let t := after (exec .dvar { packed with eend := 3#64 })
    t.mem.elem = [(0, 300#64), (1, 301#64), (2, 16777216#64)] ∧ t.bptr = 7 ∧ t.carry = 16777216 := by decide +kernel

/-- 95_test_vectors V5.3: 2^63 takes nine bytes, the last with bit 7 set. -/
theorem test_wrvar_63 :
    (after (exec .wrvar { core64 [] [] [] with val := 0x8000000000000000#64 })).mem.byte = cellsOf 0 9 fun _ => 0x80 := by
  decide +kernel
theorem test_wrvar_300 :
    (after (exec .wrvar { State.reset with val := 300#64 })).mem.byte = [(0, 0xAC#8), (1, 0x02#8)] := by decide
/-- 95_test_vectors V5.4: bits 7:4 of the fifth byte are dropped. -/
theorem test_rdvar_last_byte :
    let t := after (exec .rdvar (core32 [] [] [(0, 0x80#8), (1, 0x80#8), (2, 0x80#8), (3, 0x80#8), (4, 0xFF#8)]))
    t.val = 0xF0000000#64 ∧ t.res = 5 := by decide +kernel
theorem test_rdvar_end_of_byte :
    (after (exec .rdvar { State.reset with bptr := 1024#64 })).status = 0x342#32 ∧
      (after (exec .rdvar { State.reset with bptr := 1024#64 })).finfo = 1024 := by decide

/-! ## The host -/

/-- 95_test_vectors V7: after E_OPCODE STATUS is 0x012 and FINFO the word. -/
theorem test_step_illegal :
    (after (step (State.reset.withFetchWord 32 0x14))).status = 0x012#32 ∧
      (after (step (State.reset.withFetchWord 32 0x14))).finfo = 0x14 := by decide
/-- 95_test_vectors P4: `wr CARRY, 5` is ignored after a fault. -/
theorem test_step_faulted :
    (after (step { State.reset with status := 0x22#32, carry := 9#64, script := [.regWrite 4 5#64] })).carry = 9 := by
  decide
theorem test_step_idle : step State.reset = .next State.reset := rfl

/-! ## Every constructor's word runs as the first command after reset -/

theorem test_first_command :
    ∀ w ∈ [0x1, 0x2, 0x3, 0x4, 0x6, 0x8, 0x9, 0xA, 0xB],
      (after (step (State.reset.withFetchWord 32 w))).status = 0#32 := by decide +kernel
/-- 42_block_driver R146: with EEND = 0 DINT raises E_DEGEN. -/
theorem test_first_dint : (after (step (State.reset.withFetchWord 32 0x5))).status = 0x032#32 := by decide

/-! ## Witnesses: states and operands that meet the hypotheses of each statement -/

theorem witness_DecodeTableWords : ∃ s : State, s.inst.width = .w32 := ⟨State.reset, rfl⟩

theorem witness_IllegalWordRaisesOpcodeFault :
    State.reset.Accepting ∧ decode 0x0#32 = .error .reservedOp ∧ decode 0x7#32 = .error .reservedOp ∧
      decode 0xC#32 = .error .reservedOp ∧ decode 0x11#32 = .error .bNotZero ∧ decode 0x801#32 = .error .zNotZero := by
  decide

theorem witness_DecodeOfEncode : (Instr.pack 127).wf = true ∧ Instr.rdvar.wf = true := by decide

theorem witness_EncodeOfDecode : decode 0x7F3#32 = .ok (.unpack 127) ∧ decode 0xB#32 = .ok .rdvar := by decide

theorem witness_StepRunsDecodedCommand :
    State.reset.Accepting ∧ decode ((0x1#64).setWidth 32) = .ok .est ∧ decodeTableWord 32 0x7F2 = some (.pack 127) ∧
      ({ State.reset with script := [.reset] } : State).script = [HostOp.reset] ∧ State.reset.script = [] := by decide

theorem witness_HostRegisterAccess :
    ({ State.reset with status := 0x12#32 } : State).faulted = true ∧
      ({ State.reset with status := 0x1#32 } : State).busy = true ∧ State.reset.Accepting ∧ (10 : Fin 16).val = 10 ∧
      decode 0x4#32 = .ok .cint := by decide

theorem witness_HostReachesCellsWhenIdle :
    State.reset.Sound ∧ State.reset.busy = false ∧ 1023 < extentOf State.reset.inst .byte ∧
      (255#64).toNat < 2 ^ cellBitsOf State.reset.inst .byte := by decide

theorem witness_ResetIsWellFormed :
    (core64 (cellsOf 0 3 fun _ => 2 ^ 64 - 1) [] []).inst.legal = true ∧
      (core64 (cellsOf 0 3 fun _ => 2 ^ 64 - 1) [] []).mem.within (core64 [] [] []).inst := by decide

theorem witness_StepKeepsWellFormed :
    State.Wf (ramp.withFetchWord 32 1) ∧ ∃ t, step (ramp.withFetchWord 32 1) = .next t :=
  ⟨by decide, _, eq_next (by decide +kernel)⟩

theorem witness_StepKeepsParameters : ∃ s t : State, step s = .next t := ⟨State.reset, State.reset, rfl⟩

theorem witness_CommandLeavesCoreIdle :
    State.reset.Accepting ∧ ∃ t, hostStep (.regWrite 0 6) State.reset = .next t ∧ t.faulted = false :=
  ⟨by decide, _, eq_next (by decide), by decide⟩

/-- Well-formed states with no step, a step that completes, and a step on a cell that does not exist. -/
theorem witness_StepStopsOnlyOutsideExtents :
    State.reset.Wf ∧ State.Wf { State.reset with script := [.cellRead .word 1024] } ∧
      step { State.reset with script := [.cellRead .word 1024] } = .fault (.hostOutOfExtent .word 1024) :=
  ⟨by decide, by decide, rfl⟩

theorem witness_FaultStaysUntilReset :
    let s : State := { State.reset with status := 0x12#32 }
    s.faulted = true ∧ (∃ t, hostStep (.cellWrite .word 0 1) s = .next t) ∧ ∃ t, hostStep .reset s = .next t :=
  ⟨by decide, ⟨_, rfl⟩, _, rfl⟩

/-- A faulting run of each cause the clauses name: E_DEGEN, E_OVERFLOW, E_WIDTH of PACK, and E_ACCESS after writes. -/
theorem witness_FaultingCommandKeepsRegisters :
    State.reset.faulted = false ∧
      (after (exec .dint State.reset)).faulted = true ∧ (after (exec .dint State.reset)).cause = 3 ∧
      (after (exec (.pack 0) ramp)).cause = 5 ∧ (after (exec (.pack 33) ramp)).cause = 2 ∧
      (after (exec .wrvar { State.reset with val := 300#64, bptr := 1023#64 })).cause = 4 := by decide +kernel

theorem witness_CommandsRaiseOnlyTheirCauses :
    State.reset.faulted = false ∧ (after (exec .dint State.reset)).faulted = true ∧
      exec .dint State.reset = .next (after (exec .dint State.reset)) :=
  ⟨by decide, by decide, eq_next (by decide)⟩

theorem witness_DegenerateRangesFault :
    (let s : State := { State.reset with eptr := 1#64 }; s.last < s.first) ∧ State.reset.last = 0 ∧
      (let s : State := { State.reset with eptr := 32#64, eend := 32#64 }; s.last ≤ s.first) ∧
      (let s : State := { State.reset with eend := 40#64 }; (s.last - s.first) % s.inst.W ≠ 0) := by decide

/-- A run, and the cells just below and just above its destination, with one inside. -/
theorem witness_CommandsWriteOnlyTheirState :
    let s : State := { State.reset with wptr := 1#64 }
    (∃ t, exec (.pack 0) s = .next t) ∧ 0 < (s.destination (.pack 2)).1 ∧ (s.destination (.pack 2)).2 ≤ 3 ∧
      ¬ (2 < (s.destination (.pack 2)).1 ∨ (s.destination (.pack 2)).2 ≤ 2) :=
  ⟨⟨_, eq_next (by decide +kernel)⟩, by decide, by decide, by decide⟩

theorem witness_CommandsIgnoreUnnamedRegisters :
    Reg.val ∈ [Reg.carry, .val, .eptr, .eend, .wptr, .bptr] ∧ Reg.val ∉ registersUsed .cint := by decide

theorem witness_AccessReadsAndWritesOneCell :
    ramp.mem.within ramp.inst ∧ (0xFFFFFFFF#64).toNat < 2 ^ cellBitsOf ramp.inst .elem ∧
      extentOf ramp.inst .elem ≤ 1024 ∧ 1023 < extentOf ramp.inst .elem := by decide

theorem witness_EstimateIsTheLeastWidth : 0 < 32 ∧ (List.replicate 32 0#32).length = 32 := by decide

theorem witness_EstCompletes :
    (let s : State := { ramp with eptr := 992#64 }; s.Sound ∧ s.first + s.inst.W ≤ s.inst.elemSize) ∧
      (core64 [] [] []).Sound ∧ (core64 [] [] []).first + (core64 [] [] []).inst.W ≤ (core64 [] [] []).inst.elemSize := by
  decide

theorem witness_EstFaultsOutsideElem :
    (let s : State := { ramp with eptr := 993#64 }; s.inst.elemSize < s.first + s.inst.W) := by decide

theorem witness_PackedLayoutIsContiguous :
    (List.replicate 32 1#32).length = 32 ∧ 1 ≤ 31 ∧ 31 < 32 ∧ ∀ x ∈ List.replicate 32 1#32, x.toNat < 2 ^ 31 :=
  ⟨rfl, by decide, by decide, fun x hx => by rw [List.eq_of_mem_replicate hx]; decide⟩

theorem witness_UnpackBitsInvertsPackBits :
    1 ≤ 1 ∧ 1 < 32 ∧ [0xFFFFFFFE#32].length = 1 ∧ (List.replicate 32 1#32).length = 32 ∧
      ∀ x ∈ List.replicate 32 1#32, x.toNat < 2 ^ 1 :=
  ⟨by decide, by decide, rfl, rfl, fun x hx => by rw [List.eq_of_mem_replicate hx]; decide⟩

theorem witness_BlockRoundTrips :
    (List.replicate 32 1#32).length = 32 ∧ blockWidth 0#32 (List.replicate 32 1#32) ≤ 1 ∧ 1 ≤ 32 ∧
      ramp.first + ramp.inst.W ≤ ramp.inst.elemSize ∧ 0 < blockWidth ramp.seed ramp.block := by decide +kernel

theorem ramp_deltas : deltas ramp.seed ramp.block = List.replicate 32 1#32 := by
  show deltas (w := 32) ramp.seed ramp.block = _
  decide +kernel

theorem reset_deltas : deltas State.reset.seed State.reset.block = List.replicate 32 0#32 := by
  show deltas (w := 32) State.reset.seed State.reset.block = _
  decide +kernel

/-- Widths 1, W = 32 with WPTR at the last place that fits, and 0 with WPTR at the extent. -/
theorem witness_PackCompletes :
    (ramp.Sound ∧ 1 ≤ ramp.inst.W ∧ ramp.first + ramp.inst.W ≤ ramp.inst.elemSize ∧
      (∀ d ∈ deltas ramp.seed ramp.block, d.toNat < 2 ^ 1) ∧ ramp.wordAt + 1 ≤ ramp.inst.wordSize) ∧
    (let s : State := { ramp with wptr := 992#64 }; s.Sound ∧ s.wordAt + s.inst.W ≤ s.inst.wordSize) ∧
    (State.Sound { State.reset with wptr := 1024#64 } ∧
      ∀ d ∈ deltas State.reset.seed State.reset.block, d.toNat < 2 ^ 0) := by
  refine ⟨⟨by decide, by decide, by decide, fun d hd => ?_, by decide⟩, by decide, by decide, fun d hd => ?_⟩
  · rw [ramp_deltas] at hd; rw [List.eq_of_mem_replicate hd]; decide
  · rw [reset_deltas] at hd; rw [List.eq_of_mem_replicate hd]; decide

theorem witness_PackFaultsInOrder :
    ramp.inst.W < 33 ∧ (let s : State := { ramp with eptr := 993#64 }; s.inst.elemSize < s.first + s.inst.W) ∧
      (0 < ramp.inst.W ∧ 2 ^ 0 ≤ ((deltas ramp.seed ramp.block).getD 0 0).toNat) ∧
      (let s : State := { ramp with wptr := 993#64 }; s.Sound ∧ s.first + s.inst.W ≤ s.inst.elemSize ∧
        0 < s.inst.W ∧ s.inst.wordSize < s.wordAt + s.inst.W) := by decide +kernel

theorem witness_UnpackCompletes :
    (packed.Sound ∧ 1 ≤ packed.inst.W ∧ packed.wordAt + 1 ≤ packed.inst.wordSize ∧
      packed.first + packed.inst.W ≤ packed.inst.elemSize) ∧
    (let s : State := { packed with wptr := 992#64, eptr := 992#64 };
      s.Sound ∧ s.wordAt + s.inst.W ≤ s.inst.wordSize ∧ s.first + s.inst.W ≤ s.inst.elemSize) := by decide

theorem witness_UnpackFaultsInOrder :
    packed.inst.W < 33 ∧ (let s : State := { packed with wptr := 1024#64 }; 0 < 1 ∧ s.inst.wordSize < s.wordAt + 1) ∧
      (let s : State := { packed with eptr := 1000#64 };
        s.Sound ∧ s.wordAt + 1 ≤ s.inst.wordSize ∧ s.inst.elemSize < s.first + s.inst.W) := by decide

theorem witness_HeaderHoldsOneBytePerBlock :
    [1, 0, 5, 32].length = Config.standard.G ∧ (∀ b ∈ [1, 0, 5, 32], b ≤ Config.standard.W) ∧
      3 < Config.standard.G := by decide

/-- A range of one block, and an empty range with WPTR outside WORD. -/
theorem witness_CintWritesPackedStream :
    (let s : State := { ramp with eend := 32#64 };
      s.Sound ∧ s.first ≤ s.last ∧ s.first + s.blocks * s.inst.W ≤ s.inst.elemSize ∧ 0 < s.blocks ∧
        s.wordAt + s.stream.length ≤ s.inst.wordSize) ∧
    (let s : State := { ramp with wptr := 2000#64 }; s.Sound ∧ s.first ≤ s.last ∧ s.blocks = 0) := by decide +kernel

/-- All of the range inside ELEM and the stream past WORD; the third tail block outside ELEM, with the two before it
in WORD, and with the second past it; and the first block outside ELEM with WPTR past WORD. -/
theorem witness_CintFaultsAtTheExtents :
    (let s : State := { ramp with eend := 32#64, wptr := 1023#64 };
      s.Sound ∧ s.first ≤ s.last ∧ 0 < s.blocks ∧ s.first + s.blocks * s.inst.W ≤ s.inst.elemSize ∧
        s.streamInside ≠ [] ∧ s.inst.wordSize < s.wordAt + s.streamInside.length) ∧
    (let s : State := { ramp with eptr := 960#64, eend := 1056#64, wptr := 1022#64 };
      s.Sound ∧ s.first ≤ s.last ∧ 0 < s.blocks ∧ s.inst.elemSize < s.first + s.blocks * s.inst.W ∧
        s.streamInside ≠ [] ∧ s.wordAt + s.streamInside.length ≤ s.inst.wordSize) ∧
    (let s : State := { ramp with eptr := 960#64, eend := 1056#64, wptr := 1023#64 };
      s.Sound ∧ s.first ≤ s.last ∧ 0 < s.blocks ∧ s.streamInside ≠ [] ∧
        s.inst.wordSize < s.wordAt + s.streamInside.length) ∧
    (let s : State := { ramp with eptr := 1000#64, eend := 1032#64, wptr := 2000#64 };
      s.Sound ∧ s.first ≤ s.last ∧ 0 < s.blocks ∧ s.inst.elemSize < s.first + s.blocks * s.inst.W ∧
        s.streamInside = []) := by
  refine ⟨?_, ?_, ?_, ?_⟩ <;> decide +kernel

/-- A run of CINT that completes. -/
theorem witness_cint_completed :
    let s : State := { ramp with eend := 32#64 }
    s.Sound ∧ s.faulted = false ∧ s.first < s.last ∧ s.len % s.inst.W = 0 ∧
      ∃ t, exec .cint s = .next t ∧ t.faulted = false :=
  ⟨by decide, by decide, by decide, by decide, _, eq_next (by decide +kernel), by decide +kernel⟩

theorem witness_CintLengthIsHeadersPlusWidths :
    ∃ s t : State, s.Sound ∧ s.faulted = false ∧ exec .cint s = .next t ∧ t.faulted = false :=
  ⟨_, _, witness_cint_completed.1, witness_cint_completed.2.1, eq_next (by decide +kernel), by decide +kernel⟩

/-- The first range is one megablock, the second one tail block. -/
theorem witness_CintStreamsWholeMegablocks :
    let s : State := { State.reset with eend := 160#64 }
    let t : State := after (exec .cint { s with eend := BitVec.ofNat 64 128 })
    s.Sound ∧ s.faulted = false ∧ s.first ≤ 128 ∧ 128 ≤ s.last ∧ (128 - s.first) % (s.inst.G * s.inst.W) = 0 ∧
      t.faulted = false ∧ (after (exec .cint { t with
        eptr := BitVec.ofNat 64 128, eend := s.eend, wptr := BitVec.ofNat 64 (s.wordAt + t.res.toNat) })).faulted =
        false := by decide +kernel

theorem witness_DintCompletes :
    let s : State := { packed with eend := 32#64 }
    s.Sound ∧ s.first < s.last ∧ s.len % s.inst.W = 0 ∧ s.last ≤ s.inst.elemSize ∧
      (∀ x ∈ s.payloadList, x.2 ≤ s.inst.W) ∧ s.streamEnd ≤ s.inst.wordSize := by decide +kernel

/-- 95_test_vectors P7: the second block of a megablock; and the first block of a range. -/
theorem witness_DintFaultsAtTheFirstBadWidth :
    (let s : State := { core32 [] [(0, 0x01210000#64), (1, 0xFFFFFFFE#64)] [] with eend := 128#64 };
      s.Sound ∧ s.first < s.last ∧ s.len % s.inst.W = 0 ∧ 1 < s.payloadList.length ∧
        (∀ j < 1, (s.payloadList.getD j (0, 0)).2 ≤ s.inst.W) ∧ s.inst.W < (s.payloadList.getD 1 (0, 0)).2 ∧
        (s.payloadList.getD 1 (0, 0)).1 ≤ s.inst.wordSize ∧ s.first + 1 * s.inst.W ≤ s.inst.elemSize) ∧
    (let s : State := { core32 [] [(0, 0x100#64)] [] with eend := 32#64 };
      s.Sound ∧ 0 < s.payloadList.length ∧ s.inst.W < (s.payloadList.getD 0 (0, 0)).2) := by decide +kernel

/-- The first header outside WORD; the second header outside, after a tail block of width 0; a payload outside; and a
destination outside ELEM. -/
theorem witness_DintFaultsAtTheExtents :
    (let s : State := { State.reset with eend := 32#64, wptr := 1024#64 };
      s.Sound ∧ s.first < s.last ∧ s.len % s.inst.W = 0 ∧ 0 < s.payloadList.length ∧
        (1025, 0) = s.payloadList.getD 0 (0, 0) ∧ 0 % s.inst.G = 0 ∧ s.inst.wordSize ≤ 1025 - 1) ∧
    (let s : State := { State.reset with eend := 64#64, wptr := 1023#64 };
      s.Sound ∧ s.first < s.last ∧ s.len % s.inst.W = 0 ∧ 1 < s.payloadList.length ∧
        (1025, 0) = s.payloadList.getD 1 (0, 0) ∧ (∀ j < 1, (s.payloadList.getD j (0, 0)).2 ≤ s.inst.W) ∧
        s.first + 1 * s.inst.W ≤ s.inst.elemSize ∧ s.megablocks * s.inst.G ≤ 1 ∧ 1025 - 1 ≤ s.inst.wordSize ∧
        s.inst.wordSize ≤ 1025 - 1) ∧
    (let s : State := { core32 [] [(1023, 1#64)] [] with eend := 32#64, wptr := 1023#64 };
      s.Sound ∧ s.first < s.last ∧ s.len % s.inst.W = 0 ∧ 0 < s.payloadList.length ∧
        (1024, 1) = s.payloadList.getD 0 (0, 0) ∧ 1 ≤ s.inst.W ∧ 1024 ≤ s.inst.wordSize ∧
        s.inst.wordSize < 1024 + 1) ∧
    (let s : State := { packed with eptr := 1000#64, eend := 1032#64 };
      s.Sound ∧ s.first < s.last ∧ s.len % s.inst.W = 0 ∧ 0 < s.payloadList.length ∧
        (1, 1) = s.payloadList.getD 0 (0, 0) ∧ 1 ≤ s.inst.W ∧ 1 + 1 ≤ s.inst.wordSize ∧
        s.inst.elemSize < s.first + (0 + 1) * s.inst.W) := by
  refine ⟨?_, ?_, ?_, ?_⟩ <;> decide +kernel

/-- The same carry, and another one. -/
theorem witness_IntegratedCodecRoundTrips :
    let s : State := { ramp with eend := 32#64 }
    s.Sound ∧ 992 + s.len ≤ s.inst.elemSize ∧ fitsIn s.inst.W s.carry ∧ fitsIn s.inst.W 0xFFFFFFFF#64 := by decide

theorem witness_CapCompletes :
    (let s : State := { State.reset with eend := 0xFFFFFFFF#64 }; s.Sound ∧ s.first ≤ s.last) ∧
      (let s : State := { State.reset with eptr := 1#64 }; s.last < s.first) := by decide

/-- A completed CINT (above) with its capacity set aside; and one that faults with its capacity set aside. -/
theorem witness_CapacityIsSoundAndTight :
    (let s : State := { ramp with eend := 32#64 }; s.wordAt + capacity s.inst s.len ≤ s.inst.wordSize) ∧
      (let s : State := { ramp with eptr := 1000#64, eend := 1032#64 };
        s.Sound ∧ s.faulted = false ∧ s.wordAt + capacity s.inst s.len ≤ s.inst.wordSize ∧
          (after (exec .cint s)).faulted = true) ∧
      4294967295 < 2 ^ Config.standard.idxw := by decide +kernel

/-- The longest varint for each width, and a one-byte one. -/
theorem witness_VarintBytesCarrySevenBits :
    varLen Width.w32.kmax 0xFFFFFFFF#32 = 5 ∧ varLen Width.w64.kmax 0x8000000000000000#64 = 9 ∧
      varLen Width.w32.kmax 127#32 = 1 ∧ 0 + 1 < varLen Width.w32.kmax 128#32 := by decide

theorem witness_VarDecodeReadsUpToTheFlag :
    1 ≤ 2 ∧ 2 ≤ packed.inst.kmax ∧ (∀ j, j + 1 < 2 → (packed.mem.cell .byte (0 + j)).getLsbD 7 = true) ∧
      (packed.mem.cell .byte (0 + (2 - 1))).getLsbD 7 = false ∧ 0 + 2 ≤ packed.inst.byteSize ∧
      (1 ≤ 1 ∧ State.reset.inst.byteSize < 1024 + 1 ∧ (State.reset.mem.cell .byte (1024 + (1 - 1))).getLsbD 7 = false) := by
  refine ⟨by decide, by decide, fun j hj => ?_, by decide, by decide, by decide⟩
  obtain rfl : j = 0 := by omega
  decide

/-- A byte string with the flag on every byte: five bytes for W = 32. -/
theorem witness_VarDecode_full_length :
    let m := (core32 [] [] (cellsOf 0 5 fun _ => 0xFF)).mem
    5 = Config.standard.kmax ∧ ∀ j < 5, (m.cell .byte (0 + j)).getLsbD 7 = true := by decide

theorem witness_VarintsDecodeUniquely :
    0 + (varEncode 5 300#32).length ≤ packed.inst.byteSize ∧
      packed.mem.cells .byte 8 (varEncode 5 300#32).length 0 = varEncode 5 300#32 ∧
      1 < (varEncode 5 300#32).length ∧ 1 = 0 + 1 ∧ packed.mem.cells .byte 8 1 0 = (varEncode 5 300#32).take 1 ∧
      varDecode packed.inst 0 packed.mem = .ok (300#32, 2) :=
  ⟨by decide, by decide +kernel, by decide, rfl, by decide +kernel, rfl⟩

theorem witness_WrvarAppendsOneVarint :
    (let s : State := { State.reset with val := 300#64, bptr := 1022#64 };
      s.Sound ∧ s.byteAt + (varEncode s.inst.kmax s.value).length ≤ s.inst.byteSize) ∧
    (let s : State := { State.reset with val := 300#64, bptr := 1023#64 };
      s.Sound ∧ s.inst.byteSize < s.byteAt + (varEncode s.inst.kmax s.value).length) := by decide +kernel

theorem witness_RdvarConsumesOneVarint :
    packed.Sound ∧ varDecode packed.inst packed.byteAt packed.mem = .ok (300#32, 2) ∧
      (packed.mem.cell .byte packed.byteAt).toNat = 0xAC ∧ (packed.mem.cell .byte (packed.byteAt + 1)).toNat = 0x02 ∧
      packed.byteAt + 2 ≤ packed.inst.byteSize ∧
      (let s : State := { State.reset with bptr := 1024#64 };
        s.Sound ∧ varDecode s.inst s.byteAt s.mem = .error (.access .byte 1024)) :=
  ⟨by decide, rfl, by decide, by decide, by decide, by decide, rfl⟩

theorem witness_CvarCompletes :
    (let s : State := { ramp with eend := 32#64 };
      s.Sound ∧ s.first ≤ s.last ∧ s.last ≤ s.inst.elemSize ∧ s.byteAt + s.varStream.length ≤ s.inst.byteSize) ∧
    (let s : State := { ramp with eptr := 2000#64, eend := 2000#64, bptr := 2000#64 };
      s.Sound ∧ s.first ≤ s.last ∧ s.len = 0) := by decide +kernel

/-- All of the range inside ELEM and the varints past BYTE; the second element outside ELEM, with the varint of the first
inside BYTE, and outside it; and the first element outside ELEM with BPTR past BYTE. -/
theorem witness_CvarFaultsAtTheExtents :
    (let s : State := { ramp with eend := 32#64, bptr := 1000#64 };
      s.Sound ∧ s.first < s.last ∧ s.last ≤ s.inst.elemSize ∧ s.varStreamInside ≠ [] ∧
        s.inst.byteSize < s.byteAt + s.varStreamInside.length) ∧
    (let s : State := { State.reset with eptr := 1023#64, eend := 1025#64, bptr := 1023#64 };
      s.Sound ∧ s.first < s.last ∧ s.inst.elemSize < s.last ∧ s.varStreamInside ≠ [] ∧
        s.byteAt + s.varStreamInside.length ≤ s.inst.byteSize) ∧
    (let s : State := { State.reset with eptr := 1023#64, eend := 1025#64, bptr := 1024#64 };
      s.Sound ∧ s.first < s.last ∧ s.varStreamInside ≠ [] ∧
        s.inst.byteSize < s.byteAt + s.varStreamInside.length) ∧
    (let s : State := { State.reset with eptr := 1024#64, eend := 1025#64, bptr := 2000#64 };
      s.Sound ∧ s.first < s.last ∧ s.inst.elemSize < s.last ∧ s.varStreamInside = []) := by
  refine ⟨?_, ?_, ?_, ?_⟩ <;> decide +kernel

/-- 95_test_vectors S3: positions 0, 2, 3, 7 and deltas 300, 1, 16776915. -/
theorem witness_DvarCompletes :
    let s : State := { packed with eend := 3#64 }
    s.Sound ∧ s.first ≤ s.last ∧ s.last ≤ s.inst.elemSize ∧ 0 = s.byteAt ∧
      varDecode s.inst 0 s.mem = .ok (300#32, 2) ∧ varDecode s.inst 2 s.mem = .ok (1#32, 1) ∧
      varDecode s.inst 3 s.mem = .ok (16776915#32, 4) :=
  ⟨by decide, by decide, by decide, rfl, rfl, rfl, rfl⟩

/-- A varint that starts outside BYTE; and an element outside ELEM. -/
theorem witness_DvarFaultsAtTheExtents :
    (let s : State := { State.reset with eend := 1#64, bptr := 1024#64 };
      s.Sound ∧ s.first < s.last ∧ 0 < s.len ∧ varDecode s.inst s.byteAt s.mem = .error (.access .byte 1024)) ∧
    (let s : State := { packed with eptr := 1023#64, eend := 1025#64 };
      s.Sound ∧ s.first < s.last ∧ 1 < s.len ∧ s.first + 1 ≤ s.inst.elemSize ∧ s.inst.elemSize ≤ s.first + 1 ∧
        varDecode s.inst 0 s.mem = .ok (300#32, 2) ∧
        varDecode s.inst 2 s.mem = .ok (1#32, 1)) :=
  ⟨⟨by decide, by decide, by decide, rfl⟩, by decide, by decide, by decide, by decide, by decide, rfl, rfl⟩

/-- A whole range, and the same range cut after its first two elements. -/
theorem witness_VariableByteCodecRoundTrips :
    let s : State := { core32 [(0, 300#64), (1, 301#64), (2, 16777216#64)] [] [] with eend := 3#64 }
    let t : State := after (exec .cvar { s with eend := BitVec.ofNat 64 2 })
    s.Sound ∧ s.faulted = false ∧ s.first ≤ s.last ∧ (after (exec .cvar s)).faulted = false ∧
      1021 + s.len < 2 ^ s.inst.idxw ∧ 1021 + s.len ≤ s.inst.elemSize ∧ s.first ≤ 2 ∧ 2 ≤ s.last ∧
      t.faulted = false ∧ (after (exec .cvar { t with eptr := BitVec.ofNat 64 2, eend := s.eend })).faulted = false := by
  decide +kernel

end Sys2Proof.Tests
end

