-- ==== Sys2Proof/Proofs/HostRegisters.lean ====
section
/-! PROOF. The host's register port and reset (10_state R29, R34). -/

namespace Sys2Proof.Machine

open Sys2Proof

/-! ## The steps of the host at the register port -/

/-- 10_state R29: a command runs or a fault is recorded. -/
theorem hostStep_regWrite_of_not_accepting {s : State} (h : s.busy = true ∨ s.faulted = true) (n : Fin 16)
    (v : BitVec 64) : hostStep (.regWrite n v) s = .next s :=
  if_pos (by simpa using h)

/-- 10_state R29: a write of a register that is not CMD. -/
theorem hostStep_regWrite_of_accepting {s : State} (hs : s.Accepting) {n : Fin 16} (hn : regNumbered n ≠ .cmd)
    (v : BitVec 64) : hostStep (.regWrite n v) s = .next (s.writeReg (regNumbered n) v) := by
  obtain ⟨hbusy, hfault⟩ := hs
  simp [hostStep, hostRegWrite, hbusy, hfault, hn]

/-- 30_encoding R80: a write of CMD. -/
theorem hostStep_regWrite_cmd {s : State} (hs : s.Accepting) (v : BitVec 64) :
    hostStep (.regWrite 0 v) s = writeCmd (v.setWidth 32) s := by
  obtain ⟨hbusy, hfault⟩ := hs
  simp [hostStep, hostRegWrite, hbusy, hfault, regNumbered]

theorem writeCmd_of_decode_ok {w : BitVec 32} {i : Instr} (h : decode w = .ok i) (s : State) :
    writeCmd w s = exec i s.begin := by
  simp [writeCmd, h]

@[simp] theorem hostStep_regRead (n : Fin 16) (s : State) :
    hostStep (.regRead n) s = .next { s with rdata := s.readReg (regNumbered n) } := rfl

@[simp] theorem hostStep_reset (s : State) : hostStep .reset s = .next s.applyReset := rfl

/-! ## The registers by their numbers -/

/-- 10_state R29: the registers that no write of the host changes. -/
theorem writeReg_of_readOnly {r : Reg} (h : r ∈ [Reg.status, .finfo, .res, .reserved]) (s : State) (v : BitVec 64) :
    s.writeReg r v = s := by
  simp only [List.mem_cons, List.not_mem_nil, or_false] at h
  rcases h with rfl | rfl | rfl | rfl <;> rfl

theorem regNumbered_readOnly {n : Fin 16} (h : n.val = 1 ∨ n.val = 2 ∨ n.val = 3 ∨ 10 ≤ n.val) :
    regNumbered n ∈ [Reg.status, .finfo, .res, .reserved] := by
  decide +revert

/-! ## The registers at the start of a command and after reset -/

theorem readReg_begin_of_ne_status {r : Reg} (h : r ≠ .status) (s : State) : s.begin.readReg r = s.readReg r := by
  cases r with
  | status => exact absurd rfl h
  | _ => rfl

theorem readReg_begin_status_busy (s : State) : (s.begin.readReg .status).getLsbD 0 = true := by
  simpa [State.readReg, State.busy] using s.busy_begin

theorem readReg_powerUp (p : Instance) (m : Spaces) (r : Reg) : (State.powerUp p m).readReg r = 0#64 := by
  cases r <;> rfl

theorem readReg_applyReset (s : State) (r : Reg) : s.applyReset.readReg r = 0#64 := by
  cases r <;> rfl

theorem accepting_applyReset (s : State) : s.applyReset.Accepting := by
  simp [State.Accepting, State.busy, State.faulted]

/-! ## The statements -/

/-- Settles O6: a write by what the core and the register's number allow, a read by the register's number. -/
theorem hostRegisterAccess : Obligations.HostRegisterAccess := by
  refine ⟨fun s n v h => hostStep_regWrite_of_not_accepting h n v, fun s n => ?read,
    fun s r h => readReg_begin_of_ne_status h s, readReg_begin_status_busy, fun s n v hs hn => ?readOnly,
    fun s w i hs hw => ?command, fun s v hs => ?operands⟩
  case read =>
    rw [hostStep_regRead]
    fin_cases n <;> rfl
  case readOnly =>
    have hr := regNumbered_readOnly hn
    have hcmd : regNumbered n ≠ .cmd := fun h => by simp [h] at hr
    rw [hostStep_regWrite_of_accepting hs hcmd, writeReg_of_readOnly hr]
  case command =>
    have hword : (w.setWidth 64).setWidth 32 = w := by simp
    rw [hostStep_regWrite_cmd hs, hword, writeCmd_of_decode_ok hw]
  case operands =>
    have hwrite (n : Fin 16) (hn : regNumbered n ≠ .cmd) := hostStep_regWrite_of_accepting hs hn v
    exact ⟨hwrite 4 (by decide), hwrite 5 (by decide), hwrite 6 (by decide), hwrite 7 (by decide),
      hwrite 8 (by decide), hwrite 9 (by decide)⟩

/-- Settles O8: every register reads 0 after power-up and after `State.applyReset`. -/
theorem resetClearsRegisters : Obligations.ResetClearsRegisters :=
  ⟨fun p m => ⟨rfl, rfl, readReg_powerUp p m⟩,
    fun s => ⟨s.applyReset, hostStep_reset s, readReg_applyReset s, accepting_applyReset s, s.applyReset_inst,
      s.applyReset_mem⟩⟩

end Sys2Proof.Machine
end

