-- ==== Sys2Proof/Proofs/MemoryAccess.lean ====
section
/-! PROOF. One access to a memory space (20_memory R52, R53). -/

namespace Sys2Proof.Machine

open Sys2Proof

/-- Settles O22: outside the extent both accesses raise; inside it the read gives the cell and the write sets it. -/
theorem accessReadsAndWritesOneCell : Obligations.AccessReadsAndWritesOneCell := by
  intro p sp i m v hm hv
  refine ⟨fun hge => ⟨memRead_of_ge m hge, memWrite_of_ge v m hge⟩,
    fun hlt => ⟨memRead_of_lt m hlt, Spaces.cell_lt hm sp i, m.setCell sp i v, memWrite_of_lt v m hlt, ?readBack,
      Spaces.setCell_within hm hlt hv, fun sp' k => Spaces.cell_setCell_other m v⟩⟩
  case readBack => rw [memRead_of_lt _ hlt, Spaces.cell_setCell_same hm sp i hv]

end Sys2Proof.Machine
end

