-- ==== Sys2Proof/Proofs/Encoding.lean ====
section
/-! PROOF. The command word: which words are illegal, the match and mask of every legal one, and what an illegal word
does (30_encoding R81 to R85). -/

namespace Sys2Proof.Machine

open Sys2Proof

/-! ## The fields of a word (30_encoding R81) -/

theorem opField_toNat (w : BitVec 32) : (opField w).toNat = w.toNat % 16 := by
  simp [opField]

theorem bField_toNat (w : BitVec 32) : (bField w).toNat = w.toNat / 16 % 128 := by
  simp [bField, Nat.shiftRight_eq_div_pow]

theorem zField_toNat (w : BitVec 32) : (zField w).toNat = w.toNat / 2048 := by
  have hw := w.isLt
  simp [zField, Nat.shiftRight_eq_div_pow]
  omega

theorem zField_eq_zero_iff (w : BitVec 32) : zField w = 0#21 ↔ w.toNat / 2048 = 0 := by
  rw [← BitVec.toNat_inj, zField_toNat, BitVec.toNat_ofNat, Nat.zero_mod]

theorem word_eq_iff_fields_eq {w v : BitVec 32} :
    w = v ↔ zField w = zField v ∧ bField w = bField v ∧ opField w = opField v := by
  simp only [← BitVec.toNat_inj, zField_toNat, bField_toNat, opField_toNat]
  omega

@[simp] theorem zField_and (w v : BitVec 32) : zField (w &&& v) = zField w &&& zField v := BitVec.extractLsb'_and

@[simp] theorem bField_and (w v : BitVec 32) : bField (w &&& v) = bField w &&& bField v := BitVec.extractLsb'_and

@[simp] theorem opField_and (w v : BitVec 32) : opField (w &&& v) = opField w &&& opField v := BitVec.extractLsb'_and

/-- The mask of PACK and UNPACK (30_encoding R85) keeps fields Z and OP and drops field B. -/
theorem and_widthMask_eq_iff (w : BitVec 32) (o : BitVec 4) :
    w &&& 0xFFFFF80F#32 = o.setWidth 32 ↔ zField w = 0#21 ∧ opField w = o := by
  have hz : zField 0xFFFFF80F#32 = BitVec.allOnes 21 := rfl
  have hb : bField 0xFFFFF80F#32 = 0#7 := rfl
  have hop : opField 0xFFFFF80F#32 = BitVec.allOnes 4 := rfl
  have hfields : zField (o.setWidth 32) = 0#21 ∧ bField (o.setWidth 32) = 0#7 ∧ opField (o.setWidth 32) = o := by
    decide +revert
  obtain ⟨hzo, hbo, hopo⟩ := hfields
  simp only [word_eq_iff_fields_eq, zField_and, bField_and, opField_and, hz, hb, hop, hzo, hbo, hopo,
    BitVec.and_allOnes, BitVec.and_zero, true_and]

/-! ## The legal words -/

theorem decodeFormatN_eq_ok_iff (i j : Instr) (w : BitVec 32) :
    decodeFormatN i w = .ok j ↔ bField w = 0#7 ∧ i = j := by
  unfold decodeFormatN
  split <;> simp [*]

/-- 30_encoding R81 to R84: a word is the command `i` exactly when its fields are those of `i`. -/
theorem decode_eq_ok_iff {w : BitVec 32} {i : Instr} : decode w = .ok i ↔
    zField w = 0#21 ∧ (opField w).toNat = i.op ∧ (bField w).toNat = i.widthOperand := by
  constructor
  · intro h
    unfold decode at h
    split at h
    · cases h
    · split at h
      all_goals simp only [decodeFormatN_eq_ok_iff, Except.ok.injEq, reduceCtorEq] at h
      -- PACK and UNPACK, which take field B as their operand; the other rows need field B to be zero.
      case h_2 | h_3 =>
        subst h
        simp_all [Instr.op, Instr.widthOperand]
      all_goals
        obtain ⟨hb, rfl⟩ := h
        simp_all [Instr.op, Instr.widthOperand]
  · rintro ⟨hz, hop, hb⟩
    cases i <;> simp_all [decode, decodeFormatN, Instr.op, Instr.widthOperand, BitVec.toNat_eq]

theorem fields_encode (i : Instr) : Laws.Fields.Statement i := by
  cases i with
  | est => exact Laws.Fields.est
  | pack b => exact Laws.Fields.pack b
  | unpack b => exact Laws.Fields.unpack b
  | cint => exact Laws.Fields.cint
  | dint => exact Laws.Fields.dint
  | cap => exact Laws.Fields.cap
  | cvar => exact Laws.Fields.cvar
  | dvar => exact Laws.Fields.dvar
  | wrvar => exact Laws.Fields.wrvar
  | rdvar => exact Laws.Fields.rdvar

/-- A well-formed command has one word, its encoding. -/
theorem decode_eq_ok_iff_eq_encode {w : BitVec 32} {i : Instr} (hi : i.wf = true) :
    decode w = .ok i ↔ w = encode i := by
  obtain ⟨hop, hb, hz⟩ := fields_encode i hi
  rw [decode_eq_ok_iff, word_eq_iff_fields_eq, hz, ← hop, ← hb, BitVec.toNat_inj, BitVec.toNat_inj]
  tauto

/-- The match and mask of a command of format N (30_encoding R85). -/
theorem decode_eq_ok_iff_of_widthOperand_eq_zero (w : BitVec 32) {i : Instr} (hi : i.widthOperand = 0) :
    decode w = .ok i ↔ w &&& 0xFFFFFFFF#32 = BitVec.ofNat 32 i.op := by
  have hwf : i.wf = true := by cases i <;> simp_all [Instr.wf, Instr.widthOperand, widthFits]
  have hmask : w &&& 0xFFFFFFFF#32 = w := BitVec.and_allOnes
  rw [hmask, decode_eq_ok_iff_eq_encode hwf, encode, hi, Nat.zero_shiftLeft, Nat.zero_add]

/-- The match and mask of PACK and UNPACK (30_encoding R85): `o` is the operation code. -/
theorem decode_eq_ok_iff_widthMask (w : BitVec 32) {i : Instr} {o : BitVec 4} (ho : i.op = o.toNat) :
    decode w = .ok i ↔ w &&& 0xFFFFF80F#32 = o.setWidth 32 ∧ i.widthOperand = w.toNat / 16 % 128 := by
  rw [decode_eq_ok_iff, and_widthMask_eq_iff, ho, BitVec.toNat_inj, bField_toNat, and_assoc,
    eq_comm (b := i.widthOperand)]

/-! ## The illegal words (30_encoding R84) -/

/-- The opcode map (30_encoding R82): the values of OP and B that some command has. -/
theorem exists_op_and_widthOperand_iff {o b : Nat} : (∃ i : Instr, o = i.op ∧ b = i.widthOperand) ↔
    (o ≠ 0 ∧ o ≠ 7 ∧ o < 0xC) ∧ (o = 2 ∨ o = 3 ∨ b = 0) := by
  constructor
  · rintro ⟨i, rfl, rfl⟩
    cases i <;> simp [Instr.op, Instr.widthOperand]
  · intro h
    have hrows : o = 2 ∨ o = 3 ∨
        b = 0 ∧ (o = 1 ∨ o = 4 ∨ o = 5 ∨ o = 6 ∨ o = 8 ∨ o = 9 ∨ o = 0xA ∨ o = 0xB) := by omega
    obtain rfl | rfl | ⟨rfl, rfl | rfl | rfl | rfl | rfl | rfl | rfl | rfl⟩ := hrows
    exacts [⟨.pack b, rfl, rfl⟩, ⟨.unpack b, rfl, rfl⟩, ⟨.est, rfl, rfl⟩, ⟨.cint, rfl, rfl⟩, ⟨.dint, rfl, rfl⟩,
      ⟨.cap, rfl, rfl⟩, ⟨.cvar, rfl, rfl⟩, ⟨.dvar, rfl, rfl⟩, ⟨.wrvar, rfl, rfl⟩, ⟨.rdvar, rfl, rfl⟩]

theorem exists_decode_eq_error_iff (w : BitVec 32) :
    (∃ e, decode w = .error e) ↔ ¬ ∃ i, decode w = .ok i := by
  cases decode w <;> simp

theorem writeCmd_of_decode_error {w : BitVec 32} {e : DecodeError} (h : decode w = .error e) (s : State) :
    writeCmd w s = .next (s.raise (.opcode w) s.mem) := by
  simp [writeCmd, h]

theorem raise_opcode (w : BitVec 32) (s : State) :
    s.raise (.opcode w) s.mem = { s with status := 0x12#32, finfo := w.setWidth 64 } := rfl

/-- Settles O2: a word is illegal when no command has its fields, and writing it to CMD raises E_OPCODE. -/
theorem illegalWordRaisesOpcodeFault : Obligations.IllegalWordRaisesOpcodeFault := by
  refine ⟨fun w => ?illegal, fun w i => ?legal, fun w e s hs hw => ?effect⟩
  case illegal =>
    simp only [exists_decode_eq_error_iff, decode_eq_ok_iff, exists_and_left, exists_op_and_widthOperand_iff,
      zField_eq_zero_iff, opField_toNat, bField_toNat]
    omega
  case legal =>
    cases i with
    | pack b => exact decode_eq_ok_iff_widthMask (o := 2#4) w rfl
    | unpack b => exact decode_eq_ok_iff_widthMask (o := 3#4) w rfl
    | _ => exact decode_eq_ok_iff_of_widthOperand_eq_zero w rfl
  case effect =>
    have hword : (w.setWidth 64).setWidth 32 = w := by simp
    rw [hostStep_regWrite_cmd hs, hword, writeCmd_of_decode_error hw, raise_opcode]

end Sys2Proof.Machine
end

