-- ==== Sys2Proof/Proofs/DeltaChain.lean ====
section
/-! PROOF. The delta chain and its inverse, the running sum (40_delta_width R102, R103). -/

namespace Sys2Proof.Machine

open Sys2Proof

variable {w : Nat}

/-! ## The delta chain (40_delta_width R102) -/

theorem deltas_getElem_zero (c : BitVec w) (e : List (BitVec w)) (h : 0 < (deltas c e).length) :
    (deltas c e)[0] = e.getD 0 0 - c := by
  cases e with
  | nil => cases h
  | cons x xs => rfl

theorem deltas_getElem_succ {e : List (BitVec w)} {c : BitVec w} {i : Nat} (h : i + 1 < (deltas c e).length) :
    (deltas c e)[i + 1] = e.getD (i + 1) 0 - e.getD i 0 := by
  induction e generalizing c i with
  | nil => cases h
  | cons x xs ih =>
    cases i with
    | zero => exact deltas_getElem_zero x xs (Nat.lt_of_succ_lt_succ h)
    | succ i => exact ih (Nat.lt_of_succ_lt_succ h)

theorem carryAfter_eq_getD (c : BitVec w) (e : List (BitVec w)) :
    carryAfter c e = if e.length = 0 then c else e.getD (e.length - 1) 0 := by
  cases e with
  | nil => rfl
  | cons x xs => simp [carryAfter, List.getLast?_eq_getElem?]

/-- Settles O23: the first delta and the later ones by recursion on the sequence, and the carry as its last element. -/
theorem deltasAreDifferences : Obligations.DeltasAreDifferences := fun _ c e =>
  ⟨deltas_length c e, deltas_getElem_zero c e, fun _ => deltas_getElem_succ, carryAfter_eq_getD c e⟩

/-! ## The running sum (40_delta_width R103) -/

theorem undelta_getElem_zero (c : BitVec w) (d : List (BitVec w)) (h : 0 < (undelta c d).length) :
    (undelta c d)[0] = c + d.getD 0 0 := by
  cases d with
  | nil => cases h
  | cons x xs => rfl

theorem undelta_getElem_succ {d : List (BitVec w)} {c : BitVec w} {i : Nat} (h : i + 1 < (undelta c d).length) :
    (undelta c d)[i + 1] = (undelta c d)[i] + d.getD (i + 1) 0 := by
  induction d generalizing c i with
  | nil => cases h
  | cons x xs ih =>
    cases i with
    | zero => exact undelta_getElem_zero (c + x) xs (Nat.lt_of_succ_lt_succ h)
    | succ i => exact ih (Nat.lt_of_succ_lt_succ h)

@[simp] theorem undelta_deltas (c : BitVec w) (e : List (BitVec w)) : undelta c (deltas c e) = e := by
  induction e generalizing c with
  | nil => rfl
  | cons x xs ih =>
    have hx : c + (x - c) = x := by rw [BitVec.add_comm, BitVec.sub_add_cancel]
    rw [deltas_cons, undelta_cons, hx, ih]

@[simp] theorem deltas_undelta (c : BitVec w) (d : List (BitVec w)) : deltas c (undelta c d) = d := by
  induction d generalizing c with
  | nil => rfl
  | cons x xs ih =>
    have hx : c + x - c = x := by rw [BitVec.add_comm, BitVec.add_sub_cancel]
    rw [undelta_cons, deltas_cons, hx, ih]

/-- Settles O24: one step of either chain is undone by the other, with the same carry into the next step. -/
theorem deltasAndUndeltaInvert : Obligations.DeltasAndUndeltaInvert := fun _ c l =>
  ⟨undelta_length c l, undelta_getElem_zero c l, fun _ => undelta_getElem_succ, undelta_deltas c l, deltas_undelta c l⟩

end Sys2Proof.Machine
end

