-- ==== Sys2Proof/Proofs/Payload.lean ====
section
/-! PROOF. The packer and the unpacker read through the payload as one number (41_bitpack R121 to R123): packing keeps
the number and changes its digits from `b` bits to `w` bits; delta `i` of an unpacked payload is its digit of `b` bits at
bit `i * b`. -/

namespace Sys2Proof.Machine

open Sys2Proof

variable {w b : Nat}

/-! ## The payload as one number -/

@[simp] theorem payloadNumber_nil (b : Nat) : payloadNumber b ([] : List (BitVec w)) = 0 := rfl

@[simp] theorem payloadNumber_cons (b : Nat) (d : BitVec w) (ds : List (BitVec w)) :
    payloadNumber b (d :: ds) = d.toNat + 2 ^ b * payloadNumber b ds := by
  have hshift : ∀ v i : Nat, v <<< ((i + 1) * b) = 2 ^ b * (v <<< (i * b)) := fun v i => by
    rw [Nat.shiftLeft_eq, Nat.shiftLeft_eq, Nat.succ_mul, Nat.pow_add]
    ring
  simp [payloadNumber, List.range_succ_eq_map, Function.comp_def, hshift, List.sum_map_mul_left]

theorem payloadNumber_shiftRight {d : List (BitVec w)} (hd : ∀ x ∈ d, x.toNat < 2 ^ b) :
    payloadNumber b d >>> b = payloadNumber b (d.drop 1) := by
  cases d with
  | nil => simp
  | cons x xs =>
    have hx : x.toNat < 2 ^ b := hd x List.mem_cons_self
    rw [payloadNumber_cons, Nat.shiftRight_eq_div_pow, Nat.add_mul_div_left _ _ (Nat.two_pow_pos b),
      Nat.div_eq_of_lt hx, Nat.zero_add, List.drop_one, List.tail_cons]

/-- Digit `i` of a payload whose values fit `b` bits is its value `i` (41_bitpack R121). -/
theorem payloadNumber_digit {d : List (BitVec w)} (hd : ∀ x ∈ d, x.toNat < 2 ^ b) (i : Nat) :
    payloadNumber b d >>> (i * b) % 2 ^ b = (d.getD i 0).toNat := by
  induction d generalizing i with
  | nil => simp
  | cons x xs ih =>
    obtain ⟨hx, hxs⟩ := List.forall_mem_cons.1 hd
    cases i with
    | zero => simp [Nat.mod_eq_of_lt hx]
    | succ i =>
      rw [Nat.succ_mul, Nat.add_comm (i * b), Nat.shiftRight_add, payloadNumber_shiftRight hd]
      exact ih hxs i

/-- Payload bit `n` of a list of words is bit `n mod W` of word `n div W` (41_bitpack R121). -/
theorem testBit_payloadNumber {ws : List (BitVec w)} {k j : Nat} (hj : j < w) :
    (payloadNumber w ws).testBit (k * w + j) = (ws.getD k 0).getLsbD j := by
  rw [BitVec.getLsbD, ← payloadNumber_digit (fun x _ => x.isLt) k, Nat.testBit_mod_two_pow, Nat.testBit_shiftRight]
  simp [hj]

/-! ## Packing (41_bitpack R122) -/

/-- The word under construction holds the values before the cursor and the part of the next one that fits. -/
theorem toNat_or_shiftLeft {cur : BitVec w} {off : Nat} (d : BitVec w) (hoff : off ≤ w) (hcur : cur.toNat < 2 ^ off) :
    (cur ||| d <<< off).toNat = cur.toNat + 2 ^ off * (d.toNat % 2 ^ (w - off)) := by
  have hmod : d.toNat <<< off % 2 ^ w = 2 ^ off * (d.toNat % 2 ^ (w - off)) := by
    rw [Nat.shiftLeft_eq, Nat.mul_comm, ← Nat.mul_mod_mul_left, ← Nat.pow_add, Nat.add_sub_cancel' hoff]
  rw [BitVec.toNat_or, BitVec.toNat_shiftLeft, hmod, Nat.or_comm, ← Nat.two_pow_add_eq_or_of_lt hcur, Nat.add_comm]

/-- The words of the packer are the payload as one number, when the last value ends at the end of a word. -/
theorem payloadNumber_packLoop (hb : b ≤ w) {d : List (BitVec w)} (hd : ∀ x ∈ d, x.toNat < 2 ^ b) {off : Nat}
    {cur : BitVec w} (hoff : off < w) (hcur : cur.toNat < 2 ^ off) (hend : w ∣ off + d.length * b) :
    payloadNumber w (packLoop b d off cur) = cur.toNat + 2 ^ off * payloadNumber b d := by
  induction d generalizing off cur with
  | nil =>
    have hzero : off = 0 := Nat.eq_zero_of_dvd_of_lt (by simpa using hend) hoff
    subst hzero
    simpa [packLoop, eq_comm] using hcur
  | cons x xs ih =>
    obtain ⟨hx, hxs⟩ := List.forall_mem_cons.1 hd
    have hlen : off + (x :: xs).length * b = off + b + xs.length * b := by
      rw [List.length_cons, Nat.succ_mul]
      omega
    rw [hlen] at hend
    unfold packLoop
    split
    case isTrue hfull =>
      -- The word is complete: the bits of `x` that it has no room for start the next word.
      have hspill : x.toNat / 2 ^ (w - off) < 2 ^ (off + b - w) := by
        rw [Nat.div_lt_iff_lt_mul (Nat.two_pow_pos _), ← Nat.pow_add]
        rwa [show off + b - w + (w - off) = b by omega]
      have hnext : w ∣ off + b - w + xs.length * b := by
        rw [← Nat.sub_add_comm hfull]
        exact Nat.dvd_sub hend (Nat.dvd_refl w)
      have hw : 2 ^ w = 2 ^ off * 2 ^ (w - off) := by rw [← Nat.pow_add, Nat.add_sub_cancel' hoff.le]
      have hb' : 2 ^ b = 2 ^ (w - off) * 2 ^ (off + b - w) := by
        rw [← Nat.pow_add]
        congr 1
        omega
      have hsplit := Nat.mod_add_div x.toNat (2 ^ (w - off))
      rw [payloadNumber_cons, toNat_or_shiftLeft x hoff.le hcur, ih hxs (by omega)
          (by rwa [BitVec.toNat_ushiftRight, Nat.shiftRight_eq_div_pow]) hnext,
        BitVec.toNat_ushiftRight, Nat.shiftRight_eq_div_pow, payloadNumber_cons, hw, hb']
      linear_combination 2 ^ off * hsplit
    case isFalse hroom =>
      have hfits : x.toNat < 2 ^ (w - off) := lt_of_lt_of_le hx (Nat.pow_le_pow_right (by omega) (by omega))
      have hword : (cur ||| x <<< off).toNat = cur.toNat + 2 ^ off * x.toNat := by
        rw [toNat_or_shiftLeft x hoff.le hcur, Nat.mod_eq_of_lt hfits]
      have hcur' : cur.toNat + 2 ^ off * x.toNat < 2 ^ (off + b) := by
        have hstep : 2 ^ off * (x.toNat + 1) ≤ 2 ^ off * 2 ^ b := Nat.mul_le_mul_left _ hx
        rw [Nat.pow_add]
        linarith
      rw [ih hxs (by omega) (hword ▸ hcur') hend, hword, payloadNumber_cons, Nat.pow_add]
      ring

/-- 41_bitpack R121: packing keeps the payload as one number. -/
theorem payloadNumber_packBits (hb : b < w) {d : List (BitVec w)} (hlen : d.length = w)
    (hd : ∀ x ∈ d, x.toNat < 2 ^ b) : payloadNumber w (packBits d b) = payloadNumber b d := by
  have hend : w ∣ 0 + d.length * b := ⟨b, by rw [hlen, Nat.zero_add]⟩
  rw [packBits, payloadNumber_packLoop hb.le hd (by omega) (by simp) hend]
  simp

/-! ## Unpacking (41_bitpack R123) -/

theorem getLsbD_lowMask (hb : b ≤ w) (j : Nat) : (lowMask w b).getLsbD j = decide (j < b) := by
  rw [lowMask, BitVec.getLsbD_ofNat, Nat.testBit_two_pow_sub_one]
  simp
  omega

/-- The field the unpacker reads at bit `off` of the words: bits `off` upward of the payload, from word 0 and, where the
field crosses its end, from word 1. -/
theorem toNat_unpackLoop_getD_zero (hb : b ≤ w) (n : Nat) (ws : List (BitVec w)) {off : Nat} (hoff : off < w) :
    ((unpackLoop b (n + 1) ws off).getD 0 0).toNat = payloadNumber w ws >>> off % 2 ^ b := by
  refine Nat.eq_of_testBit_eq fun j => ?_
  rw [unpackLoop, List.getD_cons_zero, Nat.testBit_mod_two_pow, Nat.testBit_shiftRight, BitVec.testBit_toNat,
    BitVec.getLsbD_and, getLsbD_lowMask hb, Bool.and_comm]
  by_cases hj : j < b
  case neg => simp [hj]
  by_cases hword : off + j < w
  · have hbit := testBit_payloadNumber (ws := ws) (k := 0) hword
    rw [Nat.zero_mul, Nat.zero_add] at hbit
    rw [hbit]
    split
    · have hlow : j < w - off := by omega
      simp [hlow]
    · simp
  · have hbit := testBit_payloadNumber (ws := ws) (k := 1) (j := off + j - w) (by omega)
    rw [show 1 * w + (off + j - w) = off + j by omega] at hbit
    rw [hbit, if_pos (by omega)]
    have hhigh : ¬ j < w - off := by omega
    have hidx : j - (w - off) = off + j - w := by omega
    have hjw : j < w := by omega
    rw [BitVec.getLsbD_or, BitVec.getLsbD_ushiftRight, BitVec.getLsbD_of_ge _ _ (by omega), BitVec.getLsbD_shiftLeft,
      hidx]
    simp [hhigh, hjw]

/-- 41_bitpack R123: with `n` deltas still to come, the next ones are the digits of the payload from bit `off` on. -/
theorem toNat_unpackLoop_getD (hb : b ≤ w) {n i : Nat} (hi : i < n) (ws : List (BitVec w)) {off : Nat} (hoff : off < w) :
    ((unpackLoop b n ws off).getD i 0).toNat = payloadNumber w ws >>> (off + i * b) % 2 ^ b := by
  induction n generalizing i ws off with
  | zero => cases hi
  | succ n ih =>
    cases i with
    | zero =>
      rw [Nat.zero_mul, Nat.add_zero]
      exact toNat_unpackLoop_getD_zero hb n ws hoff
    | succ i =>
      rw [unpackLoop, List.getD_cons_succ]
      have hi' : i < n := Nat.lt_of_succ_lt_succ hi
      split
      · rw [ih hi' _ (by omega), ← payloadNumber_shiftRight fun x _ => x.isLt, ← Nat.shiftRight_add, Nat.succ_mul]
        congr 2
        omega
      · rw [ih hi' _ (by omega), Nat.succ_mul]
        congr 2
        omega

/-- 41_bitpack R123: delta `i` of a payload is bits `i * b` upward of it. -/
theorem toNat_unpackBits_getD (hb : b ≤ w) (ws : List (BitVec w)) {i : Nat} (hi : i < w) :
    ((unpackBits ws b).getD i 0).toNat = payloadNumber w ws >>> (i * b) % 2 ^ b := by
  rw [unpackBits, toNat_unpackLoop_getD hb hi ws (by omega), Nat.zero_add]

/-- 41_bitpack R123: both sides have the same digits of `b` bits. -/
theorem unpackBits_packBits (hb : b < w) {d : List (BitVec w)} (hlen : d.length = w) (hd : ∀ x ∈ d, x.toNat < 2 ^ b) :
    unpackBits (packBits d b) b = d := by
  refine List.ext_getElem (by rw [unpackBits_length, hlen]) fun i hi hi' => ?_
  rw [unpackBits_length] at hi
  have hdigit : ((unpackBits (packBits d b) b).getD i 0).toNat = (d.getD i 0).toNat := by
    rw [toNat_unpackBits_getD hb.le _ hi, payloadNumber_packBits hb hlen hd, payloadNumber_digit hd]
  simpa [hi, hi', ← BitVec.toNat_inj] using hdigit

end Sys2Proof.Machine
end

