-- ==== Sys2Proof/Proofs/Estimate.lean ====
section
/-! PROOF. The estimated width and the block packed at it (40_delta_width R104, R105; 41_bitpack R124, R125, R129). -/

namespace Sys2Proof.Machine

open Sys2Proof

variable {w b : Nat}

/-! ## The estimate (40_delta_width R104, R105) -/

theorem bitlen_le_iff (v b : Nat) : bitlen v ≤ b ↔ v < 2 ^ b := by
  unfold bitlen
  split
  case isTrue hv => simp [hv]
  case isFalse hv => rw [Nat.succ_le_iff, Nat.log2_lt hv]

theorem orAll_lt_two_pow_iff (d : List (BitVec w)) (b : Nat) :
    (orAll d).toNat < 2 ^ b ↔ ∀ x ∈ d, x.toNat < 2 ^ b := by
  induction d with
  | nil => simp [orAll]
  | cons x xs ih =>
    rw [orAll_cons, BitVec.toNat_or, List.forall_mem_cons, ← ih]
    exact ⟨fun h => ⟨Nat.left_le_or.trans_lt h, Nat.right_le_or.trans_lt h⟩, fun ⟨hx, hxs⟩ => Nat.or_lt_two_pow hx hxs⟩

theorem blockWidth_eq_bitlen (c : BitVec w) (e : List (BitVec w)) :
    blockWidth c e = bitlen (orAll (deltas c e)).toNat := by
  have hle := (bitlen_le_iff _ w).2 (orAll (deltas c e)).isLt
  rw [blockWidth, clz, Nat.sub_sub_self hle]

/-- 40_delta_width R105: the estimate is the least width in which every delta fits. -/
theorem blockWidth_le_iff {c : BitVec w} {e : List (BitVec w)} {b : Nat} :
    blockWidth c e ≤ b ↔ ∀ d ∈ deltas c e, d.toNat < 2 ^ b := by
  rw [blockWidth_eq_bitlen, bitlen_le_iff, orAll_lt_two_pow_iff]

theorem blockWidth_le (c : BitVec w) (e : List (BitVec w)) : blockWidth c e ≤ w :=
  blockWidth_le_iff.2 fun d _ => d.isLt

theorem lt_two_pow_blockWidth (c : BitVec w) (e : List (BitVec w)) : ∀ d ∈ deltas c e, d.toNat < 2 ^ blockWidth c e :=
  blockWidth_le_iff.1 le_rfl

theorem deltas_eq_zero_iff {c : BitVec w} {e : List (BitVec w)} : (∀ d ∈ deltas c e, d = 0) ↔ ∀ x ∈ e, x = c := by
  induction e generalizing c with
  | nil => simp
  | cons x xs ih =>
    rw [deltas_cons, List.forall_mem_cons, List.forall_mem_cons, ih, sub_eq_zero]
    exact and_congr_right fun h => by rw [h]

theorem blockWidth_eq_zero_iff {c : BitVec w} {e : List (BitVec w)} : blockWidth c e = 0 ↔ ∀ x ∈ e, x = c := by
  rw [← deltas_eq_zero_iff, ← Nat.le_zero, blockWidth_le_iff]
  simp [← BitVec.toNat_inj]

theorem blockWidth_eq_width_iff (hw : 0 < w) {c : BitVec w} {e : List (BitVec w)} :
    blockWidth c e = w ↔ ∃ d ∈ deltas c e, d.msb = true := by
  have htop : blockWidth c e = w ↔ ¬ blockWidth c e ≤ w - 1 := by
    have := blockWidth_le c e
    omega
  rw [htop, blockWidth_le_iff]
  simp [BitVec.msb_eq_decide]

/-! ## A block at a width in which its deltas fit (41_bitpack R124, R125) -/

/-- 41_bitpack R124: the three forms of a payload. -/
theorem packBlock_of_fits {c : BitVec w} {e : List (BitVec w)} (hfits : ∀ d ∈ deltas c e, d.toNat < 2 ^ b) :
    packBlock c e b = .ok (if b = w then e else if b = 0 then [] else packBits (deltas c e) b) := by
  have hnone : (deltas c e).findIdx? (fun d : BitVec w => d >>> b != 0) = none := by
    rw [List.findIdx?_eq_none_iff]
    intro d hd
    have hzero : d >>> b = 0 := by
      rw [← BitVec.toNat_inj, BitVec.toNat_ushiftRight, Nat.shiftRight_eq_div_pow, Nat.div_eq_of_lt (hfits d hd)]
      rfl
    simp [hzero]
  unfold packBlock
  split
  · rfl
  · simp only [hnone]
    exact (apply_ite Except.ok _ _ _).symm

/-- 41_bitpack R128: a block packs at every width from its estimate to W, and comes back. -/
theorem exists_packBlock_eq_ok_and_unpackBlock_eq {c : BitVec w} {e : List (BitVec w)} (hlen : e.length = w)
    (hmin : blockWidth c e ≤ b) (hb : b ≤ w) : ∃ out, packBlock c e b = .ok out ∧ unpackBlock c out b = e := by
  have hfits := blockWidth_le_iff.1 hmin
  refine ⟨_, packBlock_of_fits hfits, ?_⟩
  by_cases hzero : b = 0
  case pos =>
    subst hzero
    have hall : ∀ x ∈ e, x = c := blockWidth_eq_zero_iff.1 (Nat.le_zero.1 hmin)
    rw [unpackBlock, if_pos rfl]
    exact (List.eq_replicate_iff.2 ⟨hlen, hall⟩).symm
  by_cases hfull : b = w
  case pos => rw [unpackBlock, if_neg hzero, if_pos hfull, if_pos hfull]
  rw [unpackBlock, if_neg hzero, if_neg hfull, if_neg hfull, if_neg hzero,
    unpackBits_packBits (by omega) (by rw [deltas_length, hlen]) hfits, undelta_deltas]

/-- Settles O25: the estimate is at most `b` exactly when every delta fits `b` bits. -/
theorem estimateIsTheLeastWidth : Obligations.EstimateIsTheLeastWidth := fun _ c e hw hlen =>
  ⟨blockWidth_le c e, lt_two_pow_blockWidth c e, fun _ => blockWidth_le_iff.2, blockWidth_eq_zero_iff,
    blockWidth_eq_width_iff hw, exists_packBlock_eq_ok_and_unpackBlock_eq hlen le_rfl (blockWidth_le c e)⟩

end Sys2Proof.Machine
end

/-! PROOF. The layout of a packed payload, and the round trip of a block at every width (41_bitpack R121, R123, R128). -/

namespace Sys2Proof.Machine

open Sys2Proof

variable {w b : Nat}

/-! ## A list of values and its payload as one number -/

/-- Payload bit `i * b + j` is bit `j` of value `i` (41_bitpack R121). -/
theorem testBit_payloadNumber_of_fits {d : List (BitVec w)} (hd : ∀ x ∈ d, x.toNat < 2 ^ b) (i : Nat) {j : Nat}
    (hj : j < b) : (payloadNumber b d).testBit (i * b + j) = (d.getD i 0).getLsbD j := by
  rw [BitVec.getLsbD, ← payloadNumber_digit hd i, Nat.testBit_mod_two_pow, Nat.testBit_shiftRight]
  simp [hj]

/-- Word `k` is bits `w * k` upward of the payload (41_bitpack R121). -/
theorem getD_eq_ofNat_payloadNumber (ws : List (BitVec w)) (k : Nat) :
    ws.getD k 0 = BitVec.ofNat w (payloadNumber w ws >>> (w * k)) := by
  refine BitVec.eq_of_toNat_eq ?_
  rw [BitVec.toNat_ofNat, Nat.mul_comm, payloadNumber_digit fun x _ => x.isLt]

/-- A payload is determined by its length and its number. -/
theorem eq_of_payloadNumber_eq {us ws : List (BitVec w)} (hlen : us.length = ws.length)
    (h : payloadNumber w us = payloadNumber w ws) : us = ws := by
  refine List.ext_getElem hlen fun k hk hk' => ?_
  have hword : us.getD k 0 = ws.getD k 0 := by
    rw [getD_eq_ofNat_payloadNumber, h, ← getD_eq_ofNat_payloadNumber]
  simpa [hk, hk'] using hword

/-- Values that are the `b`-bit digits of a number make up its low digits. -/
theorem payloadNumber_eq_mod_of_digits {d : List (BitVec w)} {v : Nat}
    (h : ∀ i < d.length, (d.getD i 0).toNat = v >>> (i * b) % 2 ^ b) :
    payloadNumber b d = v % 2 ^ (d.length * b) := by
  induction d generalizing v with
  | nil => simp [Nat.mod_one]
  | cons x xs ih =>
    have hx : x.toNat = v % 2 ^ b := by simpa using h 0 (Nat.succ_pos _)
    have hxs : payloadNumber b xs = v / 2 ^ b % 2 ^ (xs.length * b) := by
      refine ih fun i hi => ?_
      have hdigit := h (i + 1) (Nat.succ_lt_succ hi)
      rwa [List.getD_cons_succ, Nat.succ_mul, Nat.add_comm (i * b), Nat.shiftRight_add,
        Nat.shiftRight_eq_div_pow v b] at hdigit
    rw [payloadNumber_cons, hx, hxs, List.length_cons, Nat.succ_mul, Nat.add_comm (xs.length * b), Nat.pow_add,
      Nat.mod_mul]

theorem payloadNumber_mod_two_pow (ws : List (BitVec w)) :
    payloadNumber w ws % 2 ^ (ws.length * w) = payloadNumber w ws :=
  (payloadNumber_eq_mod_of_digits fun i _ => (payloadNumber_digit (fun x _ => x.isLt) i).symm).symm

/-! ## The layout of packed deltas (41_bitpack R121, R122) -/

/-- The packer gives one word for every `w` bits that the cursor passes. -/
theorem packLoop_length (hb : b ≤ w) (d : List (BitVec w)) {off : Nat} (hoff : off < w) (cur : BitVec w) :
    (packLoop b d off cur).length = (off + d.length * b) / w := by
  induction d generalizing off cur with
  | nil => simp [packLoop, Nat.div_eq_of_lt hoff]
  | cons x xs ih =>
    have hlen : off + (x :: xs).length * b = off + b + xs.length * b := by
      rw [List.length_cons, Nat.succ_mul]
      omega
    rw [hlen, packLoop]
    split
    case isTrue hfull =>
      have hnext : off + b + xs.length * b = off + b - w + xs.length * b + w := by omega
      rw [List.length_cons, ih (by omega), hnext, Nat.add_div_right _ (by omega)]
    case isFalse hroom => exact ih (by omega) _

theorem packBits_length (hb : b < w) {d : List (BitVec w)} (hlen : d.length = w) : (packBits d b).length = b := by
  rw [packBits, packLoop_length hb.le d (by omega), hlen, Nat.zero_add, Nat.mul_div_cancel_left b (by omega)]

/-- Settles O28: the words of the packer and the deltas are the digits of one number. -/
theorem packedLayoutIsContiguous : Obligations.PackedLayoutIsContiguous := by
  intro w b d hlen _ hb hd
  have hnumber := payloadNumber_packBits hb hlen hd
  refine ⟨packBits_length hb hlen, fun i j _ hj => ?bit, fun k _ => ?word⟩
  case bit =>
    rw [← testBit_payloadNumber (Nat.mod_lt _ (by omega)), Nat.div_add_mod', hnumber, testBit_payloadNumber_of_fits hd i hj]
  case word => rw [getD_eq_ofNat_payloadNumber, hnumber]

/-! ## Packing what was unpacked (41_bitpack R123) -/

theorem unpackBits_fits (hb : b ≤ w) (ws : List (BitVec w)) : ∀ x ∈ unpackBits ws b, x.toNat < 2 ^ b := by
  intro x hx
  obtain ⟨i, hi, rfl⟩ := List.mem_iff_getElem.1 hx
  rw [← List.getD_eq_getElem _ 0 hi, toNat_unpackBits_getD hb ws (by simpa using hi)]
  exact Nat.mod_lt _ (Nat.two_pow_pos b)

/-- Unpacking keeps the payload as one number. -/
theorem payloadNumber_unpackBits (hb : b ≤ w) {ws : List (BitVec w)} (hlen : ws.length = b) :
    payloadNumber b (unpackBits ws b) = payloadNumber w ws := by
  have hdigits : ∀ i < (unpackBits ws b).length,
      ((unpackBits ws b).getD i 0).toNat = payloadNumber w ws >>> (i * b) % 2 ^ b := fun i hi =>
    toNat_unpackBits_getD hb ws (by simpa using hi)
  have hbound := payloadNumber_mod_two_pow ws
  rw [hlen, Nat.mul_comm] at hbound
  rw [payloadNumber_eq_mod_of_digits hdigits, unpackBits_length, hbound]

/-- Every bit pattern of `b` words is a payload: both sides are the same number. -/
theorem packBits_unpackBits (hb : b < w) {ws : List (BitVec w)} (hlen : ws.length = b) :
    packBits (unpackBits ws b) b = ws := by
  have hcount := unpackBits_length ws b
  refine eq_of_payloadNumber_eq ((packBits_length hb hcount).trans hlen.symm) ?_
  rw [payloadNumber_packBits hb hcount (unpackBits_fits hb.le ws), payloadNumber_unpackBits hb.le hlen]

/-- Settles O29: packing and unpacking both keep the payload as one number. -/
theorem unpackBitsInvertsPackBits : Obligations.UnpackBitsInvertsPackBits := fun _ b _ hb =>
  ⟨fun ws hlen => ⟨unpackBits_length ws b, fun _ => toNat_unpackBits_getD hb.le ws, packBits_unpackBits hb hlen⟩,
    fun _ => unpackBits_packBits hb⟩

/-! ## A block at every width (41_bitpack R124, R126, R128) -/

/-- A payload of width `b` has `b` words. -/
theorem packBlock_length {c : BitVec w} {e out : List (BitVec w)} (hlen : e.length = w) (hmin : blockWidth c e ≤ b)
    (hb : b ≤ w) (h : packBlock c e b = .ok out) : out.length = b := by
  rw [packBlock_of_fits (blockWidth_le_iff.1 hmin), Except.ok.injEq] at h
  subst h
  split
  case isTrue hfull => rw [hlen, hfull]
  case isFalse hfull =>
    split
    case isTrue hzero => rw [List.length_nil, hzero]
    case isFalse => exact packBits_length (by omega) (by rw [deltas_length, hlen])

/-- 41_bitpack R124: the overflow is that of the first delta that does not fit. -/
theorem packBlock_of_overflow {c : BitVec w} {e : List (BitVec w)} (hb : b < w) {i : Nat} (hi : i < e.length)
    (hbig : 2 ^ b ≤ ((deltas c e).getD i 0).toNat) (hfirst : ∀ j < i, ((deltas c e).getD j 0).toNat < 2 ^ b) :
    packBlock c e b = .error (.overflow i) := by
  have hzero : ∀ d : BitVec w, (d >>> b != 0) = true ↔ 2 ^ b ≤ d.toNat := fun d => by
    rw [bne_iff_ne, ne_eq, ← BitVec.toNat_inj, BitVec.toNat_ushiftRight, Nat.shiftRight_eq_div_pow, BitVec.ofNat_eq_ofNat,
      BitVec.toNat_zero, Nat.div_eq_zero_iff_lt (Nat.two_pow_pos b), Nat.not_lt]
  have hi' : i < (deltas c e).length := by rwa [deltas_length]
  have hfind : (deltas c e).findIdx? (fun d : BitVec w => d >>> b != 0) = some i := by
    refine List.findIdx?_eq_some_iff_getElem.2 ⟨hi', ?_, fun j hj => ?_⟩
    · rwa [hzero, ← List.getD_eq_getElem _ 0 hi']
    · rw [hzero, Nat.not_le, ← List.getD_eq_getElem _ 0 (hj.trans hi')]
      exact hfirst j hj
  simp only [packBlock, if_neg hb.ne, hfind]

/-- 41_bitpack R128: below the estimate some delta does not fit, and the first of these overflows. -/
theorem exists_packBlock_eq_overflow {c : BitVec w} {e : List (BitVec w)} (hb : b < blockWidth c e) :
    ∃ i < e.length, packBlock c e b = .error (.overflow i) := by
  have hbig : ∃ i, 2 ^ b ≤ ((deltas c e).getD i 0).toNat := by
    have hnot := mt blockWidth_le_iff.2 (Nat.not_le.2 hb)
    push Not at hnot
    obtain ⟨d, hd, hge⟩ := hnot
    obtain ⟨i, hi, rfl⟩ := List.mem_iff_getElem.1 hd
    exact ⟨i, by rwa [List.getD_eq_getElem _ 0 hi]⟩
  have hi : Nat.find hbig < e.length := by
    by_contra hout
    have hzero := Nat.find_spec hbig
    rw [List.getD_eq_default _ _ (by rw [deltas_length]; omega)] at hzero
    simp at hzero
  exact ⟨_, hi, packBlock_of_overflow (hb.trans_le (blockWidth_le c e)) hi (Nat.find_spec hbig) fun j hj =>
    Nat.not_le.1 (Nat.find_min hbig hj)⟩

theorem readBlock_eq_block {s : State} (h : s.first + s.inst.W ≤ s.inst.elemSize) :
    readBlock s.inst s.first s.mem = .ok s.block := readCells_ok s.mem h

theorem exec_pack (b : Nat) (s : State) : exec (.pack b) s = execPack b s := rfl

/-- 41_bitpack R126: a block that does not pack is PACK's fault, before anything is written. -/
theorem exec_pack_of_packBlock_error {s : State} {r : Raise} (hb : b ≤ s.inst.W)
    (hin : s.first + s.inst.W ≤ s.inst.elemSize) (h : packBlock s.seed s.block b = .error r) :
    exec (.pack b) s = .next (s.raise r s.mem) := by
  rw [exec_pack, execPack, if_neg (Nat.not_lt.2 hb), readBlock_eq_block hin, Run.get_ok, h, Run.get_error,
    Run.finish_raised]

/-- Settles O30: from the estimate on every delta fits and the payload comes back; below it the first delta that does not
fit stops PACK. -/
theorem blockRoundTrips : Obligations.BlockRoundTrips := by
  refine ⟨fun w b c e hlen hmin hb => ?fits, fun s b hin hb => ?overflows⟩
  case fits =>
    obtain ⟨out, hpack, hunpack⟩ := exists_packBlock_eq_ok_and_unpackBlock_eq hlen hmin hb
    exact ⟨out, hpack, packBlock_length hlen hmin hb hpack, hunpack⟩
  case overflows =>
    obtain ⟨i, hi, hpack⟩ := exists_packBlock_eq_overflow hb
    have hwidth := blockWidth_le s.seed s.block
    exact ⟨i, by simpa [State.block] using hi, exec_pack_of_packBlock_error (by omega) hin hpack⟩

end Sys2Proof.Machine

/-! PROOF. The header of a group, and the runs of words and of elements that CINT and DINT read and write
(42_block_driver R141, R142, R145). -/

namespace Sys2Proof.Machine

open Sys2Proof

/-! ## The header (42_block_driver R141, R145) -/

/-- A header is a number to base 256 with the width of block 1 as its highest digit. -/
theorem header_eq_ofDigits (bs : List Nat) : header bs = Nat.ofDigits 256 bs.reverse := by
  induction bs with
  | nil => rfl
  | cons b bs ih =>
    rw [header, List.reverse_cons, Nat.ofDigits_append, Nat.ofDigits_singleton, List.length_reverse, Nat.shiftLeft_eq,
      Nat.mul_comm bs.length, Nat.pow_mul, ih]
    ring

theorem header_lt {bs : List Nat} (hbs : ∀ b ∈ bs, b < 256) : header bs < 256 ^ bs.length := by
  rw [header_eq_ofDigits, ← List.length_reverse]
  exact Nat.ofDigits_lt_base_pow_length (by decide) fun b hb => hbs b (List.mem_reverse.1 hb)

/-- Byte `j` of a header from the top is the width of block `j + 1`. -/
theorem header_digit {bs : List Nat} (hbs : ∀ b ∈ bs, b < 256) {j : Nat} (hj : j < bs.length) :
    header bs >>> ((bs.length - 1 - j) * 8) % 256 = bs[j] := by
  have hrev : ∀ b ∈ bs.reverse, b < 256 := fun b hb => hbs b (List.mem_reverse.1 hb)
  have hpos : bs.length - 1 - j < bs.reverse.length := by rw [List.length_reverse]; omega
  have hidx : bs.length - 1 - (bs.length - 1 - j) = j := by omega
  rw [header_eq_ofDigits, Nat.shiftRight_eq_div_pow, Nat.mul_comm, Nat.pow_mul,
    Nat.ofDigits_div_pow_eq_ofDigits_drop _ (by decide) _ hrev, List.drop_eq_getElem_cons hpos, Nat.ofDigits_cons,
    Nat.add_mul_mod_self_left, Nat.mod_eq_of_lt (hrev _ (List.getElem_mem hpos)), List.getElem_reverse]
  simp only [hidx]

theorem Instance.eight_mul_G (p : Instance) : 8 * p.G = p.W := by
  have := Instance.W_cases p
  rw [Instance.G]
  omega

/-- 42_block_driver R145: the header of the widths of a megablock or of a tail block gives them back. -/
theorem headerWidths_header {p : Instance} {k : Nat} (hk : k = p.G ∨ k = 1) {bs : List Nat} (hlen : bs.length = k)
    (hbs : ∀ b ∈ bs, b ≤ p.W) : headerWidths k (BitVec.ofNat p.W (header bs)) = bs := by
  have hW := Instance.W_cases p
  have hG := Instance.eight_mul_G p
  have hbyte : ∀ b ∈ bs, b < 256 := fun b hb => by have := hbs b hb; omega
  have hfits : header bs < 2 ^ p.W := calc
    header bs < 256 ^ bs.length := header_lt hbyte
    _ = 2 ^ (8 * k) := by rw [Nat.pow_mul, hlen]
    _ ≤ 2 ^ p.W := Nat.pow_le_pow_right (by decide) (by omega)
  have hword : (BitVec.ofNat p.W (header bs)).toNat = header bs := by
    rw [BitVec.toNat_ofNat, Nat.mod_eq_of_lt hfits]
  unfold headerWidths
  split
  case isTrue hone =>
    obtain ⟨b, rfl⟩ := List.length_eq_one_iff.1 (hlen.trans hone)
    rw [hword, header_singleton]
  case isFalse =>
    refine List.ext_getElem (by simp [hlen]) fun j _ hj => ?_
    simp only [List.getElem_map, List.getElem_range, BitVec.toNat_ushiftRight, hword, ← hlen]
    exact header_digit hbyte hj

/-! ## The words that stand in WORD -/

variable {p : Instance} {sp : Space} {w : Nat}

theorem readCells_cons_eq_ok {n i : Nat} {m : Spaces} {v : BitVec w} {vs : List (BitVec w)} :
    readCells p sp w (n + 1) i m = .ok (v :: vs) ↔
      (∃ x, memRead p sp i m = .ok x ∧ x.setWidth w = v) ∧ readCells p sp w n (i + 1) m = .ok vs := by
  rw [readCells]
  cases memRead p sp i m with
  | error r => simp
  | ok x => cases readCells p sp w n (i + 1) m <;> simp

theorem readCells_append_eq_ok {vs us : List (BitVec w)} {i : Nat} {m : Spaces} :
    readCells p sp w (vs ++ us).length i m = .ok (vs ++ us) ↔
      readCells p sp w vs.length i m = .ok vs ∧ readCells p sp w us.length (i + vs.length) m = .ok us := by
  induction vs generalizing i with
  | nil => simp [readCells]
  | cons v vs ih =>
    rw [List.cons_append, List.length_cons, List.length_cons, readCells_cons_eq_ok, readCells_cons_eq_ok, ih, and_assoc,
      show i + 1 + vs.length = i + (vs.length + 1) by omega]

theorem readCells_congr {m m' : Spaces} (h : ∀ j, m'.cell sp j = m.cell sp j) (n i : Nat) :
    readCells p sp w n i m' = readCells p sp w n i m := by
  induction n generalizing i with
  | zero => rfl
  | succ n ih => simp only [readCells, memRead, h, ih]

/-- Reads that complete give the cells, and lie inside the extent. -/
theorem eq_cells_of_readCells_eq_ok {n i : Nat} {m : Spaces} {vs : List (BitVec w)}
    (h : readCells p sp w n i m = .ok vs) : vs = m.cells sp w n i := by
  rcases Nat.eq_zero_or_pos n with rfl | hn
  · simpa [readCells, Spaces.cells, eq_comm] using h
  · rcases Nat.lt_or_ge (extentOf p sp) (i + n) with hout | hin
    · simp [readCells_error m hn hout] at h
    · simpa [readCells_ok m hin, eq_comm] using h

theorem writeCells_append (vs us : List (BitVec w)) (i : Nat) (m : Spaces) :
    writeCells p sp (vs ++ us) i m =
      (writeCells p sp vs i m).bind fun _ m' => writeCells p sp us (i + vs.length) m' := by
  induction vs generalizing i m with
  | nil => rfl
  | cons v vs ih =>
    rw [List.cons_append, writeCells, writeCells, List.length_cons]
    cases memWrite p sp i (v.setWidth 64) m with
    | error r => rfl
    | ok m' => rw [Run.get_ok, Run.get_ok, ih, show i + 1 + vs.length = i + (vs.length + 1) by omega]

/-- Writes that complete store the values, inside the extent. -/
theorem writeCells_eq_done {vs : List (BitVec w)} {i : Nat} {m m' : Spaces} (h : writeCells p sp vs i m = .done () m') :
    m' = m.store sp vs i ∧ (vs = [] ∨ i + vs.length ≤ extentOf p sp) := by
  rcases Nat.lt_or_ge (extentOf p sp) (i + vs.length) with hout | hin
  · by_cases hvs : vs = []
    · subst hvs
      exact ⟨by simpa [writeCells, Spaces.store, eq_comm] using h, .inl rfl⟩
    · simp [writeCells_raised m hvs hout] at h
  · exact ⟨by simpa [writeCells_done m hin, eq_comm] using h, .inr hin⟩

theorem Spaces.cells_add (m : Spaces) (sp : Space) (w n k i : Nat) :
    m.cells sp w (n + k) i = m.cells sp w n i ++ m.cells sp w k (i + n) := by
  simp [Spaces.cells, List.range_add, Function.comp_def, Nat.add_assoc]

theorem Spaces.cells_elem_congr {m m' : Spaces} (h : m'.elem = m.elem) (w n i : Nat) :
    m'.cells .elem w n i = m.cells .elem w n i :=
  Spaces.cells_congr fun j _ _ => by rw [Spaces.cell, Spaces.cell, h]

end Sys2Proof.Machine

/-! PROOF. What a completed CINT has done: it has written the packed stream of its full blocks at WPTR, one word for each
header and, for each block, as many as its width (42_block_driver R141 to R143). -/

namespace Sys2Proof.Machine

open Sys2Proof

variable {p : Instance} {w : Nat}

/-! ## The blocks of a range -/

/-- The `n` blocks of ELEM from index `i` on. -/
def Spaces.blocks (m : Spaces) (p : Instance) (n i : Nat) : List (List (BitVec p.W)) :=
  (List.range n).map fun g => m.cells .elem p.W p.W (i + g * p.W)

theorem State.blockList_eq (s : State) : s.blockList = s.mem.blocks s.inst s.blocks s.first := rfl

@[simp] theorem Spaces.blocks_length (m : Spaces) (p : Instance) (n i : Nat) : (m.blocks p n i).length = n := by
  simp [Spaces.blocks]

theorem Spaces.blocks_succ (m : Spaces) (p : Instance) (n i : Nat) :
    m.blocks p (n + 1) i = m.cells .elem p.W p.W i :: m.blocks p n (i + p.W) := by
  simp [Spaces.blocks, List.range_succ_eq_map, Function.comp_def, Nat.succ_mul, Nat.add_assoc, Nat.add_comm p.W]

theorem Spaces.blocks_add (m : Spaces) (p : Instance) (n k i : Nat) :
    m.blocks p (n + k) i = m.blocks p n i ++ m.blocks p k (i + n * p.W) := by
  simp [Spaces.blocks, List.range_add, Function.comp_def, Nat.add_mul, Nat.add_assoc]

theorem Spaces.blocks_take (m : Spaces) (p : Instance) {n k : Nat} (h : k ≤ n) (i : Nat) :
    (m.blocks p n i).take k = m.blocks p k i := by
  obtain ⟨d, rfl⟩ := Nat.exists_eq_add_of_le h
  rw [Spaces.blocks_add, List.take_left' (m.blocks_length p k i)]

theorem Spaces.blocks_drop (m : Spaces) (p : Instance) {n k : Nat} (h : k ≤ n) (i : Nat) :
    (m.blocks p n i).drop k = m.blocks p (n - k) (i + k * p.W) := by
  obtain ⟨d, rfl⟩ := Nat.exists_eq_add_of_le h
  rw [Spaces.blocks_add, List.drop_left' (m.blocks_length p k i), Nat.add_sub_cancel_left]

theorem Spaces.blocks_flatten (m : Spaces) (p : Instance) (n i : Nat) :
    (m.blocks p n i).flatten = m.cells .elem p.W (n * p.W) i := by
  induction n generalizing i with
  | zero => simp [Spaces.blocks, Spaces.cells]
  | succ n ih => rw [Spaces.blocks_succ, List.flatten_cons, ih, Nat.succ_mul, Nat.add_comm (n * p.W), Spaces.cells_add]

theorem Spaces.length_of_mem_blocks {m : Spaces} {n i : Nat} : ∀ e ∈ m.blocks p n i, e.length = p.W := by
  simp [Spaces.blocks]

@[simp] theorem State.blockList_length (s : State) : s.blockList.length = s.blocks := Spaces.blocks_length _ _ _ _

theorem State.length_of_mem_blockList (s : State) : ∀ e ∈ s.blockList, e.length = s.inst.W :=
  Spaces.length_of_mem_blocks

theorem Spaces.blocks_congr {m m' : Spaces} (h : m'.elem = m.elem) (p : Instance) (n i : Nat) :
    m'.blocks p n i = m.blocks p n i :=
  List.map_congr_left fun _ _ => Spaces.cells_elem_congr h _ _ _

theorem readBlocks_eq_ok {n i : Nat} {m : Spaces} {es : List (List (BitVec p.W))}
    (h : readBlocks p n i m = .ok es) : es = m.blocks p n i := by
  induction n generalizing i es with
  | zero => simpa [readBlocks, Spaces.blocks, eq_comm] using h
  | succ n ih =>
    rw [readBlocks] at h
    cases he : readBlock p i m with
    | error r => simp [he] at h
    | ok e =>
      cases hes : readBlocks p n (i + p.W) m with
      | error r => simp [he, hes] at h
      | ok rest =>
        rw [he, hes, Except.bind_ok, Except.bind_ok, Except.ok.injEq] at h
        rw [← h, Spaces.blocks_succ, eq_cells_of_readCells_eq_ok he, ih hes]

/-! ## The widths and the payloads of a list of blocks -/

@[simp] theorem carryAfterBlocks_nil (c : BitVec w) : carryAfterBlocks c [] = c := rfl

@[simp] theorem carryAfterBlocks_cons (c : BitVec w) (e : List (BitVec w)) (es : List (List (BitVec w))) :
    carryAfterBlocks c (e :: es) = carryAfterBlocks (carryAfter c e) es := by
  rw [carryAfterBlocks, List.flatten_cons, carryAfter_append, carryAfterBlocks]

theorem carryAfterBlocks_append (c : BitVec w) (es fs : List (List (BitVec w))) :
    carryAfterBlocks c (es ++ fs) = carryAfterBlocks (carryAfterBlocks c es) fs := by
  rw [carryAfterBlocks, List.flatten_append, carryAfter_append, carryAfterBlocks, carryAfterBlocks]

theorem groupWidths_append (c : BitVec w) (es fs : List (List (BitVec w))) :
    groupWidths c (es ++ fs) = groupWidths c es ++ groupWidths (carryAfterBlocks c es) fs := by
  induction es generalizing c with
  | nil => rfl
  | cons e es ih => rw [List.cons_append, groupWidths, ih, groupWidths, List.cons_append, carryAfterBlocks_cons]

theorem groupWidths_le (c : BitVec w) (es : List (List (BitVec w))) : ∀ b ∈ groupWidths c es, b ≤ w := by
  induction es generalizing c with
  | nil => simp [groupWidths]
  | cons e es ih => exact List.forall_mem_cons.2 ⟨blockWidth_le c e, ih _⟩

/-- A block has a payload at its own width, of that many words (41_bitpack R124, R129). -/
theorem exists_payload (c : BitVec w) {e : List (BitVec w)} (hlen : e.length = w) :
    ∃ out, packBlock c e (blockWidth c e) = .ok out ∧ out.length = blockWidth c e := by
  obtain ⟨out, hout, -⟩ := exists_packBlock_eq_ok_and_unpackBlock_eq hlen le_rfl (blockWidth_le c e)
  exact ⟨out, hout, packBlock_length hlen le_rfl (blockWidth_le c e) hout⟩

theorem payloads_cons {c : BitVec w} {e out : List (BitVec w)} (h : packBlock c e (blockWidth c e) = .ok out)
    (es : List (List (BitVec w))) : payloads c (e :: es) = out ++ payloads (carryAfter c e) es := by
  simp [payloads, h]

theorem payloads_length {c : BitVec w} {es : List (List (BitVec w))} (hlen : ∀ e ∈ es, e.length = w) :
    (payloads c es).length = (groupWidths c es).sum := by
  induction es generalizing c with
  | nil => rfl
  | cons e es ih =>
    obtain ⟨he, hes⟩ := List.forall_mem_cons.1 hlen
    obtain ⟨out, hout, hcount⟩ := exists_payload c he
    rw [payloads_cons hout, List.length_append, hcount, ih hes, groupWidths, List.sum_cons]

/-- One group: the header and the payloads of its blocks (42_block_driver R141). -/
def groupWords (c : BitVec w) (es : List (List (BitVec w))) : List (BitVec w) :=
  BitVec.ofNat w (header (groupWidths c es)) :: payloads c es

theorem groupStream_succ (k n : Nat) (c : BitVec w) (es : List (List (BitVec w))) :
    groupStream k (n + 1) c es =
      groupWords c (es.take k) ++ groupStream k n (carryAfterBlocks c (es.take k)) (es.drop k) := rfl

/-- The words of `n` groups: one for each header and, for each block, as many as its width. -/
theorem groupStream_length (k n : Nat) {c : BitVec w} {es : List (List (BitVec w))} (hlen : ∀ e ∈ es, e.length = w) :
    (groupStream k n c es).length = n + (groupWidths c (es.take (n * k))).sum := by
  induction n generalizing c es with
  | zero => simp [groupStream, groupWidths]
  | succ n ih =>
    rw [groupStream_succ, List.length_append, groupWords, List.length_cons,
      payloads_length fun e he => hlen e (List.mem_of_mem_take he), ih fun e he => hlen e (List.mem_of_mem_drop he),
      Nat.succ_mul, Nat.add_comm (n * k), List.take_add, groupWidths_append, List.sum_append]
    omega

/-! ## The run of CINT (42_block_driver R142) -/

/-- Write the words `ws` to WORD from index `q` on and end with the carry `c`. -/
def emit (p : Instance) (ws : List (BitVec p.W)) (q : Nat) (c : BitVec p.W) (m : Spaces) : Run (BitVec p.W × Nat) :=
  (writeCells p .word ws q m).bind fun _ m' => .done (c, q + ws.length) m'

theorem emit_eq_done {ws : List (BitVec p.W)} {q : Nat} {c : BitVec p.W} {m m' : Spaces} {r : BitVec p.W × Nat} :
    emit p ws q c m = .done r m' ↔ writeCells p .word ws q m = .done () m' ∧ r = (c, q + ws.length) := by
  rw [emit, Run.bind_eq_done]
  constructor
  · rintro ⟨_, m₁, hw, hr⟩
    injection hr with hr hm
    subst hm
    exact ⟨hw, hr.symm⟩
  · rintro ⟨hw, rfl⟩
    exact ⟨(), m', hw, rfl⟩

theorem emit_append_eq_done {us vs : List (BitVec p.W)} {q : Nat} {c₁ c : BitVec p.W} {m m₁ m' : Spaces}
    {r₁ r : BitVec p.W × Nat} (hu : emit p us q c₁ m = .done r₁ m₁) (hv : emit p vs r₁.2 c m₁ = .done r m') :
    emit p (us ++ vs) q c m = .done r m' := by
  obtain ⟨hus, rfl⟩ := emit_eq_done.1 hu
  obtain ⟨hvs, rfl⟩ := emit_eq_done.1 hv
  refine emit_eq_done.2 ⟨?_, by rw [List.length_append, Nat.add_assoc]⟩
  rw [writeCells_append, hus, Run.bind_done, hvs]

/-- 42_block_driver R142: packing blocks at their own widths writes their payloads one after another. -/
theorem packBlocks_eq_emit {c : BitVec p.W} {es : List (List (BitVec p.W))} (hlen : ∀ e ∈ es, e.length = p.W) (q : Nat)
    (m : Spaces) :
    packBlocks p c (es.zip (groupWidths c es)) q m = emit p (payloads c es) q (carryAfterBlocks c es) m := by
  induction es generalizing c q m with
  | nil => rfl
  | cons e es ih =>
    obtain ⟨he, hes⟩ := List.forall_mem_cons.1 hlen
    obtain ⟨out, hout, hcount⟩ := exists_payload c he
    rw [groupWidths, List.zip_cons_cons, packBlocks, hout, Run.get_ok, payloads_cons hout, carryAfterBlocks_cons, emit,
      writeCells_append, List.length_append]
    cases writeCells p .word out q m with
    | raised r m' => rfl
    | done _ m' => rw [Run.bind_done, Run.bind_done, ih hes, emit, hcount, Nat.add_assoc]

/-- 42_block_driver R142: a group that completes has written its words. -/
theorem compressGroup_eq_done {k i q : Nat} {c : BitVec p.W} {m m' : Spaces} {r : BitVec p.W × Nat}
    (h : compressGroup p k i q c m = .done r m') :
    emit p (groupWords c (m.blocks p k i)) q (carryAfterBlocks c (m.blocks p k i)) m = .done r m' := by
  rw [compressGroup, Run.get_eq_done] at h
  obtain ⟨es, hread, h⟩ := h
  obtain rfl := readBlocks_eq_ok hread
  rw [Run.bind_eq_done] at h
  obtain ⟨_, m₁, hheader, h⟩ := h
  rw [packBlocks_eq_emit Spaces.length_of_mem_blocks] at h
  exact emit_append_eq_done (us := [_]) (c₁ := c) (emit_eq_done.2 ⟨hheader, rfl⟩) h

/-- 42_block_driver R142: groups that complete have written their stream; `N` blocks hold the blocks of the groups. -/
theorem compressGroups_eq_done {k n N i q : Nat} {c : BitVec p.W} {m m' : Spaces} {r : BitVec p.W × Nat}
    (hN : n * k ≤ N) (h : compressGroups p k n i q c m = .done r m') :
    emit p (groupStream k n c (m.blocks p N i)) q (carryAfterBlocks c (m.blocks p (n * k) i)) m = .done r m' := by
  induction n generalizing N i q c m with
  | zero =>
    rw [compressGroups] at h
    simpa [emit, groupStream, writeCells, Spaces.blocks] using h
  | succ n ih =>
    rw [Nat.succ_mul] at hN
    have helem := (compressGroup_kept (keptBy_word m) k i q c m ⟨rfl, rfl⟩).1
    rw [compressGroups, Run.bind_eq_done] at h
    obtain ⟨r₁, m₁, hfirst, hrest⟩ := h
    rw [hfirst, Run.mem_done] at helem
    have hrest := ih (N := N - k) (by omega) hrest
    rw [Spaces.blocks_congr helem, Spaces.blocks_congr helem] at hrest
    have hfirst := compressGroup_eq_done hfirst
    obtain ⟨-, rfl⟩ := emit_eq_done.1 hfirst
    rw [groupStream_succ, Spaces.blocks_take m p (by omega), Spaces.blocks_drop m p (by omega), Nat.succ_mul,
      Nat.add_comm (n * k), Spaces.blocks_add, carryAfterBlocks_append]
    exact emit_append_eq_done hfirst hrest

/-! ## The end of CINT -/

@[simp] theorem faulted_raise (r : Raise) (m : Spaces) (s : State) : (s.raise r m).faulted = true := by
  rw [State.faulted, State.raise_status, faultStatus, BitVec.getLsbD_ofNat, Nat.testBit_eq_decide_div_mod_eq,
    Nat.shiftLeft_eq, Nat.shiftLeft_eq, Nat.shiftLeft_eq]
  simp only [Nat.reduceLT, decide_true, Bool.true_and, decide_eq_true_eq]
  omega

@[simp] theorem faulted_commit (r : Results) (m : Spaces) (s : State) : (s.commit r m).faulted = s.faulted := by
  rw [State.faulted, State.commit_status, clearBusy_getLsbD]
  exact Bool.and_true _

/-- A command that ends without a fault has completed. -/
theorem Run.finish_next_of_not_faulted {s t : State} {x : Run Results} (h : Run.finish s x = .next t)
    (ht : t.faulted = false) : ∃ r m, x = .done r m ∧ t = s.commit r m := by
  rcases Run.finish_next h with hdone | ⟨r, m, -, rfl⟩
  · exact hdone
  · simp at ht

theorem exec_cint (s : State) : exec .cint s = execCint s := rfl

theorem State.blocks_eq (s : State) : s.megablocks * s.inst.G + s.tailBlocks = s.blocks :=
  Nat.div_add_mod' s.blocks s.inst.G

/-- The blocks of the megablocks, before those of the tail (42_block_driver R140). -/
theorem State.blockList_take (s : State) :
    s.blockList.take (s.megablocks * s.inst.G) = s.mem.blocks s.inst (s.megablocks * s.inst.G) s.first :=
  Spaces.blocks_take _ _ (s.blocks_eq ▸ Nat.le_add_right _ _) _

theorem State.blockList_drop (s : State) :
    s.blockList.drop (s.megablocks * s.inst.G) = s.mem.blocks s.inst s.tailBlocks s.tailStart := by
  have hblocks := s.blocks_eq
  rw [State.blockList_eq, Spaces.blocks_drop _ _ (by omega), ← hblocks, Nat.add_sub_cancel_left, State.tailStart,
    Nat.mul_assoc]

theorem State.blockList_eq_append (s : State) :
    s.blockList = s.mem.blocks s.inst (s.megablocks * s.inst.G) s.first ++
      s.mem.blocks s.inst s.tailBlocks s.tailStart := by
  rw [← State.blockList_take, ← State.blockList_drop, List.take_append_drop]

/-- 42_block_driver R142: a completed CINT has written the packed stream at WPTR. -/
theorem exec_cint_completed {s t : State} (h : exec .cint s = .next t) (ht : t.faulted = false) :
    ∃ m, writeCells s.inst .word s.stream s.wordAt s.mem = .done () m ∧
      t = s.commit { res := s.stream.length
                     carry := some ((carryAfterBlocks s.seed s.blockList).setWidth 64) } m := by
  have hblocks := s.blocks_eq
  rw [exec_cint, execCint] at h
  obtain ⟨_, m, hrun, rfl⟩ := Run.finish_next_of_not_faulted h ht
  split at hrun
  case isTrue => cases hrun
  case isFalse =>
    rw [Run.bind_eq_done] at hrun
    obtain ⟨r₁, m₁, hmega, hrun⟩ := hrun
    rw [Run.bind_eq_done] at hrun
    obtain ⟨r₂, m₂, htail, hend⟩ := hrun
    have helem := (compressGroups_kept (keptBy_word s.mem) s.inst.G s.megablocks s.first s.wordAt s.seed s.mem
      ⟨rfl, rfl⟩).1
    rw [hmega, Run.mem_done] at helem
    have hmega := compressGroups_eq_done (N := s.blocks) (by omega) hmega
    obtain ⟨-, rfl⟩ := emit_eq_done.1 hmega
    have htail := compressGroups_eq_done (Nat.mul_one s.tailBlocks).le htail
    rw [Spaces.blocks_congr helem, Spaces.blocks_congr helem, Nat.mul_one, ← carryAfterBlocks_append,
      ← State.blockList_eq_append, ← State.blockList_drop, ← State.blockList_take] at htail
    obtain ⟨hwrite, rfl⟩ := emit_eq_done.1 (emit_append_eq_done hmega htail)
    injection hend with hresults hmem
    subst hresults hmem
    refine ⟨m₂, hwrite, ?_⟩
    rw [Nat.add_sub_cancel_left]
    rfl

/-! ## The length of the stream (42_block_driver R143) -/

theorem State.stream_length (s : State) :
    s.stream.length = s.megablocks + s.tailBlocks + s.widths.sum := by
  have hlen := s.length_of_mem_blockList
  have htail : (s.blockList.drop (s.megablocks * s.inst.G)).length ≤ s.tailBlocks * 1 := by
    rw [State.blockList_drop, Spaces.blocks_length, Nat.mul_one]
  have hwidths : s.widths.sum = (groupWidths s.seed (s.blockList.take (s.megablocks * s.inst.G))).sum +
      (groupWidths (carryAfterBlocks s.seed (s.blockList.take (s.megablocks * s.inst.G)))
        (s.blockList.drop (s.megablocks * s.inst.G))).sum := by
    rw [← List.sum_append, ← groupWidths_append, List.take_append_drop, State.widths]
  rw [State.stream, State.streamOf, List.length_append, groupStream_length _ _ hlen,
    groupStream_length _ _ fun e he => hlen e (List.mem_of_mem_drop he), List.take_of_length_le htail, hwidths]
  omega

theorem State.widths_sum_le (s : State) : s.widths.sum ≤ s.blocks * s.inst.W := by
  have hcount : s.widths.length = s.blocks := by
    rw [State.widths, groupWidths_length, State.blockList_length]
  have hsum := List.sum_le_card_nsmul _ _ (groupWidths_le s.seed s.blockList)
  rwa [← State.widths, hcount, smul_eq_mul] at hsum

/-- 42_block_driver R143, 44_capacity R181: the stream is no longer than Cap(n). -/
theorem State.stream_length_le_capacity (s : State) : s.stream.length ≤ capacity s.inst s.len := by
  have hsum := s.widths_sum_le
  have hcapacity : capacity s.inst s.len = s.blocks * s.inst.W + s.megablocks + s.tailBlocks := rfl
  rw [State.stream_length, hcapacity]
  omega

/-- 44_capacity R182: Cap(n) fits RES, in IDXW+1 bits. -/
theorem capacity_lt {p : Instance} {n : Nat} (hn : n < 2 ^ p.idxw) : capacity p n < 2 ^ (p.idxw + 1) := by
  have hG : 1 ≤ p.G := by
    have := Instance.W_cases p
    have := Instance.eight_mul_G p
    omega
  have hheaders : n / p.W / p.G + n / p.W % p.G ≤ n / p.W := by
    have hsplit := Nat.div_add_mod (n / p.W) p.G
    have hmul := Nat.le_mul_of_pos_left (n / p.W / p.G) hG
    omega
  have hle : n / p.W * p.W ≤ n := Nat.div_mul_le_self n p.W
  have hdiv : n / p.W ≤ n := Nat.div_le_self n p.W
  rw [capacity, Nat.pow_succ]
  omega

/-- The length of the stream fits RES. -/
theorem State.stream_length_lt {s : State} (hs : s.Sound) : s.stream.length < 2 ^ (s.inst.idxw + 1) := by
  obtain ⟨-, -, -, -, -, -, hlast, -, -⟩ := hs
  have hlen : s.len < 2 ^ s.inst.idxw := lt_of_le_of_lt (Nat.sub_le _ _) hlast
  exact s.stream_length_le_capacity.trans_lt (capacity_lt hlen)

theorem Instance.idxw_le {p : Instance} (h : p.legal = true) : p.idxw ≤ 62 := by
  simp only [Instance.legal, Bool.and_eq_true, decide_eq_true_eq] at h
  obtain ⟨⟨⟨⟨-, hidxw⟩, -⟩, -⟩, -⟩ := h
  exact hidxw

/-- Settles O38: RES is the length of the packed stream. -/
theorem cintLengthIsHeadersPlusWidths : Obligations.CintLengthIsHeadersPlusWidths := by
  intro s t hs _ hexec ht
  obtain ⟨m, -, rfl⟩ := exec_cint_completed hexec ht
  have hidxw := Instance.idxw_le hs.1
  have hres : (truncTo (s.inst.idxw + 1) s.stream.length).toNat = s.stream.length := by
    rw [truncTo_toNat _ (by omega), Nat.mod_eq_of_lt (State.stream_length_lt hs)]
  rw [State.commit_res, hres]
  refine ⟨s.stream_length, ?_, s.stream_length_le_capacity⟩
  rw [State.stream_length]
  exact Nat.le_add_right _ _

end Sys2Proof.Machine

/-! PROOF. DINT over the stream that CINT has written, with any carry (42_block_driver R145 to R147): up to the first block
of width W every element is off by the difference of the carries, and from that block on every element is exact. -/

namespace Sys2Proof.Machine

open Sys2Proof

variable {p : Instance} {w : Nat}

/-! ## A block decoded with another carry than it was packed with -/

/-- Undoing the delta chain from another carry moves every element by the difference of the carries. -/
theorem undelta_deltas_of_carry (c₀ c : BitVec w) (e : List (BitVec w)) :
    undelta c (deltas c₀ e) = e.map (· + (c - c₀)) := by
  induction e generalizing c₀ c with
  | nil => rfl
  | cons x xs ih =>
    have hx : c + (x - c₀) = x + (c - c₀) := by ring
    have hdiff : x + (c - c₀) - x = c - c₀ := by ring
    rw [deltas_cons, undelta_cons, hx, ih, hdiff, List.map_cons]

/-- The block `e`, packed with carry `c₀` and decoded with carry `c`: a block of width W holds its elements themselves. -/
def decodedBlock (c₀ c : BitVec w) (e : List (BitVec w)) : List (BitVec w) :=
  if blockWidth c₀ e = w then e else e.map (· + (c - c₀))

@[simp] theorem decodedBlock_length (c₀ c : BitVec w) (e : List (BitVec w)) :
    (decodedBlock c₀ c e).length = e.length := by
  unfold decodedBlock
  split <;> simp

@[simp] theorem decodedBlock_self (c : BitVec w) (e : List (BitVec w)) : decodedBlock c c e = e := by
  simp [decodedBlock]

/-- 41_bitpack R125: what UNPACK makes of a payload packed with another carry. -/
theorem unpackBlock_eq_decodedBlock (hw : 0 < w) {c₀ : BitVec w} {e out : List (BitVec w)} (hlen : e.length = w)
    (hout : packBlock c₀ e (blockWidth c₀ e) = .ok out) (c : BitVec w) :
    unpackBlock c out (blockWidth c₀ e) = decodedBlock c₀ c e := by
  have hfits := lt_two_pow_blockWidth c₀ e
  rw [packBlock_of_fits hfits, Except.ok.injEq] at hout
  subst hout
  by_cases hfull : blockWidth c₀ e = w
  case pos => rw [decodedBlock, unpackBlock, if_pos hfull, if_pos hfull, if_pos hfull, if_neg (by omega)]
  rw [decodedBlock, unpackBlock, if_neg hfull, if_neg hfull, if_neg hfull]
  by_cases hzero : blockWidth c₀ e = 0
  case pos =>
    have hall : e = List.replicate w c₀ := List.eq_replicate_iff.2 ⟨hlen, blockWidth_eq_zero_iff.1 hzero⟩
    have hcarry : c₀ + (c - c₀) = c := by ring
    rw [if_pos hzero]
    conv_rhs => rw [hall, List.map_replicate, hcarry]
  case neg =>
    have hlt := lt_of_le_of_ne (blockWidth_le c₀ e) hfull
    rw [if_neg hzero, if_neg hzero, unpackBits_packBits hlt (by rw [deltas_length, hlen]) hfits, undelta_deltas_of_carry]

/-! ## A list of blocks decoded with another carry -/

/-- Blocks packed with carry `c₀` and decoded with carry `c`, either carry running through them. -/
def decodedBlocks : BitVec w → BitVec w → List (List (BitVec w)) → List (List (BitVec w))
  | _, _, [] => []
  | c₀, c, e :: es => decodedBlock c₀ c e :: decodedBlocks (carryAfter c₀ e) (carryAfter c (decodedBlock c₀ c e)) es

theorem decodedBlocks_append (c₀ c : BitVec w) (es fs : List (List (BitVec w))) :
    decodedBlocks c₀ c (es ++ fs) = decodedBlocks c₀ c es ++
      decodedBlocks (carryAfterBlocks c₀ es) (carryAfterBlocks c (decodedBlocks c₀ c es)) fs := by
  induction es generalizing c₀ c with
  | nil => rfl
  | cons e es ih =>
    simp only [List.cons_append, decodedBlocks, ih, carryAfterBlocks_cons]

theorem decodedBlocks_flatten_length (c₀ c : BitVec w) {es : List (List (BitVec w))} (hlen : ∀ e ∈ es, e.length = w) :
    (decodedBlocks c₀ c es).flatten.length = es.length * w := by
  induction es generalizing c₀ c with
  | nil => simp [decodedBlocks]
  | cons e es ih =>
    obtain ⟨he, hes⟩ := List.forall_mem_cons.1 hlen
    rw [decodedBlocks, List.flatten_cons, List.length_append, decodedBlock_length, he, ih _ _ hes, List.length_cons,
      Nat.succ_mul, Nat.add_comm]

/-- 42_block_driver R147: with the same carry the blocks come back. -/
@[simp] theorem decodedBlocks_self (c : BitVec w) (es : List (List (BitVec w))) : decodedBlocks c c es = es := by
  induction es generalizing c with
  | nil => rfl
  | cons e es ih => rw [decodedBlocks, decodedBlock_self, ih]

theorem carryAfter_map_add (c d : BitVec w) (e : List (BitVec w)) :
    carryAfter (c + d) (e.map (· + d)) = carryAfter c e + d := by
  induction e generalizing c with
  | nil => rfl
  | cons x xs ih => rw [List.map_cons, carryAfter_cons, carryAfter_cons, ih]

/-- The carry after a block does not depend on the carry before it. -/
theorem carryAfter_of_length_pos (c₀ c : BitVec w) {e : List (BitVec w)} (h : 0 < e.length) :
    carryAfter c e = carryAfter c₀ e := by
  rw [carryAfter_eq_getD, carryAfter_eq_getD, if_neg h.ne', if_neg h.ne']

/-- 42_block_driver R147: the blocks before the first one of width W are off by the difference of the carries, and the
rest are exact. -/
theorem decodedBlocks_eq (hw : 0 < w) {c₀ : BitVec w} (c : BitVec w) {es : List (List (BitVec w))}
    (hlen : ∀ e ∈ es, e.length = w) :
    decodedBlocks c₀ c es =
      (es.take ((groupWidths c₀ es).takeWhile (· ≠ w)).length).map (List.map (· + (c - c₀))) ++
        es.drop ((groupWidths c₀ es).takeWhile (· ≠ w)).length := by
  induction es generalizing c₀ c with
  | nil => rfl
  | cons e es ih =>
    obtain ⟨he, hes⟩ := List.forall_mem_cons.1 hlen
    rw [decodedBlocks, groupWidths]
    by_cases hfull : blockWidth c₀ e = w
    case pos =>
      rw [decodedBlock, if_pos hfull, carryAfter_of_length_pos c₀ c (by omega), decodedBlocks_self,
        List.takeWhile_cons_of_neg (by simpa using hfull)]
      simp
    case neg =>
      have hcarry : carryAfter c (e.map (· + (c - c₀))) = carryAfter c₀ e + (c - c₀) := by
        rw [← carryAfter_map_add, add_sub_cancel]
      have hdiff : carryAfter c₀ e + (c - c₀) - carryAfter c₀ e = c - c₀ := by ring
      rw [decodedBlock, if_neg hfull, hcarry, ih _ hes, hdiff, List.takeWhile_cons_of_pos (by simpa using hfull)]
      simp

/-! ## The run of DINT over a stream of CINT (42_block_driver R145, R146) -/

/-- The words `ws` stand in WORD from index `r` on. -/
def Spaces.HoldsAt (m : Spaces) (p : Instance) (ws : List (BitVec p.W)) (r : Nat) : Prop :=
  readCells p .word p.W ws.length r m = .ok ws

theorem Spaces.holdsAt_append {m : Spaces} {vs us : List (BitVec p.W)} {r : Nat} :
    m.HoldsAt p (vs ++ us) r ↔ m.HoldsAt p vs r ∧ m.HoldsAt p us (r + vs.length) := readCells_append_eq_ok

theorem Spaces.holdsAt_cons {m : Spaces} {v : BitVec p.W} {vs : List (BitVec p.W)} {r : Nat} :
    m.HoldsAt p (v :: vs) r ↔
      (∃ x, memRead p .word r m = .ok x ∧ x.setWidth p.W = v) ∧ m.HoldsAt p vs (r + 1) := readCells_cons_eq_ok

/-- What DINT writes to ELEM leaves the words alone. -/
theorem Spaces.holdsAt_store_elem {m : Spaces} {us ws : List (BitVec p.W)} {r : Nat} (h : m.HoldsAt p ws r) (i : Nat) :
    (m.store .elem us i).HoldsAt p ws r := by
  unfold Spaces.HoldsAt
  rwa [readCells_congr fun j => Spaces.cell_store_other us m (.inl (by decide))]

/-- Writes to WORD that complete leave their words there. -/
theorem Spaces.holdsAt_of_writeCells {m m' : Spaces} (hm : m.within p) {ws : List (BitVec p.W)} {q : Nat}
    (h : writeCells p .word ws q m = .done () m') : m'.HoldsAt p ws q := by
  have hW := Instance.W_cases p
  obtain ⟨rfl, rfl | hin⟩ := writeCells_eq_done h
  · rfl
  · have hread := Spaces.cells_store_same hm hin (Nat.le_refl p.W) (by omega)
    rw [Spaces.HoldsAt, readCells_ok _ hin, hread]

/-- Unpacking the payloads of blocks inside ELEM writes the blocks as decoded. -/
theorem unpackBlocks_payloads {c₀ c : BitVec p.W} {es : List (List (BitVec p.W))} (hlen : ∀ e ∈ es, e.length = p.W)
    {i r : Nat} {m : Spaces} (hwords : m.HoldsAt p (payloads c₀ es) r) (hin : i + es.length * p.W ≤ p.elemSize) :
    unpackBlocks p (groupWidths c₀ es) i r c m =
      .done (carryAfterBlocks c (decodedBlocks c₀ c es), r + (payloads c₀ es).length)
        (m.store .elem (decodedBlocks c₀ c es).flatten i) := by
  induction es generalizing c₀ c i r m with
  | nil => rfl
  | cons e es ih =>
    have hW : 0 < p.W := by have := Instance.W_cases p; omega
    obtain ⟨he, hes⟩ := List.forall_mem_cons.1 hlen
    obtain ⟨out, hout, hcount⟩ := exists_payload c₀ he
    rw [payloads_cons hout, Spaces.holdsAt_append] at hwords
    obtain ⟨hread, hwords⟩ := hwords
    rw [Spaces.HoldsAt, hcount] at hread
    rw [List.length_cons, Nat.succ_mul] at hin
    have hblock : (decodedBlock c₀ c e).length = p.W := by rw [decodedBlock_length, he]
    have hwrite : writeBlock p (decodedBlock c₀ c e) i m = .done () (m.store .elem (decodedBlock c₀ c e) i) :=
      writeCells_done m (by rw [hblock]; change _ ≤ p.elemSize; omega)
    rw [hcount] at hwords
    rw [groupWidths, unpackBlocks, if_neg (Nat.not_lt.2 (blockWidth_le c₀ e)), hread, Run.get_ok,
      unpackBlock_eq_decodedBlock hW he hout, hwrite, Run.bind_done,
      ih hes (Spaces.holdsAt_store_elem hwords i) (by omega), payloads_cons hout, decodedBlocks, carryAfterBlocks_cons,
      List.flatten_cons, Spaces.store_append, hblock, List.length_append, hcount, Nat.add_assoc]

/-- 42_block_driver R145, R146: one group, a megablock or a tail block. -/
theorem decompressGroup_groupWords {k : Nat} (hk : k = p.G ∨ k = 1) {c₀ : BitVec p.W} (c : BitVec p.W)
    {es : List (List (BitVec p.W))} (hes : es.length = k) (hlen : ∀ e ∈ es, e.length = p.W) {i r : Nat} {m : Spaces}
    (hwords : m.HoldsAt p (groupWords c₀ es) r) (hin : i + k * p.W ≤ p.elemSize) :
    decompressGroup p k i r c m =
      .done (carryAfterBlocks c (decodedBlocks c₀ c es), r + (groupWords c₀ es).length)
        (m.store .elem (decodedBlocks c₀ c es).flatten i) := by
  rw [groupWords, Spaces.holdsAt_cons] at hwords
  obtain ⟨⟨x, hread, hx⟩, hwords⟩ := hwords
  rw [decompressGroup, hread, Run.get_ok, hx,
    headerWidths_header hk (by rw [groupWidths_length, hes]) (groupWidths_le c₀ es),
    unpackBlocks_payloads hlen hwords (hes ▸ hin), groupWords, List.length_cons, Nat.add_assoc, Nat.add_comm 1]

/-- 42_block_driver R146: `n` groups. -/
theorem decompressGroups_groupStream {k : Nat} (hk : k = p.G ∨ k = 1) {n : Nat} {c₀ c : BitVec p.W}
    {es : List (List (BitVec p.W))} (hes : n * k ≤ es.length) (hlen : ∀ e ∈ es, e.length = p.W) {i r : Nat} {m : Spaces}
    (hwords : m.HoldsAt p (groupStream k n c₀ es) r) (hin : i + n * k * p.W ≤ p.elemSize) :
    decompressGroups p k n i r c m =
      .done (carryAfterBlocks c (decodedBlocks c₀ c (es.take (n * k))), r + (groupStream k n c₀ es).length)
        (m.store .elem (decodedBlocks c₀ c (es.take (n * k))).flatten i) := by
  induction n generalizing c₀ c es i r m with
  | zero => simp [decompressGroups, groupStream, decodedBlocks, Spaces.store]
  | succ n ih =>
    rw [Nat.succ_mul] at hes
    rw [Nat.succ_mul, Nat.add_mul] at hin
    have hfirst : (es.take k).length = k := List.length_take_of_le (by omega)
    have hlenTake : ∀ e ∈ es.take k, e.length = p.W := fun e he => hlen e (List.mem_of_mem_take he)
    have hwritten := decodedBlocks_flatten_length c₀ c hlenTake
    rw [hfirst] at hwritten
    rw [groupStream_succ, Spaces.holdsAt_append] at hwords
    obtain ⟨hgroup, hrest⟩ := hwords
    rw [decompressGroups, decompressGroup_groupWords hk c hfirst hlenTake hgroup (by omega), Run.bind_done,
      ih (by rw [List.length_drop]; omega) (fun e he => hlen e (List.mem_of_mem_drop he))
        (Spaces.holdsAt_store_elem hrest i) (by omega),
      groupStream_succ, List.length_append, Nat.add_assoc, Nat.succ_mul, Nat.add_comm (n * k), List.take_add,
      decodedBlocks_append, carryAfterBlocks_append, List.flatten_append, Spaces.store_append, hwritten]

/-! ## The end of DINT -/

theorem exec_dint (s : State) : exec .dint s = execDint s := rfl

/-- 42_block_driver R141: the stream of `g` megablocks of `k` blocks and of `n` tail blocks. -/
def packedStream (k g n : Nat) (c : BitVec w) (es : List (List (BitVec w))) : List (BitVec w) :=
  groupStream k g c es ++ groupStream 1 n (carryAfterBlocks c (es.take (g * k))) (es.drop (g * k))

theorem State.stream_eq (s : State) :
    s.stream = packedStream s.inst.G s.megablocks s.tailBlocks s.seed s.blockList := rfl

/-- 42_block_driver R146: DINT over the packed stream of as many blocks as its range has, inside ELEM. -/
theorem exec_dint_of_packedStream {u : State} (hpos : u.first < u.last) (hwhole : u.len % u.inst.W = 0)
    (hin : u.last ≤ u.inst.elemSize) {c₀ : BitVec u.inst.W} {es : List (List (BitVec u.inst.W))}
    (hes : es.length = u.blocks) (hlen : ∀ e ∈ es, e.length = u.inst.W)
    (hwords : u.mem.HoldsAt u.inst (packedStream u.inst.G u.megablocks u.tailBlocks c₀ es) u.wordAt) :
    exec .dint u = .next (u.commit
      { res := (packedStream u.inst.G u.megablocks u.tailBlocks c₀ es).length
        carry := some ((carryAfterBlocks u.seed (decodedBlocks c₀ u.seed es)).setWidth 64) }
      (u.mem.store .elem (decodedBlocks c₀ u.seed es).flatten u.first)) := by
  have hblocks := u.blocks_eq
  have hrange : u.blocks * u.inst.W = u.last - u.first := Nat.div_mul_cancel (Nat.dvd_of_mod_eq_zero hwhole)
  rw [← hblocks, Nat.add_mul] at hrange
  have hstart : u.tailStart = u.first + u.megablocks * u.inst.G * u.inst.W := by rw [State.tailStart, Nat.mul_assoc]
  obtain ⟨hmega, htail⟩ := Spaces.holdsAt_append.1 hwords
  have hcount : (es.drop (u.megablocks * u.inst.G)).length = u.tailBlocks * 1 := by
    rw [List.length_drop]
    omega
  have hwritten := decodedBlocks_flatten_length c₀ u.seed fun e he =>
    hlen e (List.mem_of_mem_take (i := u.megablocks * u.inst.G) he)
  rw [List.length_take_of_le (by omega)] at hwritten
  have hsplit := decodedBlocks_append c₀ u.seed (es.take (u.megablocks * u.inst.G))
    (es.drop (u.megablocks * u.inst.G))
  rw [List.take_append_drop] at hsplit
  have htailIn : u.tailStart + u.tailBlocks * 1 * u.inst.W ≤ u.inst.elemSize := by
    rw [Nat.mul_one]
    omega
  rw [exec_dint, execDint, if_neg (by omega),
    decompressGroups_groupStream (.inl rfl) (by omega) hlen hmega (by omega), Run.bind_done,
    decompressGroups_groupStream (.inr rfl) hcount.ge (fun e he => hlen e (List.mem_of_mem_drop he))
      (Spaces.holdsAt_store_elem htail _) htailIn,
    Run.bind_done, Run.finish_done, List.take_of_length_le hcount.le, hsplit, carryAfterBlocks_append,
    List.flatten_append, Spaces.store_append, hwritten, ← hstart, packedStream, List.length_append, Nat.add_assoc,
    Nat.add_sub_cancel_left]

/-! ## The elements (42_block_driver R147) -/

theorem decodedBlocks_flatten_getElem {c₀ c : BitVec p.W} {m : Spaces} {n i j : Nat}
    (hj : j < (decodedBlocks c₀ c (m.blocks p n i)).flatten.length) :
    (decodedBlocks c₀ c (m.blocks p n i)).flatten[j] = (m.cell .elem (i + j)).setWidth p.W +
      if j < ((groupWidths c₀ (m.blocks p n i)).takeWhile (· ≠ p.W)).length * p.W then c - c₀ else 0 := by
  have hW : 0 < p.W := by have := Instance.W_cases p; omega
  have hle := (List.takeWhile_sublist (· ≠ p.W) (l := groupWidths c₀ (m.blocks p n i))).length_le
  rw [groupWidths_length, Spaces.blocks_length] at hle
  have hflat := congrArg List.flatten
    (decodedBlocks_eq hW (c₀ := c₀) c (Spaces.length_of_mem_blocks (m := m) (n := n) (i := i)))
  rw [List.flatten_append, ← List.map_flatten, Spaces.blocks_take _ _ hle, Spaces.blocks_drop _ _ hle,
    Spaces.blocks_flatten, Spaces.blocks_flatten] at hflat
  simp only [hflat, List.getElem_append, List.length_map, Spaces.cells_length]
  split
  case isTrue => rw [List.getElem_map, Spaces.cells_getElem]
  case isFalse hge =>
    rw [Spaces.cells_getElem, add_zero]
    congr 2
    omega

/-! ## The round trip (42_block_driver R147) -/

/-- The state `t` with another carry and the range of `n` elements from index `dst` on. -/
def State.retarget (t : State) (c : BitVec 64) (dst n : Nat) : State :=
  { t with carry := c, eptr := BitVec.ofNat 64 dst, eend := BitVec.ofNat 64 (dst + n) }

@[simp] theorem State.retarget_faulted (t : State) (c : BitVec 64) (dst n : Nat) :
    (t.retarget c dst n).faulted = t.faulted := rfl

theorem State.retarget_first (t : State) (c : BitVec 64) {dst n : Nat} (h : dst + n < 2 ^ 64) :
    (t.retarget c dst n).first = dst := Nat.mod_eq_of_lt (by omega)

theorem State.retarget_last (t : State) (c : BitVec 64) {dst n : Nat} (h : dst + n < 2 ^ 64) :
    (t.retarget c dst n).last = dst + n := Nat.mod_eq_of_lt h

theorem State.retarget_len (t : State) (c : BitVec 64) {dst n : Nat} (h : dst + n < 2 ^ 64) :
    (t.retarget c dst n).len = n := by
  rw [State.len, State.retarget_first t c h, State.retarget_last t c h, Nat.add_sub_cancel_left]

theorem Instance.elemSize_lt {p : Instance} (h : p.legal = true) : p.elemSize < 2 ^ 64 := by
  have hidxw := Instance.idxw_le h
  have hpow : 2 ^ p.idxw ≤ 2 ^ 62 := Nat.pow_le_pow_right (by decide) hidxw
  simp only [Instance.legal, Bool.and_eq_true, decide_eq_true_eq] at h
  obtain ⟨⟨⟨-, helem⟩, -⟩, -⟩ := h
  omega

/-- 42_block_driver R147: DINT over what CINT has written, with the carry `c` and the range of as many elements from
index `dst` on. -/
theorem exec_dint_retarget_of_cint {s : State} {m : Spaces} (r : Results) {c : BitVec 64} {dst : Nat}
    (hs : s.Sound) (hpos : s.first < s.last) (hwhole : s.len % s.inst.W = 0) (hdst : dst + s.len ≤ s.inst.elemSize)
    (hwrite : writeCells s.inst .word s.stream s.wordAt s.mem = .done () m) :
    exec .dint ((s.commit r m).retarget c dst s.len) = .next (((s.commit r m).retarget c dst s.len).commit
      { res := s.stream.length
        carry := some ((carryAfterBlocks (c.setWidth s.inst.W)
          (decodedBlocks s.seed (c.setWidth s.inst.W) s.blockList)).setWidth 64) }
      (m.store .elem (decodedBlocks s.seed (c.setWidth s.inst.W) s.blockList).flatten dst)) := by
  obtain ⟨hlegal, hwithin, -⟩ := hs
  have hfits : dst + s.len < 2 ^ 64 := hdst.trans_lt (Instance.elemSize_lt hlegal)
  have hfirst := State.retarget_first (s.commit r m) c hfits
  have hlast := State.retarget_last (s.commit r m) c hfits
  have hlen := State.retarget_len (s.commit r m) c hfits
  have hblocks : ((s.commit r m).retarget c dst s.len).blocks = s.blocks := congrArg (· / s.inst.W) hlen
  have hmega : ((s.commit r m).retarget c dst s.len).megablocks = s.megablocks := congrArg (· / s.inst.G) hblocks
  have htail : ((s.commit r m).retarget c dst s.len).tailBlocks = s.tailBlocks := congrArg (· % s.inst.G) hblocks
  have hcount : 0 < s.len := Nat.sub_pos_of_lt hpos
  have hdint := exec_dint_of_packedStream (u := (s.commit r m).retarget c dst s.len) (c₀ := s.seed)
    (es := s.blockList) (by omega) (by rw [hlen]; exact hwhole) (by rw [hlast]; exact hdst)
    (by rw [hblocks]; exact s.blockList_length) s.length_of_mem_blockList
    (by rw [hmega, htail]; exact Spaces.holdsAt_of_writeCells hwithin hwrite)
  rw [State.stream_eq]
  rwa [hmega, htail, hfirst] at hdint

/-- Settles O42: DINT finds the stream of CINT at WPTR, and decodes it with the carry `c`: a block that holds deltas takes
the difference of the carries over from the block before it, a block of width W ends it. -/
theorem integratedCodecRoundTrips : Obligations.IntegratedCodecRoundTrips := by
  intro s t dst c hs hfault hpos hwhole hexec ht hdst _
  obtain ⟨m, hwrite, rfl⟩ := exec_cint_completed hexec ht
  refine ⟨_, exec_dint_retarget_of_cint _ hs hpos hwhole hdst hwrite, ?_⟩
  obtain ⟨-, hwithin, -⟩ := hs
  have hW := Instance.W_cases s.inst
  obtain ⟨rfl, -⟩ := writeCells_eq_done hwrite
  have hstored := writeCells_within (sp := .word) s.stream s.wordAt hwithin (Nat.le_refl _)
  rw [hwrite, Run.mem_done] at hstored
  have hcount : (decodedBlocks s.seed (c.setWidth s.inst.W) s.blockList).flatten.length = s.len := by
    rw [decodedBlocks_flatten_length _ _ s.length_of_mem_blockList, State.blockList_length, State.blocks,
      Nat.div_mul_cancel (Nat.dvd_of_mod_eq_zero hwhole)]
  refine ⟨by simpa using hfault, rfl, ?carry, fun j hj => ?element, fun i hi => ?other⟩
  case carry =>
    rintro rfl
    exact congrArg (BitVec.setWidth 64 <| carryAfterBlocks s.seed ·) (decodedBlocks_self s.seed s.blockList)
  case element =>
    have hin : dst + (decodedBlocks s.seed (c.setWidth s.inst.W) s.blockList).flatten.length ≤
        extentOf s.inst .elem := by rwa [hcount]
    rw [State.commit_mem, Spaces.cell_store_same _ hstored hin (Nat.le_refl _) (hj.trans_eq hcount.symm),
      BitVec.setWidth_setWidth_of_le _ (by omega), BitVec.setWidth_eq]
    exact decodedBlocks_flatten_getElem _
  case other =>
    rw [State.commit_mem, Spaces.cell_store_other _ _ (.inr (by rwa [hcount])),
      Spaces.cell_store_other _ _ (.inl (by decide))]

end Sys2Proof.Machine

/-! PROOF. The bytes of a varint and what the decoder makes of them (43_varbyte R160 to R163): the decoder adds up the
groups of seven bits that the encoder has cut the value into, and the flags tell it where to stop. -/

namespace Sys2Proof.Machine

open Sys2Proof

variable {w : Nat} {p : Instance} {m : Spaces}

/-! ## The length of a varint (43_varbyte R161) -/

/-- KMAX-1 groups of seven bits do not hold a value, and eight more bits do (90_conflicts C4). -/
theorem Width.kmax_bounds (wd : Width) :
    5 ≤ wd.kmax ∧ wd.kmax ≤ 9 ∧ 7 * (wd.kmax - 1) < wd.bits ∧ wd.bits ≤ 7 * (wd.kmax - 1) + 8 := by
  cases wd <;> decide

theorem Instance.kmax_bounds (p : Instance) :
    5 ≤ p.kmax ∧ p.kmax ≤ 9 ∧ 7 * (p.kmax - 1) < p.W ∧ p.W ≤ 7 * (p.kmax - 1) + 8 := Width.kmax_bounds p.width

theorem shiftRight_eq_zero_iff {v : BitVec w} {k : Nat} : v >>> k = 0#w ↔ v.toNat < 2 ^ k := by
  rw [← BitVec.toNat_inj, BitVec.toNat_ushiftRight, Nat.shiftRight_eq_div_pow, BitVec.toNat_zero,
    Nat.div_eq_zero_iff_lt (Nat.two_pow_pos k)]

/-- 43_varbyte R161: the length is the least number of groups of seven bits that hold the value, below KMAX. -/
theorem varLen_le_iff {kmax k : Nat} (hk : 1 ≤ k) (hlt : k < kmax) (v : BitVec w) :
    varLen kmax v ≤ k ↔ v.toNat < 2 ^ (7 * k) := by
  unfold varLen
  cases hfind : (List.range' 1 (kmax - 1)).find? fun j => v >>> (7 * j) == 0 with
  | none =>
    have hbig := List.find?_range'_eq_none.1 hfind k hk (by omega)
    have hne : ¬ v.toNat < 2 ^ (7 * k) := by rw [← shiftRight_eq_zero_iff]; simpa using hbig
    simp only [Option.getD_none, hne, iff_false]
    omega
  | some j =>
    obtain ⟨hj, -, hmin⟩ := List.find?_range'_eq_some.1 hfind
    have hfits : v.toNat < 2 ^ (7 * j) := shiftRight_eq_zero_iff.1 (by simpa using hj)
    rw [Option.getD_some]
    refine ⟨fun hle => hfits.trans_le (Nat.pow_le_pow_right (by decide) (by omega)), fun hv => ?_⟩
    by_contra hgt
    have hzero := shiftRight_eq_zero_iff.2 hv
    simpa [hzero] using hmin k hk (by omega)

theorem one_le_varLen (wd : Width) (v : BitVec wd.bits) : 1 ≤ varLen wd.kmax v :=
  (varLen_le wd.kmax (by have := Width.kmax_bounds wd; omega) v).1

theorem varLen_le_kmax (wd : Width) (v : BitVec wd.bits) : varLen wd.kmax v ≤ wd.kmax :=
  (varLen_le wd.kmax (by have := Width.kmax_bounds wd; omega) v).2

theorem varEncode_length_eq (wd : Width) (v : BitVec wd.bits) : (varEncode wd.kmax v).length = varLen wd.kmax v := by
  rw [varEncode_length, Nat.sub_add_cancel (one_le_varLen wd v)]

theorem Instance.one_le_varLen (v : BitVec p.W) : 1 ≤ varLen p.kmax v := Machine.one_le_varLen p.width v

theorem Instance.varLen_le_kmax (v : BitVec p.W) : varLen p.kmax v ≤ p.kmax := Machine.varLen_le_kmax p.width v

theorem Instance.varEncode_length_eq (v : BitVec p.W) : (varEncode p.kmax v).length = varLen p.kmax v :=
  Machine.varEncode_length_eq p.width v

/-! ## The bytes of a varint (43_varbyte R161) -/

theorem toNat_and_low7 (x : Byte) : (x &&& 0x7F#8).toNat = x.toNat % 128 := by
  rw [BitVec.toNat_and]
  exact Nat.and_two_pow_sub_one_eq_mod x.toNat 7

theorem toNat_low7_or_flag (x : Byte) : (x &&& 0x7F#8 ||| 0x80#8).toNat = x.toNat % 128 + 128 := by
  have hlow : x.toNat % 128 < 2 ^ 7 := Nat.mod_lt _ (by decide)
  rw [BitVec.toNat_or, toNat_and_low7, Nat.or_comm, Nat.add_comm]
  exact (Nat.two_pow_add_eq_or_of_lt hlow 1).symm

/-- The flag of a byte (43_varbyte R160). -/
theorem getLsbD_seven (x : Byte) : x.getLsbD 7 = decide (128 ≤ x.toNat) := by
  rw [BitVec.getLsbD, Nat.testBit_eq_decide_div_mod_eq, decide_eq_decide]
  have := x.isLt
  omega

/-- 43_varbyte R161: a byte that is not the last. -/
theorem varEncode_getD_of_lt {kmax : Nat} {v : BitVec w} {j : Nat} (hj : j + 1 < varLen kmax v) :
    ((varEncode kmax v).getD j 0).toNat = v.toNat / 2 ^ (7 * j) % 128 + 128 := by
  have hj' : j < varLen kmax v - 1 := by omega
  rw [varEncode, List.getD_append _ _ _ _ (by simpa using hj'), List.getD_eq_getElem _ _ (by simpa using hj')]
  rw [List.getElem_map, List.getElem_range, toNat_low7_or_flag, BitVec.toNat_setWidth, BitVec.toNat_ushiftRight,
    Nat.shiftRight_eq_div_pow, Nat.mod_mod_of_dvd _ (by decide)]

/-- What remains of a value for the last byte of its varint, below KMAX bytes. -/
theorem div_two_pow_lt_of_varLen_lt {kmax : Nat} {v : BitVec w} (hpos : 1 ≤ varLen kmax v) (h : varLen kmax v < kmax) :
    v.toNat / 2 ^ (7 * (varLen kmax v - 1)) < 128 := by
  have hfits := (varLen_le_iff hpos h v).1 le_rfl
  rw [Nat.div_lt_iff_lt_mul (Nat.two_pow_pos _), show 128 = 2 ^ 7 by rfl, ← Nat.pow_add]
  rwa [show 7 + 7 * (varLen kmax v - 1) = 7 * varLen kmax v by omega]

/-- 43_varbyte R161: the last byte holds all that remains. -/
theorem varEncode_getD_last (wd : Width) (v : BitVec wd.bits) :
    ((varEncode wd.kmax v).getD (varLen wd.kmax v - 1) 0).toNat = v.toNat / 2 ^ (7 * (varLen wd.kmax v - 1)) := by
  have hrest : v.toNat / 2 ^ (7 * (varLen wd.kmax v - 1)) < 2 ^ 8 := by
    rcases (varLen_le_kmax wd v).lt_or_eq with hlt | heq
    · exact (div_two_pow_lt_of_varLen_lt (one_le_varLen wd v) hlt).trans (by decide)
    · obtain ⟨-, -, -, hbits⟩ := Width.kmax_bounds wd
      rw [heq, Nat.div_lt_iff_lt_mul (Nat.two_pow_pos _), ← Nat.pow_add]
      exact v.isLt.trans_le (Nat.pow_le_pow_right (by decide) (by omega))
  rw [varEncode, List.getD_append_right _ _ _ _ (by simp)]
  simp only [List.length_map, List.length_range, Nat.sub_self, List.getD_cons_zero, BitVec.toNat_setWidth,
    BitVec.toNat_ushiftRight, Nat.shiftRight_eq_div_pow]
  exact Nat.mod_eq_of_lt hrest

/-- Settles O45: the length is the least one that holds the value, and each byte is cut out of the value. -/
theorem varintBytesCarrySevenBits : Obligations.VarintBytesCarrySevenBits := fun wd v =>
  ⟨varEncode_length_eq wd v, one_le_varLen wd v, varLen_le_kmax wd v, fun _ hk hlt => varLen_le_iff hk hlt v,
    fun _ => varEncode_getD_of_lt, varEncode_getD_last wd v, fun hlt => by
      rw [varEncode_getD_last]
      exact div_two_pow_lt_of_varLen_lt (one_le_varLen wd v) hlt⟩

/-! ## What the decoder reads (43_varbyte R162) -/

/-- A cell of BYTE holds a byte. -/
@[simp] theorem Spaces.toNat_setWidth_cell_byte (m : Spaces) (i : Nat) :
    ((m.cell .byte i).setWidth 8).toNat = (m.cell .byte i).toNat := by
  rw [Spaces.cell, BitVec.setWidth_setWidth_of_le _ (by decide), BitVec.setWidth_eq, BitVec.toNat_setWidth,
    Nat.mod_eq_of_lt ((Memory.read m.byte i).isLt.trans (by decide))]

@[simp] theorem Spaces.getLsbD_setWidth_cell_byte (m : Spaces) (i : Nat) :
    ((m.cell .byte i).setWidth 8).getLsbD 7 = (m.cell .byte i).getLsbD 7 := by
  rw [BitVec.getLsbD, BitVec.getLsbD, Spaces.toNat_setWidth_cell_byte]

/-- The bytes from BYTE index `bp` on that the decoder looks at are `n`: up to the first without the flag, at most
KMAX. -/
structure Spaces.VarintSpan (m : Spaces) (p : Instance) (bp n : Nat) : Prop where
  pos : 1 ≤ n
  le : n ≤ p.kmax
  flag : ∀ j, j + 1 < n → (m.cell .byte (bp + j)).getLsbD 7 = true
  stop : n = p.kmax ∨ (m.cell .byte (bp + (n - 1))).getLsbD 7 = false

theorem Spaces.exists_varintSpan (m : Spaces) (p : Instance) (bp : Nat) : ∃ n, m.VarintSpan p bp n := by
  have hkmax := Instance.kmax_bounds p
  have hex : ∃ n, 1 ≤ n ∧ (n = p.kmax ∨ (m.cell .byte (bp + (n - 1))).getLsbD 7 = false) :=
    ⟨p.kmax, by omega, .inl rfl⟩
  obtain ⟨hpos, hstop⟩ := Nat.find_spec hex
  refine ⟨Nat.find hex, hpos, Nat.find_min' hex ⟨by omega, .inl rfl⟩, fun j hj => ?_, hstop⟩
  have hmin := Nat.find_min hex hj
  simp only [Nat.add_sub_cancel, true_and, not_or, Bool.not_eq_false, Nat.le_add_left] at hmin
  exact hmin.2

/-- The value bits of byte `j` of a varint: seven of them, all eight of byte KMAX-1 (43_varbyte R162). -/
def byteGroup (p : Instance) (m : Spaces) (bp j : Nat) : Nat :=
  if j = p.kmax - 1 then (m.cell .byte (bp + j)).toNat else (m.cell .byte (bp + j)).toNat % 128

/-- The groups of the first `n` bytes, each at its place (43_varbyte R162). -/
def groupSum (p : Instance) (m : Spaces) (bp n : Nat) : Nat :=
  ((List.range n).map fun j => byteGroup p m bp j <<< (7 * j)).sum

theorem groupSum_succ (p : Instance) (m : Spaces) (bp n : Nat) :
    groupSum p m bp (n + 1) = groupSum p m bp n + 2 ^ (7 * n) * byteGroup p m bp n := by
  rw [groupSum, List.sum_range_succ, Nat.shiftLeft_eq, Nat.mul_comm, groupSum]

/-- Before byte KMAX-1 the groups do not overlap. -/
theorem groupSum_lt {bp n : Nat} (hn : n ≤ p.kmax - 1) : groupSum p m bp n < 2 ^ (7 * n) := by
  induction n with
  | zero => simp [groupSum]
  | succ n ih =>
    have hgroup : byteGroup p m bp n < 128 := by
      rw [byteGroup, if_neg (by omega)]
      exact Nat.mod_lt _ (by decide)
    have hpow : 2 ^ (7 * (n + 1)) = 2 ^ (7 * n) * 128 := by rw [Nat.mul_succ, Nat.pow_add]
    have hmul := Nat.mul_le_mul_left (2 ^ (7 * n)) (Nat.le_of_lt_succ hgroup)
    have := ih (by omega)
    rw [groupSum_succ, hpow]
    omega

/-- What the decoder ORs in for byte `n` is its group, at its place. -/
theorem decoder_accumulates {bp n : Nat} (hn : n ≤ p.kmax - 1) :
    (if n < p.kmax - 1 then
        BitVec.ofNat p.W (groupSum p m bp n) |||
          ((m.cell .byte (bp + n)).setWidth 8 &&& 0x7F#8).setWidth p.W <<< (7 * n)
      else BitVec.ofNat p.W (groupSum p m bp n) ||| ((m.cell .byte (bp + n)).setWidth 8).setWidth p.W <<< (7 * n)) =
      BitVec.ofNat p.W (groupSum p m bp (n + 1)) := by
  have hor : groupSum p m bp (n + 1) = groupSum p m bp n ||| byteGroup p m bp n * 2 ^ (7 * n) := by
    rw [groupSum_succ, Nat.add_comm, Nat.two_pow_add_eq_or_of_lt (groupSum_lt hn), Nat.or_comm, Nat.mul_comm]
  have hplace (x : Byte) : BitVec.ofNat p.W (x.toNat * 2 ^ (7 * n)) = x.setWidth p.W <<< (7 * n) := by
    rw [← BitVec.toNat_inj, BitVec.toNat_ofNat, BitVec.toNat_shiftLeft, BitVec.toNat_setWidth, Nat.shiftLeft_eq,
      Nat.mod_mul_mod]
  rw [hor, BitVec.ofNat_or, byteGroup, ← Spaces.toNat_setWidth_cell_byte]
  split
  case isTrue hlt => rw [if_neg (by omega), ← toNat_and_low7, hplace]
  case isFalse hge => rw [if_pos (by omega), hplace]

/-- One turn of the decoder's loop: byte `n`, the flag of the byte before it set. -/
theorem varDecodeLoop_of_flag {bp n : Nat} (hn : 1 ≤ n) (hkmax : n < p.kmax)
    (hflag : (m.cell .byte (bp + (n - 1))).getLsbD 7 = true) :
    varDecodeLoop p bp m (p.kmax - n) ((m.cell .byte (bp + (n - 1))).setWidth 8) n
        (BitVec.ofNat p.W (groupSum p m bp n)) =
      (memRead p .byte (bp + n) m).bind fun _ =>
        varDecodeLoop p bp m (p.kmax - (n + 1)) ((m.cell .byte (bp + n)).setWidth 8) (n + 1)
          (BitVec.ofNat p.W (groupSum p m bp (n + 1))) := by
  rw [show p.kmax - n = p.kmax - (n + 1) + 1 by omega, varDecodeLoop, Spaces.getLsbD_setWidth_cell_byte, if_pos hflag]
  rcases Nat.lt_or_ge (bp + n) (extentOf p .byte) with hin | hout
  · rw [memRead_of_lt m hin, Except.bind_ok, Except.bind_ok, ← decoder_accumulates (by omega)]
  · rw [memRead_of_ge m hout, Except.bind_error, Except.bind_error]

/-- The loop stops after the last byte of the span. -/
theorem varDecodeLoop_of_stop {bp n : Nat} (hspan : m.VarintSpan p bp n) (acc : BitVec p.W) :
    varDecodeLoop p bp m (p.kmax - n) ((m.cell .byte (bp + (n - 1))).setWidth 8) n acc = .ok (acc, n) := by
  rcases hspan.stop with hfull | hflag
  · rw [hfull, Nat.sub_self, varDecodeLoop]
  · cases p.kmax - n with
    | zero => rw [varDecodeLoop]
    | succ fuel =>
      rw [varDecodeLoop, Spaces.getLsbD_setWidth_cell_byte, if_neg (Bool.eq_false_iff.1 hflag)]

/-- The loop from byte `k` on: the rest of the span, or the end of BYTE in it. -/
theorem varDecodeLoop_eq {bp n k : Nat} (hspan : m.VarintSpan p bp n) (hk : 1 ≤ k) (hkn : k ≤ n)
    (hread : bp + k ≤ p.byteSize) :
    varDecodeLoop p bp m (p.kmax - k) ((m.cell .byte (bp + (k - 1))).setWidth 8) k
        (BitVec.ofNat p.W (groupSum p m bp k)) =
      if bp + n ≤ p.byteSize then .ok (BitVec.ofNat p.W (groupSum p m bp n), n)
      else .error (.access .byte p.byteSize) := by
  induction hkn using Nat.decreasingInduction with
  | self => rw [varDecodeLoop_of_stop hspan, if_pos hread]
  | of_succ k hlt ih =>
    have hle := hspan.le
    rw [varDecodeLoop_of_flag hk (by omega) (hspan.flag (k - 1) (by omega))]
    rcases Nat.lt_or_ge (bp + k) p.byteSize with hin | hend
    · rw [memRead_of_lt m hin, Except.bind_ok]
      exact ih (by omega) hin
    · rw [memRead_of_ge m hend, Except.bind_error, if_neg (by omega), Nat.le_antisymm hread hend]

/-- The first byte, before the loop (43_varbyte R162). -/
theorem varDecode_eq_loop {bp : Nat} (h : bp < p.byteSize) :
    varDecode p bp m = varDecodeLoop p bp m (p.kmax - 1) ((m.cell .byte (bp + (1 - 1))).setWidth 8) 1
      (BitVec.ofNat p.W (groupSum p m bp 1)) := by
  have hfirst : groupSum p m bp 1 = ((m.cell .byte bp).setWidth 8 &&& 0x7F#8).toNat := by
    have hkmax := Instance.kmax_bounds p
    rw [toNat_and_low7, Spaces.toNat_setWidth_cell_byte]
    simp [groupSum, byteGroup, show 0 ≠ p.kmax - 1 by omega]
  rw [varDecode, memRead_of_lt m h, Except.bind_ok, hfirst, BitVec.ofNat_toNat]
  rfl

/-- 43_varbyte R162: the decoder gives the groups of the span, when it lies inside BYTE. -/
theorem varDecode_eq {bp n : Nat} (hspan : m.VarintSpan p bp n) : varDecode p bp m =
    if bp + n ≤ p.byteSize then .ok (BitVec.ofNat p.W (groupSum p m bp n), n)
    else .error (.access .byte (max bp p.byteSize)) := by
  have hpos := hspan.pos
  rcases Nat.lt_or_ge bp p.byteSize with hlt | hge
  · rw [varDecode_eq_loop hlt, varDecodeLoop_eq hspan le_rfl hpos hlt, Nat.max_eq_right hlt.le]
  · rw [varDecode, memRead_of_ge m hge, Except.bind_error, if_neg (by omega), Nat.max_eq_left hge]

theorem varDecode_ok {bp n : Nat} (hspan : m.VarintSpan p bp n) (hin : bp + n ≤ p.byteSize) :
    varDecode p bp m = .ok (BitVec.ofNat p.W (groupSum p m bp n), n) := by
  rw [varDecode_eq hspan, if_pos hin]

theorem varDecode_error {bp n : Nat} (hspan : m.VarintSpan p bp n) (hout : p.byteSize < bp + n) :
    varDecode p bp m = .error (.access .byte (max bp p.byteSize)) := by
  rw [varDecode_eq hspan, if_neg (Nat.not_le.2 hout)]

/-- Settles O46: the loop adds the group of each byte of the span, and reads each byte of it. -/
theorem varDecodeReadsUpToTheFlag : Obligations.VarDecodeReadsUpToTheFlag := fun _ _ _ _ hpos hle hflag hstop =>
  have hspan : Spaces.VarintSpan _ _ _ _ := ⟨hpos, hle, hflag, hstop⟩
  ⟨varDecode_ok hspan, varDecode_error hspan⟩

/-- What a decoder that answers has read: a whole span, inside BYTE. -/
theorem varDecode_eq_ok {bp n : Nat} {v : BitVec p.W} (h : varDecode p bp m = .ok (v, n)) :
    m.VarintSpan p bp n ∧ bp + n ≤ p.byteSize ∧ v = BitVec.ofNat p.W (groupSum p m bp n) := by
  obtain ⟨k, hspan⟩ := m.exists_varintSpan p bp
  rw [varDecode_eq hspan] at h
  split at h
  case isTrue hin =>
    rw [Except.ok.injEq, Prod.mk.injEq] at h
    obtain ⟨rfl, rfl⟩ := h
    exact ⟨hspan, hin, rfl⟩
  case isFalse => cases h

/-- The decoder's only fault. -/
theorem varDecode_eq_error {bp : Nat} {r : Raise} (h : varDecode p bp m = .error r) :
    r = .access .byte (max bp p.byteSize) := by
  obtain ⟨k, hspan⟩ := m.exists_varintSpan p bp
  rw [varDecode_eq hspan] at h
  split at h <;> cases h
  rfl

/-! ## Decoding the bytes of a value (43_varbyte R163) -/

theorem Spaces.getLsbD_cell_byte (m : Spaces) (i : Nat) :
    (m.cell .byte i).getLsbD 7 = decide (128 ≤ (m.cell .byte i).toNat) := by
  rw [← Spaces.getLsbD_setWidth_cell_byte, getLsbD_seven, Spaces.toNat_setWidth_cell_byte]

/-- The cells that hold the first `n` of the bytes `ys`. -/
theorem Spaces.toNat_cell_of_cells_eq_take {ys : List Byte} {bp n j : Nat} (h : m.cells .byte 8 n bp = ys.take n)
    (hj : j < n) : (m.cell .byte (bp + j)).toNat = (ys.getD j 0).toNat := by
  have hlen : n = min n ys.length := by simpa using congrArg List.length h
  have hbyte : (m.cells .byte 8 n bp)[j]? = (ys.take n)[j]? := by rw [h]
  rw [List.getElem?_eq_getElem (by simpa using hj), List.getElem?_take_of_lt hj, List.getElem?_eq_getElem (by omega),
    Option.some.injEq, Spaces.cells_getElem] at hbyte
  rw [List.getD_eq_getElem _ _ (by omega), ← hbyte, Spaces.toNat_setWidth_cell_byte]

/-- Every byte of a varint but its last has the flag (43_varbyte R161). -/
theorem flag_of_cells_eq_take {kmax bp n j : Nat} {v : BitVec w} (h : m.cells .byte 8 n bp = (varEncode kmax v).take n)
    (hj : j < n) (hlast : j + 1 < varLen kmax v) : (m.cell .byte (bp + j)).getLsbD 7 = true := by
  rw [Spaces.getLsbD_cell_byte, Spaces.toNat_cell_of_cells_eq_take h hj, varEncode_getD_of_lt hlast, decide_eq_true_eq]
  exact Nat.le_add_left _ _

section

variable {v : BitVec p.W} {bp : Nat}
  (hcells : m.cells .byte 8 (varLen p.kmax v) bp = (varEncode p.kmax v).take (varLen p.kmax v))

include hcells

theorem toNat_cell_last_of_cells_eq :
    (m.cell .byte (bp + (varLen p.kmax v - 1))).toNat = v.toNat / 2 ^ (7 * (varLen p.kmax v - 1)) := by
  have hpos := Instance.one_le_varLen v
  rw [Spaces.toNat_cell_of_cells_eq_take hcells (by omega), varEncode_getD_last p.width v]

/-- The decoder reads the bytes of a value to their end. -/
theorem varintSpan_of_cells_eq : m.VarintSpan p bp (varLen p.kmax v) := by
  have hpos := Instance.one_le_varLen v
  have hle := Instance.varLen_le_kmax v
  refine ⟨hpos, hle, fun j hj => flag_of_cells_eq_take hcells (by omega) hj, hle.eq_or_lt.imp_right fun hlt => ?_⟩
  rw [Spaces.getLsbD_cell_byte, toNat_cell_last_of_cells_eq hcells, decide_eq_false_iff_not, Nat.not_le]
  exact div_two_pow_lt_of_varLen_lt hpos hlt

theorem groupSum_of_cells_eq_of_lt {n : Nat} (hn : n < varLen p.kmax v) :
    groupSum p m bp n = v.toNat % 2 ^ (7 * n) := by
  have hle := Instance.varLen_le_kmax v
  induction n with
  | zero => simp [groupSum, Nat.mod_one]
  | succ n ih =>
    have hgroup : byteGroup p m bp n = v.toNat / 2 ^ (7 * n) % 128 := by
      rw [byteGroup, if_neg (by omega), Spaces.toNat_cell_of_cells_eq_take hcells (by omega), varEncode_getD_of_lt hn,
        Nat.add_mod_right, Nat.mod_mod]
    rw [groupSum_succ, ih (by omega), hgroup, Nat.mul_succ, Nat.pow_add, Nat.mod_mul]

/-- The groups of a value, each at its place, make up the value. -/
theorem groupSum_of_cells_eq : groupSum p m bp (varLen p.kmax v) = v.toNat := by
  have hpos := Instance.one_le_varLen v
  have hle := Instance.varLen_le_kmax v
  have hlast : byteGroup p m bp (varLen p.kmax v - 1) = v.toNat / 2 ^ (7 * (varLen p.kmax v - 1)) := by
    rw [byteGroup, toNat_cell_last_of_cells_eq hcells]
    split
    · rfl
    · exact Nat.mod_eq_of_lt (div_two_pow_lt_of_varLen_lt hpos (by omega))
  have hsum := groupSum_succ p m bp (varLen p.kmax v - 1)
  rw [groupSum_of_cells_eq_of_lt hcells (n := varLen p.kmax v - 1) (by omega), hlast, Nat.mod_add_div,
    Nat.sub_add_cancel hpos] at hsum
  exact hsum

end

/-- 43_varbyte R163: decoding the bytes of a value gives the value and their count. -/
theorem varDecode_of_cells_eq {v : BitVec p.W} {bp : Nat} (hin : bp + (varEncode p.kmax v).length ≤ p.byteSize)
    (hcells : m.cells .byte 8 (varEncode p.kmax v).length bp = varEncode p.kmax v) :
    varDecode p bp m = .ok (v, (varEncode p.kmax v).length) := by
  have hlen := Instance.varEncode_length_eq v
  have hbytes : m.cells .byte 8 (varLen p.kmax v) bp = (varEncode p.kmax v).take (varLen p.kmax v) := by
    rw [← hlen, hcells, List.take_length]
  rw [hlen] at hin ⊢
  rw [varDecode_ok (varintSpan_of_cells_eq hbytes) hin, groupSum_of_cells_eq hbytes, BitVec.ofNat_toNat,
    BitVec.setWidth_eq]

/-- 43_varbyte R163: where BYTE ends inside a varint, the decoder runs out of bytes. -/
theorem varDecode_of_cells_eq_take {v : BitVec p.W} {bp n : Nat} (hn : n < (varEncode p.kmax v).length)
    (hend : p.byteSize = bp + n) (hcells : m.cells .byte 8 n bp = (varEncode p.kmax v).take n) :
    varDecode p bp m = .error (.access .byte (bp + n)) := by
  rw [Instance.varEncode_length_eq v] at hn
  have hle := Instance.varLen_le_kmax v
  obtain ⟨k, hspan⟩ := m.exists_varintSpan p bp
  have hbeyond : n < k := by
    by_contra hkn
    have hpos := hspan.pos
    have hflag := flag_of_cells_eq_take hcells (j := k - 1) (by omega) (by omega)
    rcases hspan.stop with hfull | hstop
    · omega
    · rw [hstop] at hflag
      cases hflag
  rw [varDecode_error hspan (by omega), hend, Nat.max_eq_right (Nat.le_add_right _ _)]

/-- 43_varbyte R163: no shorter byte string decodes to the value. -/
theorem varLen_le_of_varDecode_eq_ok {v : BitVec p.W} {bp n : Nat} (h : varDecode p bp m = .ok (v, n)) :
    varLen p.kmax v ≤ n := by
  obtain ⟨hspan, -, rfl⟩ := varDecode_eq_ok h
  rcases hspan.le.eq_or_lt with rfl | hlt
  · exact Instance.varLen_le_kmax _
  · rw [varLen_le_iff hspan.pos hlt, BitVec.toNat_ofNat]
    exact (Nat.mod_le _ _).trans_lt (groupSum_lt (by omega))

/-- Settles O47: the decoder takes out of each byte the group that was put in, and stops where the flags say. -/
theorem varintsDecodeUniquely : Obligations.VarintsDecodeUniquely := by
  intro p v
  have hlen : (varEncode p.kmax v).length = varLen p.kmax v := Instance.varEncode_length_eq v
  refine ⟨?bounds, fun m bp hin hcells => varDecode_of_cells_eq hin hcells,
    fun m bp n hn hend hcells => varDecode_of_cells_eq_take hn hend hcells, fun m bp n h => ?minimal⟩
  case bounds =>
    rw [hlen]
    exact ⟨Instance.one_le_varLen v, Instance.varLen_le_kmax v⟩
  case minimal =>
    rw [hlen]
    exact varLen_le_of_varDecode_eq_ok h

end Sys2Proof.Machine

/-! PROOF. WRVAR and RDVAR: one varint at BPTR, written or read (43_varbyte R164, R165). -/

namespace Sys2Proof.Machine

open Sys2Proof

variable {p : Instance} {m : Spaces} {w : Nat}

/-! ## The bytes that WRVAR writes -/

theorem Instance.byteSize_lt {p : Instance} (h : p.legal = true) : p.byteSize < 2 ^ p.idxw := by
  have hpos := Nat.two_pow_pos p.idxw
  simp only [Instance.legal, Bool.and_eq_true, decide_eq_true_eq] at h
  obtain ⟨-, hbyte⟩ := h
  omega

/-- An index of BYTE and a count that ends inside BYTE fit BPTR and RES. -/
theorem truncTo_of_le_byteSize {p : Instance} (h : p.legal = true) {v : Nat} (hv : v ≤ p.byteSize) :
    truncTo (p.idxw + 1) v = BitVec.ofNat 64 v ∧ truncTo p.idxw v = BitVec.ofNat 64 v := by
  have hlt : v < 2 ^ p.idxw := hv.trans_lt (Instance.byteSize_lt h)
  exact ⟨truncTo_of_lt (hlt.trans (Nat.pow_lt_pow_succ (by decide))), truncTo_of_lt hlt⟩

/-- Storing to BYTE changes nothing but BYTE. -/
theorem Spaces.store_byte_eq (vs : List (BitVec w)) (i : Nat) (m : Spaces) :
    { m with byte := (m.store .byte vs i).byte } = m.store .byte vs i := by
  change Spaces.mk m.elem m.word _ = Spaces.mk (m.store .byte vs i).elem (m.store .byte vs i).word _
  rw [Spaces.store_byte_elem, Spaces.store_byte_word]

/-- The bytes stored inside BYTE stand there. -/
theorem Spaces.cells_store_byte (hm : m.within p) {ys : List Byte} {i : Nat} (hin : i + ys.length ≤ p.byteSize) :
    (m.store .byte ys i).cells .byte 8 ys.length i = ys :=
  Spaces.cells_store_same hm hin (Nat.le_refl 8) (by decide)

/-- The bytes stored below the end of BYTE stand there. -/
theorem Spaces.cells_store_byte_take (hm : m.within p) {ys : List Byte} {i : Nat} (hout : p.byteSize < i + ys.length) :
    (m.store .byte (ys.take (p.byteSize - i)) i).cells .byte 8 (p.byteSize - i) i = ys.take (p.byteSize - i) := by
  rcases Nat.le_total p.byteSize i with hge | hlt
  · rw [Nat.sub_eq_zero_of_le hge]
    rfl
  · have hlen : (ys.take (p.byteSize - i)).length = p.byteSize - i := List.length_take_of_le (by omega)
    have hstored := Spaces.cells_store_byte hm (ys := ys.take (p.byteSize - i)) (i := i) (by omega)
    rwa [hlen] at hstored

/-! ## WRVAR -/

theorem exec_wrvar (s : State) : exec .wrvar s = execWrvar s := rfl

/-- 43_varbyte R164: the varint lies inside BYTE. -/
theorem exec_wrvar_completed {s : State} (h : s.byteAt + (varEncode s.inst.kmax s.value).length ≤ s.inst.byteSize) :
    exec .wrvar s = .next (s.commit
      { res := (varEncode s.inst.kmax s.value).length
        bptr := some (s.byteAt + (varEncode s.inst.kmax s.value).length) }
      (s.mem.store .byte (varEncode s.inst.kmax s.value) s.byteAt)) := by
  rw [exec_wrvar, execWrvar, writeCells_done _ h, Run.bind_done, Run.finish_done]

/-- 43_varbyte R164: the varint leaves BYTE. -/
theorem exec_wrvar_raised {s : State} (h : s.inst.byteSize < s.byteAt + (varEncode s.inst.kmax s.value).length) :
    exec .wrvar s = .next (s.raise (.access .byte (max s.byteAt s.inst.byteSize))
      (s.mem.store .byte ((varEncode s.inst.kmax s.value).take (s.inst.byteSize - s.byteAt)) s.byteAt)) := by
  have hne : varEncode s.inst.kmax s.value ≠ [] := by
    rw [← List.length_pos_iff, Instance.varEncode_length_eq]
    exact Instance.one_le_varLen s.value
  rw [exec_wrvar, execWrvar, writeCells_raised _ hne h, Run.bind_raised, Run.finish_raised]
  rfl

/-- Settles O48: the run of writes stores the bytes of the varint, or those below the end of BYTE. -/
theorem wrvarAppendsOneVarint : Obligations.WrvarAppendsOneVarint := by
  refine ⟨rfl, rfl, fun s hs => ?_⟩
  obtain ⟨hlegal, hwithin, -⟩ := hs
  refine ⟨fun hin => ⟨_, exec_wrvar_completed hin, ?frame, Spaces.cells_store_byte hwithin hin, fun i hi => ?other⟩,
    fun hout => ⟨_, exec_wrvar_raised hout, (Spaces.store_byte_eq _ _ _).symm,
      Spaces.cells_store_byte_take hwithin hout, fun i hi => ?kept⟩⟩
  case frame =>
    obtain ⟨hres, -⟩ := truncTo_of_le_byteSize hlegal (Nat.le_of_add_left_le hin)
    obtain ⟨-, hbptr⟩ := truncTo_of_le_byteSize hlegal hin
    simp only [State.commit, hres, hbptr, Spaces.store_byte_eq, Option.map_some, Option.getD_some, Option.getD_none]
  case other => exact Spaces.cell_store_other _ _ (.inr hi)
  case kept =>
    refine Spaces.cell_store_other _ _ (.inr ?_)
    rw [List.length_take]
    omega

/-! ## RDVAR -/

theorem exec_rdvar (s : State) : exec .rdvar s = execRdvar s := rfl

/-- 43_varbyte R165: the varint lies inside BYTE. -/
theorem exec_rdvar_of_varDecode_ok {s : State} (hlegal : s.inst.legal = true) {v : BitVec s.inst.W} {n : Nat}
    (h : varDecode s.inst s.byteAt s.mem = .ok (v, n)) :
    exec .rdvar s = .next { s with
      val := v.setWidth 64
      res := BitVec.ofNat 64 n
      bptr := BitVec.ofNat 64 (s.byteAt + n)
      status := clearBusy s.status } := by
  obtain ⟨-, hin, -⟩ := varDecode_eq_ok h
  obtain ⟨hres, -⟩ := truncTo_of_le_byteSize hlegal (Nat.le_of_add_left_le hin)
  obtain ⟨-, hbptr⟩ := truncTo_of_le_byteSize hlegal hin
  rw [exec_rdvar, execRdvar, h, Run.get_ok, Run.finish_done]
  simp only [State.commit, hres, hbptr, Option.map_some, Option.getD_some, Option.getD_none]

/-- 43_varbyte R165: the varint leaves BYTE. -/
theorem exec_rdvar_of_varDecode_error {s : State} {r : Raise} (h : varDecode s.inst s.byteAt s.mem = .error r) :
    exec .rdvar s = .next (s.raise r s.mem) := by
  rw [exec_rdvar, execRdvar, h, Run.get_error, Run.finish_raised]

/-- 43_varbyte R165, the worked example: AC 02 is 300. -/
theorem varDecode_AC_02 {bp : Nat} (h0 : (m.cell .byte bp).toNat = 0xAC) (h1 : (m.cell .byte (bp + 1)).toNat = 0x02)
    (hin : bp + 2 ≤ p.byteSize) : varDecode p bp m = .ok (300#p.W, 2) := by
  have hkmax := Instance.kmax_bounds p
  have hspan : m.VarintSpan p bp 2 := by
    refine ⟨by decide, by omega, fun j hj => ?_, .inr ?_⟩
    · obtain rfl : j = 0 := by omega
      rw [Spaces.getLsbD_cell_byte, Nat.add_zero, h0]
      rfl
    · rw [Spaces.getLsbD_cell_byte, h1]
      rfl
  have hfirst : byteGroup p m bp 0 = 44 := by simp [byteGroup, h0, show 0 ≠ p.kmax - 1 by omega]
  have hsecond : byteGroup p m bp 1 = 2 := by simp [byteGroup, h1, show 1 ≠ p.kmax - 1 by omega]
  have hsum : groupSum p m bp 2 = 300 := by
    rw [groupSum_succ, groupSum_succ, hfirst, hsecond]
    rfl
  rw [varDecode_ok hspan hin, hsum]

/-- Settles O49: RDVAR commits what the decoder answers, and raises what it raises. -/
theorem rdvarConsumesOneVarint : Obligations.RdvarConsumesOneVarint := by
  refine ⟨rfl, fun s hs => ?_⟩
  obtain ⟨hlegal, -⟩ := hs
  refine ⟨fun v n => exec_rdvar_of_varDecode_ok hlegal,
    fun r h => ⟨varDecode_eq_error h, exec_rdvar_of_varDecode_error h⟩, fun h0 h1 hin => ?example300⟩
  case example300 =>
    have hval : (300#s.inst.W).setWidth 64 = 300#64 := by
      rcases Instance.W_cases s.inst with hW | hW <;> rw [hW] <;> rfl
    rw [exec_rdvar_of_varDecode_ok hlegal (varDecode_AC_02 h0 h1 hin), hval]

end Sys2Proof.Machine

/-! PROOF. CVAR and DVAR: CVAR appends the varints of the deltas, DVAR takes them back one by one, and a run of CVAR
over a range goes on where a run over its first part has stopped (43_varbyte R166 to R168). -/

namespace Sys2Proof.Machine

open Sys2Proof

variable {p : Instance} {m : Spaces} {w : Nat}

/-! ## The varints of a list of deltas -/

/-- The varints of the deltas of the elements `e`, one after another (43_varbyte R166). -/
def varints (p : Instance) (c : BitVec p.W) (e : List (BitVec p.W)) : List Byte :=
  (deltas c e).flatMap (varEncode p.kmax)

@[simp] theorem State.elements_length (s : State) : s.elements.length = s.len := Spaces.cells_length _ _ _ _ _

theorem State.varStream_eq (s : State) : s.varStream = varints s.inst s.seed s.elements := rfl

@[simp] theorem varints_nil (p : Instance) (c : BitVec p.W) : varints p c [] = [] := rfl

@[simp] theorem varints_cons (c x : BitVec p.W) (xs : List (BitVec p.W)) :
    varints p c (x :: xs) = varEncode p.kmax (x - c) ++ varints p x xs := rfl

/-- 43_varbyte R168: each element takes 1 to KMAX bytes. -/
theorem varints_length_bounds (c : BitVec p.W) (e : List (BitVec p.W)) :
    e.length ≤ (varints p c e).length ∧ (varints p c e).length ≤ p.kmax * e.length := by
  induction e generalizing c with
  | nil => simp
  | cons x xs ih =>
    obtain ⟨hlow, hhigh⟩ := ih x
    have hpos := Instance.one_le_varLen (x - c)
    have hle := Instance.varLen_le_kmax (x - c)
    rw [varints_cons, List.length_append, Instance.varEncode_length_eq, List.length_cons, Nat.mul_succ]
    omega

/-! ## Accesses that complete -/

theorem eq_cell_of_memRead_eq_ok {sp : Space} {i : Nat} {x : BitVec 64} (h : memRead p sp i m = .ok x) :
    x = m.cell sp i := by
  unfold memRead at h
  split at h <;> cases h
  rfl

/-- Reads that complete lie inside the extent. -/
theorem le_extentOf_of_readCells_eq_ok {sp : Space} {n i : Nat} {vs : List (BitVec w)} (hn : 0 < n)
    (h : readCells p sp w n i m = .ok vs) : i + n ≤ extentOf p sp := by
  by_contra hout
  simp [readCells_error m hn (Nat.not_le.1 hout)] at h

/-- Values stored inside the extent stand there; without a value there is nothing to store. -/
theorem Spaces.cells_store_of_inside {sp : Space} {vs : List (BitVec w)} {i : Nat} (hm : m.within p)
    (hin : vs = [] ∨ i + vs.length ≤ extentOf p sp) (hw : w ≤ cellBitsOf p sp) (h64 : w ≤ 64) :
    (m.store sp vs i).cells sp w vs.length i = vs := by
  rcases hin with rfl | hin
  · rfl
  · exact Spaces.cells_store_same hm hin hw h64

/-- Bytes written by a run that completes can be read back. -/
theorem readCells_of_writeCells_byte {ys : List Byte} {i : Nat} {m' : Spaces} (hm : m.within p)
    (h : writeCells p .byte ys i m = .done () m') : readCells p .byte 8 ys.length i m' = .ok ys := by
  obtain ⟨rfl, rfl | hin⟩ := writeCells_eq_done h
  · rfl
  · rw [readCells_ok _ hin, Spaces.cells_store_byte hm hin]

/-! ## The run of CVAR (43_varbyte R166) -/

theorem cvarLoop_succ (n i a : Nat) (c : BitVec p.W) (m : Spaces) :
    cvarLoop p (n + 1) i a c m = Run.get (memRead p .elem i m) m fun x =>
      (writeCells p .byte (varEncode p.kmax (x.setWidth p.W - c)) a m).bind fun _ m' =>
        cvarLoop p n (i + 1) (a + (varEncode p.kmax (x.setWidth p.W - c)).length) (x.setWidth p.W) m' := rfl

/-- A run of CVAR that completes has written the varints of the deltas of its elements. -/
theorem cvarLoop_eq_done {n i a : Nat} {c : BitVec p.W} {m m' : Spaces} {r : BitVec p.W × Nat}
    (h : cvarLoop p n i a c m = .done r m') :
    writeCells p .byte (varints p c (m.cells .elem p.W n i)) a m = .done () m' ∧
      r = (carryAfter c (m.cells .elem p.W n i), a + (varints p c (m.cells .elem p.W n i)).length) := by
  induction n generalizing i a c m with
  | zero =>
    rw [cvarLoop] at h
    cases h
    exact ⟨rfl, rfl⟩
  | succ n ih =>
    rw [cvarLoop, Run.get_eq_done] at h
    obtain ⟨x, hread, h⟩ := h
    rw [Run.bind_eq_done] at h
    obtain ⟨_, m₁, hwrite, hrest⟩ := h
    obtain rfl := eq_cell_of_memRead_eq_ok hread
    obtain ⟨hwrites, rfl⟩ := ih hrest
    have helem : m₁.elem = m.elem := by
      obtain ⟨rfl, -⟩ := writeCells_eq_done hwrite
      exact Spaces.store_byte_elem _ _ _
    rw [Spaces.cells_elem_congr helem] at hwrites ⊢
    rw [Spaces.cells_succ, varints_cons, carryAfter_cons, List.length_append, writeCells_append, hwrite, Run.bind_done,
      hwrites, Nat.add_assoc]
    exact ⟨rfl, rfl⟩

/-- 43_varbyte R168: CVAR has no block structure. -/
theorem cvarLoop_add (n k i a : Nat) (c : BitVec p.W) (m : Spaces) :
    cvarLoop p (n + k) i a c m =
      (cvarLoop p n i a c m).bind fun r m' => cvarLoop p k (i + n) r.2 r.1 m' := by
  induction n generalizing i a c m with
  | zero => rw [Nat.zero_add, cvarLoop, Run.bind_done, Nat.add_zero]
  | succ n ih =>
    rw [Nat.succ_add, cvarLoop_succ, cvarLoop_succ]
    cases memRead p .elem i m with
    | error r => rfl
    | ok x =>
      rw [Run.get_ok, Run.get_ok]
      cases writeCells p .byte (varEncode p.kmax (x.setWidth p.W - c)) a m with
      | raised r m' => rfl
      | done _ m' => rw [Run.bind_done, Run.bind_done, ih, Nat.succ_add_eq_add_succ]

/-- Where a run of CVAR ends: at its start, or inside BYTE. -/
theorem cvarLoop_end {n i a : Nat} {c : BitVec p.W} {m m' : Spaces} {r : BitVec p.W × Nat}
    (h : cvarLoop p n i a c m = .done r m') : a ≤ r.2 ∧ (r.2 = a ∨ r.2 ≤ p.byteSize) := by
  obtain ⟨hwrite, rfl⟩ := cvarLoop_eq_done h
  obtain ⟨-, hempty | hin⟩ := writeCells_eq_done hwrite
  · rw [hempty]
    exact ⟨Nat.le_add_right _ _, .inl rfl⟩
  · exact ⟨Nat.le_add_right _ _, .inr hin⟩

/-- What CVAR and DVAR commit when their loop ends with the carry and the index `r`. -/
def State.varByteResults (s : State) (r : BitVec s.inst.W × Nat) : Results :=
  { res := r.2 - s.byteAt, carry := some (r.1.setWidth 64), bptr := some r.2 }

theorem exec_cvar (s : State) : exec .cvar s = execCvar s := rfl

theorem exec_cvar_of_loop {s : State} (hrange : s.first ≤ s.last) {r : BitVec s.inst.W × Nat} {m : Spaces}
    (h : cvarLoop s.inst s.len s.first s.byteAt s.seed s.mem = .done r m) :
    exec .cvar s = .next (s.commit (s.varByteResults r) m) := by
  rw [exec_cvar, execCvar, if_neg (Nat.not_lt.2 hrange), h, Run.bind_done, Run.finish_done, State.varByteResults]

theorem exec_cvar_completed {s t : State} (h : exec .cvar s = .next t) (ht : t.faulted = false) :
    ∃ r m, cvarLoop s.inst s.len s.first s.byteAt s.seed s.mem = .done r m ∧
      t = s.commit (s.varByteResults r) m := by
  rw [exec_cvar, execCvar] at h
  obtain ⟨_, m, hrun, rfl⟩ := Run.finish_next_of_not_faulted h ht
  split at hrun
  case isTrue => cases hrun
  case isFalse =>
    rw [Run.bind_eq_done] at hrun
    obtain ⟨r, m₁, hloop, hend⟩ := hrun
    cases hend
    exact ⟨r, m, hloop, rfl⟩

/-- 43_varbyte R166: a completed CVAR has written the varints of its range at BPTR. -/
theorem exec_cvar_completed_varStream {s t : State} (h : exec .cvar s = .next t) (ht : t.faulted = false) :
    ∃ m, writeCells s.inst .byte s.varStream s.byteAt s.mem = .done () m ∧
      t = s.commit (s.varByteResults (carryAfter s.seed s.elements, s.byteAt + s.varStream.length)) m := by
  obtain ⟨r, m, hloop, rfl⟩ := exec_cvar_completed h ht
  obtain ⟨hwrite, rfl⟩ := cvarLoop_eq_done hloop
  rw [State.varStream_eq]
  exact ⟨m, hwrite, rfl⟩

/-! ## The run of DVAR over what CVAR has written (43_varbyte R167, R168) -/

/-- DVAR takes the elements back out of the varints of their deltas. -/
theorem dvarLoop_varints {e : List (BitVec p.W)} {i a : Nat} {c : BitVec p.W} {m : Spaces}
    (hread : readCells p .byte 8 (varints p c e).length a m = .ok (varints p c e))
    (hin : e = [] ∨ i + e.length ≤ p.elemSize) :
    dvarLoop p e.length i a c m =
      .done (carryAfter c e, a + (varints p c e).length) (m.store .elem e i) := by
  induction e generalizing i a c m with
  | nil => rfl
  | cons x xs ih =>
    have hend : i + (xs.length + 1) ≤ p.elemSize := hin.resolve_left (List.cons_ne_nil x xs)
    rw [varints_cons, readCells_append_eq_ok] at hread
    obtain ⟨hfirst, hrest⟩ := hread
    have hpos : 0 < (varEncode p.kmax (x - c)).length := by
      rw [Instance.varEncode_length_eq]
      exact Instance.one_le_varLen (x - c)
    have hdecode := varDecode_of_cells_eq (le_extentOf_of_readCells_eq_ok hpos hfirst)
      (eq_cells_of_readCells_eq_ok hfirst).symm
    have hsum : c + (x - c) = x := add_sub_cancel c x
    have hkept : ∀ j, (m.setCell .elem i (x.setWidth 64)).cell .byte j = m.cell .byte j := fun j =>
      Spaces.cell_setCell_other m _ (.inl (by decide))
    rw [← readCells_congr hkept] at hrest
    rw [List.length_cons, dvarLoop, hdecode, Run.get_ok, hsum, memWrite_of_lt _ m (by change i < p.elemSize; omega),
      Run.get_ok, ih hrest (.inr (by omega)), Spaces.store, carryAfter_cons, varints_cons, List.length_append,
      Nat.add_assoc]

theorem exec_dvar (s : State) : exec .dvar s = execDvar s := rfl

/-- 43_varbyte R167: DVAR over the varints of as many elements as its range has, inside ELEM. -/
theorem exec_dvar_of_varints {u : State} (hrange : u.first ≤ u.last) {e : List (BitVec u.inst.W)}
    (hlen : e.length = u.len) (hin : e = [] ∨ u.first + e.length ≤ u.inst.elemSize)
    (hread : readCells u.inst .byte 8 (varints u.inst u.seed e).length u.byteAt u.mem =
      .ok (varints u.inst u.seed e)) :
    exec .dvar u = .next (u.commit
      (u.varByteResults (carryAfter u.seed e, u.byteAt + (varints u.inst u.seed e).length))
      (u.mem.store .elem e u.first)) := by
  rw [exec_dvar, execDvar, if_neg (Nat.not_lt.2 hrange), ← hlen, dvarLoop_varints hread hin, Run.bind_done,
    Run.finish_done, State.varByteResults]

/-! ## The round trip (43_varbyte R168) -/

/-- The state `t` with the range of `n` elements from index `dst` on, and the carry and the BPTR of the state `s`. -/
def State.rewind (t s : State) (dst n : Nat) : State := { t.retarget s.carry dst n with bptr := s.bptr }

theorem State.rewind_first (t s : State) {dst n : Nat} (h : dst + n < 2 ^ 64) : (t.rewind s dst n).first = dst :=
  State.retarget_first t s.carry h

theorem State.rewind_last (t s : State) {dst n : Nat} (h : dst + n < 2 ^ 64) : (t.rewind s dst n).last = dst + n :=
  State.retarget_last t s.carry h

theorem State.rewind_len (t s : State) {dst n : Nat} (h : dst + n < 2 ^ 64) : (t.rewind s dst n).len = n :=
  State.retarget_len t s.carry h

@[simp] theorem State.rewind_faulted (t s : State) (dst n : Nat) : (t.rewind s dst n).faulted = t.faulted := rfl

/-- 43_varbyte R168: DVAR over what CVAR has written, with the carry and the BPTR of CVAR and the range of as many
elements from index `dst` on. -/
theorem exec_dvar_rewind {s : State} {m : Spaces} (r : Results) {dst : Nat} (hwithin : s.mem.within s.inst)
    (hfits : dst + s.len < 2 ^ 64) (hin : s.elements = [] ∨ dst + s.elements.length ≤ s.inst.elemSize)
    (hwrite : writeCells s.inst .byte s.varStream s.byteAt s.mem = .done () m) :
    exec .dvar ((s.commit r m).rewind s dst s.len) = .next (((s.commit r m).rewind s dst s.len).commit
      (s.varByteResults (carryAfter s.seed s.elements, s.byteAt + s.varStream.length))
      (m.store .elem s.elements dst)) := by
  have hfirst := State.rewind_first (s.commit r m) s hfits
  have hlast := State.rewind_last (s.commit r m) s hfits
  have hlen := State.rewind_len (s.commit r m) s hfits
  have hdvar := exec_dvar_of_varints (u := (s.commit r m).rewind s dst s.len) (e := s.elements) (by omega)
    (s.elements_length.trans hlen.symm) (by rw [hfirst]; exact hin) (readCells_of_writeCells_byte hwithin hwrite)
  rwa [hfirst] at hdvar

/-- 43_varbyte R168: what that DVAR leaves. -/
theorem dvar_undoes_cvar {s t : State} {dst : Nat} (hs : s.Sound) (hfault : s.faulted = false)
    (hexec : exec .cvar s = .next t) (ht : t.faulted = false) (hfits : dst + s.len < 2 ^ 64)
    (hin : s.len = 0 ∨ dst + s.len ≤ s.inst.elemSize) :
    ∃ v, exec .dvar (t.rewind s dst s.len) = .next v ∧
      v.faulted = false ∧ v.res = t.res ∧ v.carry = t.carry ∧ v.bptr = t.bptr ∧
      v.mem.cells .elem s.inst.W s.len dst = s.elements ∧
      ∀ i, i < dst ∨ dst + s.len ≤ i → v.mem.cell .elem i = s.mem.cell .elem i := by
  obtain ⟨m, hwrite, rfl⟩ := exec_cvar_completed_varStream hexec ht
  obtain ⟨-, hwithin, -⟩ := hs
  have hW := Instance.W_cases s.inst
  have hcount := s.elements_length
  rw [← hcount, List.length_eq_zero_iff] at hin
  have hstored := writeCells_within (sp := .byte) s.varStream s.byteAt hwithin (Nat.le_refl 8)
  rw [hwrite, Run.mem_done] at hstored
  refine ⟨_, exec_dvar_rewind _ hwithin hfits hin hwrite, by simpa using hfault, rfl, rfl, rfl, ?elements,
    fun i hi => ?other⟩
  case elements =>
    rw [State.commit_mem, ← hcount]
    exact Spaces.cells_store_of_inside hstored hin (Nat.le_refl _) (by omega)
  case other =>
    obtain ⟨rfl, -⟩ := writeCells_eq_done hwrite
    rw [State.commit_mem, Spaces.cell_store_other _ _ (.inr (by rwa [hcount])),
      Spaces.cell_store_other _ _ (.inl (by decide))]

/-- The indices of BYTE that CVAR commits fit BPTR, and their differences fit RES. -/
theorem truncTo_toNat_of_cvarLoop_end {p : Instance} (hlegal : p.legal = true) {a b v : Nat} (ha : a < 2 ^ p.idxw)
    (hb : b = a ∨ b ≤ p.byteSize) (hv : v ≤ b) :
    (truncTo (p.idxw + 1) v).toNat = v ∧ (truncTo p.idxw v).toNat = v := by
  have hidxw := Instance.idxw_le hlegal
  have hbyte := Instance.byteSize_lt hlegal
  have hlt : v < 2 ^ p.idxw := by omega
  rw [truncTo_toNat _ (by omega), truncTo_toNat _ (by omega), Nat.mod_eq_of_lt hlt,
    Nat.mod_eq_of_lt (hlt.trans (Nat.pow_lt_pow_succ (by decide)))]
  exact ⟨rfl, rfl⟩

/-- 43_varbyte R168: RES is the number of bytes appended. -/
theorem res_bounds_of_cvar {s t : State} (hs : s.Sound) (hexec : exec .cvar s = .next t) (ht : t.faulted = false) :
    s.len ≤ t.res.toNat ∧ t.res.toNat ≤ s.inst.kmax * s.len := by
  obtain ⟨m, hwrite, rfl⟩ := exec_cvar_completed_varStream hexec ht
  obtain ⟨hlegal, -, -, -, -, -, -, -, hbptr⟩ := hs
  obtain ⟨-, hend⟩ := writeCells_eq_done hwrite
  have hend' : s.byteAt + s.varStream.length = s.byteAt ∨ s.byteAt + s.varStream.length ≤ s.inst.byteSize := by
    refine hend.imp_left fun h => ?_
    rw [h]
    rfl
  obtain ⟨hres, -⟩ := truncTo_toNat_of_cvarLoop_end hlegal hbptr hend' (v := s.varStream.length)
    (Nat.le_add_left _ _)
  rw [State.commit_res, State.varByteResults, Nat.add_sub_cancel_left, hres, ← s.elements_length]
  exact varints_length_bounds s.seed s.elements

/-- 43_varbyte R168: two completed CVAR commands over adjacent ranges do what one over the joined range does. -/
theorem exec_cvar_joined {s t u : State} {mid : BitVec 64} (hs : s.Sound) (hfault : s.faulted = false)
    (hfirst : s.first ≤ mid.toNat) (hlast : mid.toNat ≤ s.last) (hexec₁ : exec .cvar { s with eend := mid } = .next t)
    (ht : t.faulted = false) (hexec₂ : exec .cvar { t with eptr := mid, eend := s.eend } = .next u)
    (hu : u.faulted = false) :
    ∃ v, exec .cvar s = .next v ∧ v.faulted = false ∧ v.mem = u.mem ∧ v.carry = u.carry ∧ v.bptr = u.bptr ∧
      v.res.toNat = t.res.toNat + u.res.toNat := by
  obtain ⟨hlegal, -, -, -, -, -, -, -, hbptr⟩ := hs
  have hW := Instance.W_cases s.inst
  obtain ⟨r₁, m₁, hloop₁, rfl⟩ := exec_cvar_completed hexec₁ ht
  obtain ⟨r₂, m₂, hloop₂, rfl⟩ := exec_cvar_completed hexec₂ hu
  change cvarLoop s.inst (mid.toNat - s.first) s.first s.byteAt s.seed s.mem = .done r₁ m₁ at hloop₁
  change cvarLoop s.inst (s.last - mid.toNat) mid.toNat (truncTo s.inst.idxw r₁.2).toNat
    ((r₁.1.setWidth 64).setWidth s.inst.W) m₁ = .done r₂ m₂ at hloop₂
  obtain ⟨hle₁, hend₁⟩ := cvarLoop_end hloop₁
  obtain ⟨-, hbyteAt⟩ := truncTo_toNat_of_cvarLoop_end hlegal hbptr hend₁ le_rfl
  have hcarry : (r₁.1.setWidth 64).setWidth s.inst.W = r₁.1 := by
    rw [BitVec.setWidth_setWidth_of_le _ (by omega), BitVec.setWidth_eq]
  rw [hbyteAt, hcarry] at hloop₂
  obtain ⟨hle₂, hend₂⟩ := cvarLoop_end hloop₂
  have hend : r₂.2 = s.byteAt ∨ r₂.2 ≤ s.inst.byteSize := by omega
  have hloop : cvarLoop s.inst s.len s.first s.byteAt s.seed s.mem = .done r₂ m₂ := by
    rw [show s.len = mid.toNat - s.first + (s.last - mid.toNat) by rw [State.len]; omega, cvarLoop_add, hloop₁,
      Run.bind_done, Nat.add_sub_cancel' hfirst, hloop₂]
  refine ⟨_, exec_cvar_of_loop (hfirst.trans hlast) hloop, by simpa using hfault, rfl, rfl, rfl, ?res⟩
  case res =>
    change (truncTo (s.inst.idxw + 1) (r₂.2 - s.byteAt)).toNat = (truncTo (s.inst.idxw + 1) (r₁.2 - s.byteAt)).toNat +
      (truncTo (s.inst.idxw + 1) (r₂.2 - (truncTo s.inst.idxw r₁.2).toNat)).toNat
    have hfits {v : Nat} (hv : v ≤ r₂.2) : (truncTo (s.inst.idxw + 1) v).toNat = v :=
      (truncTo_toNat_of_cvarLoop_end hlegal hbptr hend hv).1
    rw [hbyteAt, hfits (Nat.sub_le _ _), hfits (by omega), hfits (Nat.sub_le _ _)]
    omega

/-- Settles O54: DVAR decodes what CVAR has written, and a run of CVAR goes on where a run over the first part of its
range has stopped. -/
theorem variableByteCodecRoundTrips : Obligations.VariableByteCodecRoundTrips := by
  refine ⟨fun s t dst hs hfault _ hexec ht hfits hin => ?roundTrip,
    fun s t u mid hs hfault hfirst hlast hexec₁ ht hexec₂ hu => ?joined⟩
  case roundTrip =>
    have hidxw : 2 ^ s.inst.idxw ≤ 2 ^ 64 :=
      Nat.pow_le_pow_right (by decide) ((Instance.idxw_le hs.1).trans (by decide))
    obtain ⟨hlow, hhigh⟩ := res_bounds_of_cvar hs hexec ht
    exact ⟨hlow, hhigh, dvar_undoes_cvar hs hfault hexec ht (hfits.trans_le hidxw) hin⟩
  case joined =>
    have hmid : (BitVec.ofNat 64 mid).toNat = mid := Nat.mod_eq_of_lt (hlast.trans_lt s.eend.isLt)
    exact exec_cvar_joined hs hfault (by rwa [hmid]) (by rwa [hmid]) hexec₁ ht hexec₂ hu

end Sys2Proof.Machine

/-! PROOF. The capacity estimator: what CAP answers, and that Cap(n) bounds what CINT writes, tightly (44_capacity R180
to R182). -/

namespace Sys2Proof.Machine

open Sys2Proof

variable {p : Instance} {α β : Type} {w : Nat}

/-! ## CAP -/

theorem exec_cap (s : State) : exec .cap s = execCap s := rfl

/-- 44_capacity R180: CAP leaves Cap(n) in RES and changes nothing else. -/
theorem exec_cap_completed {s : State} (h : s.first ≤ s.last) :
    exec .cap s = .next { s with
      res := truncTo (s.inst.idxw + 1) (capacity s.inst s.len)
      status := clearBusy s.status } := by
  rw [exec_cap, execCap, if_neg (Nat.not_lt.2 h)]
  rfl

theorem exec_cap_degen {s : State} (h : s.last < s.first) : exec .cap s = .next (s.raise .degen s.mem) := by
  rw [exec_cap, execCap, if_pos h, Run.finish_raised]

/-- A range is shorter than the index registers can count. -/
theorem State.len_lt {s : State} (hs : s.Sound) : s.len < 2 ^ s.inst.idxw := by
  obtain ⟨-, -, -, -, -, -, hlast, -, -⟩ := hs
  exact (Nat.sub_le _ _).trans_lt hlast

/-- Settles O43: Cap(n) fits RES, so CAP commits it whole. -/
theorem capCompletes : Obligations.CapCompletes := by
  refine ⟨rfl, fun s hs h => ?_, fun s => exec_cap_degen⟩
  rw [exec_cap_completed h, truncTo_of_lt (capacity_lt (State.len_lt hs))]
  rfl

/-! ## The size of Cap(n) (44_capacity R182) -/

theorem State.capacity_eq (s : State) :
    capacity s.inst s.len = s.blocks * s.inst.W + (s.megablocks + s.tailBlocks) := Nat.add_assoc _ _ _

/-- There is at most one header for each full block. -/
theorem capacity_le (p : Instance) (n : Nat) : capacity p n ≤ n + n / p.W := by
  have hG : 0 < p.G := by
    have hW := Instance.W_cases p
    have hG := Instance.eight_mul_G p
    omega
  have hheaders : n / p.W / p.G + n / p.W % p.G ≤ n / p.W := calc
    _ ≤ p.G * (n / p.W / p.G) + n / p.W % p.G := Nat.add_le_add_right (Nat.le_mul_of_pos_left _ hG) _
    _ = n / p.W := Nat.div_add_mod _ _
  rw [capacity, Nat.add_assoc]
  exact Nat.add_le_add (Nat.div_mul_le_self n p.W) hheaders

theorem Instance.div_W_le (p : Instance) (n : Nat) : n / p.W ≤ n / 32 :=
  Nat.div_le_div_left (by have hW := Instance.W_cases p; omega) (by decide)

/-- A list of numbers of at most `w` has its largest sum exactly when all of them are `w`. -/
theorem sum_eq_length_mul_iff {l : List Nat} (h : ∀ b ∈ l, b ≤ w) : l.sum = l.length * w ↔ ∀ b ∈ l, b = w := by
  induction l with
  | nil => simp
  | cons b l ih =>
    obtain ⟨hb, hl⟩ := List.forall_mem_cons.1 h
    have hsum : l.sum ≤ l.length * w := List.sum_le_card_nsmul l w hl
    rw [List.forall_mem_cons, ← ih hl, List.sum_cons, List.length_cons, Nat.succ_mul]
    omega

/-- The widths add up to the raw size exactly when every block is stored verbatim. -/
theorem State.widths_sum_eq_iff (s : State) :
    s.widths.sum = s.blocks * s.inst.W ↔ ∀ b ∈ s.widths, b = s.inst.W := by
  have hcount : s.widths.length = s.blocks := by rw [State.widths, groupWidths_length, State.blockList_length]
  rw [← hcount]
  exact sum_eq_length_mul_iff (groupWidths_le _ _)

/-! ## Runs that raise no E_ACCESS on WORD -/

/-- The run raises no E_ACCESS on WORD; where it completes, its result has the property `P`. -/
def Run.SparesWord (P : α → Prop) : Run α → Prop
  | .done a _ => P a
  | .raised r _ => ∀ i, r ≠ .access .word i

theorem Run.sparesWord_bind {P : α → Prop} {Q : β → Prop} {x : Run α} {k : α → Spaces → Run β}
    (hx : x.SparesWord P) (hk : ∀ a m, P a → (k a m).SparesWord Q) : (x.bind k).SparesWord Q := by
  cases x with
  | done a m => exact hk a m hx
  | raised r m => exact hx

/-- CAUSE and SPACE as bit fields of STATUS (10_state R28). -/
theorem faultStatus_fields {cause space : Nat} (hcause : cause < 8) (hspace : space < 4) :
    ((faultStatus cause space).extractLsb' 4 3).toNat = cause ∧
      ((faultStatus cause space).extractLsb' 8 2).toNat = space := by
  rw [faultStatus, BitVec.extractLsb'_toNat, BitVec.extractLsb'_toNat, BitVec.toNat_ofNat]
  simp only [Nat.shiftLeft_eq, Nat.shiftRight_eq_div_pow]
  omega

theorem Raise.cause_lt (r : Raise) : r.cause < 8 := by
  cases r <;> simp [Raise.cause]

theorem Raise.spaceCode_lt (r : Raise) : r.spaceCode < 4 := by
  cases r with
  | access sp _ => cases sp <;> simp [Raise.spaceCode, Space.code]
  | _ => simp [Raise.spaceCode]

/-- STATUS after a fault names its cause and its space (60_exceptions R203). -/
theorem cause_raise (r : Raise) (m : Spaces) (s : State) : (s.raise r m).cause = r.cause :=
  (faultStatus_fields r.cause_lt r.spaceCode_lt).1

theorem spaceField_raise (r : Raise) (m : Spaces) (s : State) : (s.raise r m).spaceField = r.spaceCode :=
  (faultStatus_fields r.cause_lt r.spaceCode_lt).2

theorem Raise.eq_access_word {r : Raise} (hcause : r.cause = 4) (hspace : r.spaceCode = 2) :
    ∃ i, r = .access .word i := by
  cases r with
  | access sp i =>
    cases sp with
    | word => exact ⟨i, rfl⟩
    | elem | byte => cases hspace
  | _ => cases hcause

/-- STATUS after a run that raises no E_ACCESS on WORD shows none. -/
theorem Run.no_word_fault_of_sparesWord {s t : State} {x : Run Results} {P : Results → Prop}
    (h : Run.finish s x = .next t) (hs : s.faulted = false) (ht : t.faulted = true) (hx : x.SparesWord P) :
    ¬ (t.cause = 4 ∧ t.spaceField = 2) := by
  rcases Run.finish_next h with ⟨r, m, -, rfl⟩ | ⟨r, m, rfl, rfl⟩
  · rw [faulted_commit, hs] at ht
    cases ht
  · rw [cause_raise, spaceField_raise]
    rintro ⟨hcause, hspace⟩
    obtain ⟨i, rfl⟩ := Raise.eq_access_word hcause hspace
    exact hx i rfl

/-! ## CINT with room for its longest stream -/

/-- A read that fails has left the extent of its space. -/
theorem eq_access_of_readCells_eq_error {sp : Space} {n i : Nat} {m : Spaces} {r : Raise}
    (h : readCells p sp w n i m = .error r) : ∃ j, r = .access sp j := by
  rcases Nat.lt_or_ge (extentOf p sp) (i + n) with hout | hin
  · rcases Nat.eq_zero_or_pos n with rfl | hn
    · cases h
    · rw [readCells_error m hn hout] at h
      exact ⟨_, (Except.error.inj h).symm⟩
  · rw [readCells_ok m hin] at h
    cases h

theorem eq_access_of_readBlocks_eq_error {n i : Nat} {m : Spaces} {r : Raise} (h : readBlocks p n i m = .error r) :
    ∃ j, r = .access .elem j := by
  induction n generalizing i with
  | zero => cases h
  | succ n ih =>
    rw [readBlocks] at h
    cases he : readBlock p i m with
    | error r' =>
      rw [he, Except.bind_error] at h
      cases h
      exact eq_access_of_readCells_eq_error he
    | ok e =>
      rw [he, Except.bind_ok] at h
      cases hes : readBlocks p n (i + p.W) m with
      | error r' =>
        rw [hes, Except.bind_error] at h
        cases h
        exact ih hes
      | ok es =>
        rw [hes] at h
        cases h

theorem emit_sparesWord {ws : List (BitVec p.W)} {q e : Nat} (c : BitVec p.W) (m : Spaces) (h : q + ws.length ≤ e)
    (he : e ≤ p.wordSize) : (emit p ws q c m).SparesWord (·.2 ≤ e) := by
  rw [emit, writeCells_done m (sp := .word) (h.trans he)]
  exact h

/-- The payloads of blocks take at most W words each (41_bitpack R129). -/
theorem payloads_length_le (c : BitVec w) {es : List (List (BitVec w))} (hlen : ∀ e ∈ es, e.length = w) :
    (payloads c es).length ≤ es.length * w := by
  rw [payloads_length hlen, ← groupWidths_length c es]
  exact List.sum_le_card_nsmul _ _ (groupWidths_le c es)

/-- A group of `k` blocks takes at most one word for its header and W words for each block. -/
theorem compressGroup_sparesWord {k i q e : Nat} {c : BitVec p.W} {m : Spaces} (h : q + (1 + k * p.W) ≤ e)
    (he : e ≤ p.wordSize) : (compressGroup p k i q c m).SparesWord (·.2 ≤ e) := by
  rw [compressGroup]
  cases hread : readBlocks p k i m with
  | error r =>
    obtain ⟨j, rfl⟩ := eq_access_of_readBlocks_eq_error hread
    rintro _ ⟨⟩
  | ok es =>
    obtain rfl := readBlocks_eq_ok hread
    have hpayloads := payloads_length_le c (Spaces.length_of_mem_blocks (m := m) (n := k) (i := i))
    rw [Spaces.blocks_length] at hpayloads
    have hheader : q + 1 ≤ extentOf p .word := by
      rw [extentOf]
      omega
    rw [Run.get_ok, writeCells_done m hheader, Run.bind_done, packBlocks_eq_emit Spaces.length_of_mem_blocks]
    exact emit_sparesWord _ _ (by omega) he

theorem compressGroups_sparesWord {k n i q e : Nat} {c : BitVec p.W} {m : Spaces} (h : q + n * (1 + k * p.W) ≤ e)
    (he : e ≤ p.wordSize) : (compressGroups p k n i q c m).SparesWord (·.2 ≤ e) := by
  induction n generalizing i q c m with
  | zero =>
    rw [Nat.zero_mul] at h
    exact h
  | succ n ih =>
    rw [Nat.succ_mul] at h
    rw [compressGroups]
    exact Run.sparesWord_bind (compressGroup_sparesWord le_rfl (by omega)) fun r m' hr => ih (by omega)

/-- 44_capacity R181: Cap(n) counts the header and the verbatim blocks of every group. -/
theorem State.capacity_eq_groups (s : State) : capacity s.inst s.len =
    s.megablocks * (1 + s.inst.G * s.inst.W) + s.tailBlocks * (1 + 1 * s.inst.W) := by
  rw [s.capacity_eq, ← s.blocks_eq]
  ring

/-- 44_capacity R182: with Cap(n) words set aside CINT raises no E_ACCESS on WORD. -/
theorem exec_cint_no_word_fault {s t : State} (hs : s.faulted = false)
    (hroom : s.wordAt + capacity s.inst s.len ≤ s.inst.wordSize) (h : exec .cint s = .next t)
    (ht : t.faulted = true) : ¬ (t.cause = 4 ∧ t.spaceField = 2) := by
  rw [s.capacity_eq_groups] at hroom
  rw [exec_cint, execCint] at h
  refine Run.no_word_fault_of_sparesWord (P := fun _ => True) h hs ht ?_
  split
  case isTrue => rintro _ ⟨⟩
  case isFalse =>
    refine Run.sparesWord_bind (compressGroups_sparesWord le_rfl (by omega)) fun r m hr => ?_
    exact Run.sparesWord_bind (compressGroups_sparesWord le_rfl (by omega)) fun _ _ _ => trivial

/-- Settles O44: RES counts a header for each group and at most W words for each block, and Cap(n) the same headers and
W words for each. -/
theorem capacityIsSoundAndTight : Obligations.CapacityIsSoundAndTight := by
  refine ⟨fun s t hs hfault hexec ht => ?tight, fun s t _ hfault => exec_cint_no_word_fault hfault,
    fun p n => ⟨capacity_le p n, Nat.add_le_add_left (Instance.div_W_le p n) n, fun hn => ⟨?fits, capacity_lt hn⟩⟩,
    rfl, by decide⟩
  case tight =>
    obtain ⟨hres, -, hle⟩ := cintLengthIsHeadersPlusWidths s t hs hfault hexec ht
    refine ⟨hle, ?_, s.capacity_eq⟩
    rw [← s.widths_sum_eq_iff, hres, s.capacity_eq]
    omega
  case fits =>
    rw [Nat.pow_succ]
    omega

end Sys2Proof.Machine

/-! PROOF. What raising a fault writes, and what a recorded fault lets the host change (60_exceptions R200, R203, R205). -/

namespace Sys2Proof.Machine

open Sys2Proof

/-! ## STATUS and FINFO after a fault (60_exceptions R203) -/

/-- 10_state R28: STATUS of a fault has BUSY and every reserved bit 0. -/
theorem faultStatus_clear {cause space : Nat} (hcause : cause < 8) (hspace : space < 4) :
    (faultStatus cause space).getLsbD 0 = false ∧ faultStatus cause space &&& 0xFFFFFC8C#32 = 0#32 := by
  have hall : ∀ c < 8, ∀ sp < 4,
      (faultStatus c sp).getLsbD 0 = false ∧ faultStatus c sp &&& 0xFFFFFC8C#32 = 0#32 := by decide
  exact hall cause hcause space hspace

@[simp] theorem busy_raise (r : Raise) (m : Spaces) (s : State) : (s.raise r m).busy = false :=
  (faultStatus_clear r.cause_lt r.spaceCode_lt).1

theorem raise_reserved (r : Raise) (m : Spaces) (s : State) : (s.raise r m).status &&& 0xFFFFFC8C#32 = 0#32 :=
  (faultStatus_clear r.cause_lt r.spaceCode_lt).2

/-- Settles O15: the fields of STATUS by those of `faultStatus`, and the codes of each cause from R200's table. -/
theorem raiseWritesStatusAndInfo : Obligations.RaiseWritesStatusAndInfo := by
  intro r m s
  refine ⟨rfl, busy_raise r m s, faulted_raise r m s, raise_reserved r m s, ?codes⟩
  case codes =>
    rw [cause_raise, spaceField_raise, State.raise_finfo]
    cases r with
    | access sp i => cases sp <;> exact ⟨rfl, rfl, rfl⟩
    | _ => exact ⟨rfl, rfl, rfl⟩

/-! ## The host on a faulted core (60_exceptions R205) -/

/-- 20_memory R60: an access of the host that ends in a next state has found the core idle and the cell in its space. -/
theorem hostAccess_eq_next {sp : Space} {i : Nat} {s k t : State} :
    hostAccess sp i s k = .next t ↔ s.busy = false ∧ i < extentOf s.inst sp ∧ k = t := by
  unfold hostAccess
  split
  case isTrue hbusy => simp [hbusy]
  case isFalse hidle =>
    split
    case isTrue hout => simp [Nat.not_lt.2 hout]
    case isFalse hin => simp [hidle, Nat.lt_of_not_le hin]

/-- 60_exceptions R205: short of a reset, the host changes no register of a faulted core. -/
theorem hostStep_frame_of_faulted {s t : State} (hs : s.faulted = true) {op : HostOp} (hop : op ≠ .reset)
    (h : hostStep op s = .next t) : t = { s with mem := t.mem, rdata := t.rdata } := by
  cases op with
  | regWrite n v =>
    rw [hostStep_regWrite_of_not_accepting (.inr hs)] at h
    cases h
    rfl
  | regRead n =>
    cases h
    rfl
  | cellWrite sp i v =>
    obtain ⟨-, -, rfl⟩ := hostAccess_eq_next.1 h
    rfl
  | cellRead sp i =>
    obtain ⟨-, -, rfl⟩ := hostAccess_eq_next.1 h
    rfl
  | reset => exact absurd rfl hop

theorem cause_applyReset (s : State) : s.applyReset.cause = 0 := by
  simp [State.cause]

/-- Settles O16: each move of the host on a faulted core, and what reset writes. -/
theorem faultStaysUntilReset : Obligations.FaultStaysUntilReset := by
  intro s hs
  refine ⟨hostStep_regWrite_of_not_accepting (.inr hs), fun op t => hostStep_frame_of_faulted hs, fun t h => ?reset⟩
  case reset =>
    rw [hostStep_reset] at h
    cases h
    exact ⟨(accepting_applyReset s).2, cause_applyReset s, s.applyReset_finfo⟩

end Sys2Proof.Machine

/-! PROOF. The command word both ways, the words of the opcode table, and the host's step (30_encoding R80 to R85,
20_memory R60, 70_reset_and_hazards R249). -/

namespace Sys2Proof.Machine

open Sys2Proof

/-! ## Encoding and decoding (30_encoding R81 to R84) -/

/-- Settles O3: the encoding of a well-formed command is the one word that decodes to it. -/
theorem decodeOfEncode : Obligations.DecodeOfEncode := fun _ hi => (decode_eq_ok_iff_eq_encode hi).2 rfl

/-- Field B of a legal word holds the width operand, so that operand fits it. -/
theorem wf_of_decode_eq_ok {w : BitVec 32} {i : Instr} (h : decode w = .ok i) : i.wf = true := by
  obtain ⟨-, -, hb⟩ := decode_eq_ok_iff.1 h
  have hfits : i.widthOperand ≤ 127 := hb ▸ Nat.le_of_lt_succ (bField w).isLt
  cases i with
  | pack b | unpack b => exact decide_eq_true hfits
  | _ => rfl

/-- Settles O4: a legal word decodes to a well-formed command, whose one word is its encoding. -/
theorem encodeOfDecode : Obligations.EncodeOfDecode := fun _ _ h =>
  have hwf := wf_of_decode_eq_ok h
  ⟨hwf, ((decode_eq_ok_iff_eq_encode hwf).1 h).symm⟩

/-! ## The words of the opcode table (30_encoding R85) -/

theorem encode_pack (b : Nat) : encode (.pack b) = BitVec.ofNat 32 (b * 16 + 2) := by
  rw [encode, Nat.shiftLeft_eq]
  rfl

theorem encode_unpack (b : Nat) : encode (.unpack b) = BitVec.ofNat 32 (b * 16 + 3) := by
  rw [encode, Nat.shiftLeft_eq]
  rfl

/-- 41_bitpack R126: a width above W is PACK's fault before anything else. -/
theorem exec_pack_of_width {b : Nat} {s : State} (h : s.inst.W < b) :
    exec (.pack b) s = .next (s.raise (.width b) s.mem) := by
  rw [exec_pack, execPack, if_pos h, Run.finish_raised]

/-- Settles O1: the words of PACK and UNPACK are encodings, and each other word is decoded as it stands. -/
theorem decodeTableWords : Obligations.DecodeTableWords := by
  refine ⟨rfl, rfl, rfl, rfl, rfl, rfl, rfl, rfl, fun b hb => ?pack, fun b hb => ?unpack, rfl, rfl, rfl, rfl, rfl,
    fun s hs => ?pack33, ⟨_, rfl⟩, ⟨_, rfl⟩⟩
  case pack => exact encode_pack b ▸ decodeOfEncode (.pack b) (decide_eq_true (Nat.le_of_lt_succ hb))
  case unpack => exact encode_unpack b ▸ decodeOfEncode (.unpack b) (decide_eq_true (Nat.le_of_lt_succ hb))
  case pack33 =>
    refine exec_pack_of_width ?_
    rw [Instance.W, hs]
    decide

/-! ## One step of the host -/

theorem step_of_script {s : State} {op : HostOp} {rest : List HostOp} (h : s.script = op :: rest) :
    step s = hostStep op { s with script := rest } := by
  rw [step, nextStep, h]

theorem step_of_script_nil {s : State} (h : s.script = []) : step s = .next s := by
  rw [step, nextStep, h]

/-- 30_encoding R80: a legal word in an accepted write of CMD runs its command. -/
theorem hostStep_regWrite_cmd_of_decode {s : State} (hs : s.Accepting) {v : BitVec 64} {i : Instr}
    (h : decode (v.setWidth 32) = .ok i) : hostStep (.regWrite 0 v) s = exec i s.begin := by
  rw [hostStep_regWrite_cmd hs, writeCmd_of_decode_ok h]

theorem decode_of_decodeTableWord {nbits w : Nat} {i : Instr} (h : decodeTableWord nbits w = some i) :
    decode ((BitVec.ofNat 64 (w % 2 ^ nbits)).setWidth 32) = .ok i := by
  rw [BitVec.setWidth_ofNat_of_le (by decide)]
  unfold decodeTableWord at h
  cases hw : decode (BitVec.ofNat 32 (w % 2 ^ nbits)) with
  | error e => simp [hw, Except.toOption] at h
  | ok j =>
    rw [hw] at h
    exact congrArg Except.ok (Option.some.inj h)

/-- Settles O5: a step takes the host's next transaction off the script, and a write of CMD decodes its word. -/
theorem stepRunsDecodedCommand : Obligations.StepRunsDecodedCommand :=
  ⟨fun _ _ _ => step_of_script, fun _ _ _ hs h => hostStep_regWrite_cmd_of_decode hs h,
    fun _ _ _ _ hs h => hostStep_regWrite_cmd_of_decode hs (decode_of_decodeTableWord h), fun _ => step_of_script_nil⟩

/-! ## The host's access to a cell (20_memory R60) -/

theorem truncTo_toNat_of_fits {n : Nat} {v : BitVec 64} (h : fitsIn n v) : truncTo n v.toNat = v := by
  rw [truncTo_of_lt h, BitVec.ofNat_toNat, BitVec.setWidth_eq]

/-- Settles O7: inside the extent an idle core lets both accesses happen, and a value of the cell's width is not
truncated. -/
theorem hostReachesCellsWhenIdle : Obligations.HostReachesCellsWhenIdle := by
  intro s sp i hs hidle hin
  obtain ⟨-, hwithin, -⟩ := hs
  refine ⟨hostAccess_eq_next.2 ⟨hidle, hin, rfl⟩, fun v hv => ?write⟩
  case write =>
    refine ⟨_, hostAccess_eq_next.2 ⟨hidle, hin, rfl⟩, rfl, ?_, fun sp' k h => Spaces.cell_setCell_other _ _ h⟩
    rw [truncTo_toNat_of_fits hv, Spaces.cell_setCell_same hwithin sp i hv]

/-! ## The invariant after reset -/

theorem fitsIn_zero (n : Nat) : fitsIn n 0 := Nat.two_pow_pos n

/-- A STATUS of 0 with a FINFO of 0 is the one after reset (10_state R34). -/
theorem statusLegal_of_zero {s : State} (hstatus : s.status = 0) (hinfo : s.finfo = 0) : s.StatusLegal := by
  simp [State.StatusLegal, State.busy, State.faulted, State.cause, State.spaceField, hstatus, hinfo]

theorem wf_powerUp {p : Instance} {m : Spaces} (hp : p.legal = true) (hm : m.within p) : (State.powerUp p m).Wf :=
  ⟨⟨hp, hm, fitsIn_zero _, fitsIn_zero _, fitsIn_zero _, fitsIn_zero _, fitsIn_zero _, fitsIn_zero _, fitsIn_zero _⟩,
    statusLegal_of_zero rfl rfl⟩

/-- Settles O9: the reset state is a power-up state, and there every register holds 0. -/
theorem resetIsWellFormed : Obligations.ResetIsWellFormed :=
  ⟨wf_powerUp rfl State.reset_within, fun _ _ => wf_powerUp⟩

end Sys2Proof.Machine

/-! PROOF. What runs of reads and of writes leave in the spaces: the layer under the statements about single commands. -/

namespace Sys2Proof.Machine

open Sys2Proof

variable {p : Instance} {sp : Space} {m : Spaces} {w : Nat}

/-! ## Runs of reads and of writes -/

/-- Writes that lie inside the extent, or are none at all, store the values. -/
theorem writeCells_done_of_inside {ws : List (BitVec w)} {q : Nat} (m : Spaces)
    (h : ws = [] ∨ q + ws.length ≤ extentOf p sp) : writeCells p sp ws q m = .done () (m.store sp ws q) := by
  rcases h with rfl | h
  · rfl
  · exact writeCells_done m h

/-- Reads that lie inside the extent, or are none at all, give the cells. -/
theorem readCells_ok_of_inside {n i : Nat} (m : Spaces) (h : n = 0 ∨ i + n ≤ extentOf p sp) :
    readCells p sp w n i m = .ok (m.cells sp w n i) := by
  rcases h with rfl | h
  · rfl
  · exact readCells_ok m h

/-! ## What a stored list of values leaves -/

theorem Spaces.store_word_eq (vs : List (BitVec w)) (i : Nat) (m : Spaces) :
    { m with word := (m.store .word vs i).word } = m.store .word vs i := by
  change Spaces.mk m.elem _ m.byte = Spaces.mk (m.store .word vs i).elem _ (m.store .word vs i).byte
  rw [Spaces.store_word_elem, Spaces.store_word_byte]

theorem Spaces.store_elem_eq (vs : List (BitVec w)) (i : Nat) (m : Spaces) :
    { m with elem := (m.store .elem vs i).elem } = m.store .elem vs i := by
  change Spaces.mk _ m.word m.byte = Spaces.mk _ (m.store .elem vs i).word (m.store .elem vs i).byte
  rw [Spaces.store_elem_word, Spaces.store_elem_byte]

/-- The values stored below the extent stand there. -/
theorem Spaces.cells_store_take {ys : List (BitVec w)} {i : Nat} (hm : m.within p) (hw : w ≤ cellBitsOf p sp)
    (h64 : w ≤ 64) (hout : extentOf p sp ≤ i + ys.length) :
    (m.store sp (ys.take (extentOf p sp - i)) i).cells sp w (extentOf p sp - i) i = ys.take (extentOf p sp - i) := by
  have hlen : (ys.take (extentOf p sp - i)).length = extentOf p sp - i := List.length_take_of_le (by omega)
  have hstored := Spaces.cells_store_of_inside (vs := ys.take (extentOf p sp - i)) (i := i) hm ?_ hw h64
  · rwa [hlen] at hstored
  · rw [hlen, ← List.length_eq_zero_iff, hlen]
    omega

/-- Storing values below the extent leaves every cell outside them alone. -/
theorem Spaces.cell_store_take_other (ys : List (BitVec w)) {n i k : Nat} (m : Spaces) (h : k < i ∨ n ≤ k) :
    (m.store sp (ys.take (n - i)) i).cell sp k = m.cell sp k := by
  refine Spaces.cell_store_other _ m (.inr ?_)
  rw [List.length_take]
  omega

/-- The last of the values stored is the carry after them. -/
theorem Spaces.cell_store_last (c : BitVec w) {vs : List (BitVec w)} {i : Nat} (hm : m.within p)
    (hin : i + vs.length ≤ extentOf p sp) (hw : w ≤ cellBitsOf p sp) (hpos : 0 < vs.length) :
    (m.store sp vs i).cell sp (i + vs.length - 1) = (carryAfter c vs).setWidth 64 := by
  have hlast : vs.length - 1 < vs.length := by omega
  rw [carryAfter_eq_getD, if_neg hpos.ne', List.getD_eq_getElem _ _ hlast, Nat.add_sub_assoc hpos,
    Spaces.cell_store_same vs hm hin hw hlast]

/-- The carry after a run of cells is the last of them. -/
theorem carryAfter_cells (c : BitVec w) (m : Spaces) (sp : Space) {n : Nat} (i : Nat) (hn : 0 < n) :
    carryAfter c (m.cells sp w n i) = (m.cell sp (i + n - 1)).setWidth w := by
  rw [carryAfter_eq_getD, Spaces.cells_length, if_neg hn.ne', List.getD_eq_getElem _ _ (by rw [Spaces.cells_length]; omega),
    Spaces.cells_getElem, Nat.add_sub_assoc hn]

/-! ## Values of a register's or a cell's width -/

theorem setWidth_setWidth_of_fits {v : BitVec 64} (h : fitsIn w v) : (v.setWidth w).setWidth 64 = v := by
  rw [← BitVec.toNat_inj, BitVec.toNat_setWidth, BitVec.toNat_setWidth, Nat.mod_eq_of_lt h, Nat.mod_eq_of_lt v.isLt]

/-- CARRY holds its seed. -/
theorem State.seed_setWidth {s : State} (hs : s.Sound) : s.seed.setWidth 64 = s.carry := by
  obtain ⟨-, -, -, hcarry, -⟩ := hs
  exact setWidth_setWidth_of_fits hcarry

/-- The carry after a run of elements, in CARRY's container. -/
theorem carryAfter_cells_elem (hm : m.within p) (c : BitVec p.W) {n : Nat} (i : Nat) (hn : 0 < n) :
    (carryAfter c (m.cells .elem p.W n i)).setWidth 64 = m.cell .elem (i + n - 1) := by
  rw [carryAfter_cells c m .elem i hn]
  exact setWidth_setWidth_of_fits (Spaces.cell_lt hm .elem _)

theorem Instance.W_pos (p : Instance) : 0 < p.W := by
  have := Instance.W_cases p
  omega

theorem Instance.W_le (p : Instance) : p.W ≤ 64 := by
  have := Instance.W_cases p
  omega

/-- 00_scope R7: an index register counts to the end of every space. -/
theorem Instance.extent_lt (h : p.legal = true) (sp : Space) : extentOf p sp < 2 ^ p.idxw := by
  have hpos := Nat.two_pow_pos p.idxw
  simp only [Instance.legal, Bool.and_eq_true, decide_eq_true_eq] at h
  obtain ⟨⟨⟨-, helem⟩, hword⟩, hbyte⟩ := h
  cases sp <;> simp only [extentOf] <;> omega

/-- A number that RES can hold is committed whole. -/
theorem truncTo_res_of_le {n v : Nat} (hn : n < 2 ^ p.idxw) (hv : v ≤ n) : truncTo (p.idxw + 1) v = BitVec.ofNat 64 v :=
  truncTo_of_lt ((hv.trans_lt hn).trans (Nat.pow_lt_pow_succ (by decide)))

end Sys2Proof.Machine

/-! PROOF. EST, PACK and UNPACK: what each leaves when it completes, and its faults in order (40_delta_width R107,
41_bitpack R124 to R127). -/

namespace Sys2Proof.Machine

open Sys2Proof

variable {b w : Nat}

/-! ## EST (40_delta_width R107) -/

theorem exec_est (s : State) : exec .est s = execEst s := rfl

/-- 40_delta_width R106: the first element of the block that lies outside ELEM. -/
theorem readBlock_error {s : State} (h : s.inst.elemSize < s.first + s.inst.W) :
    readBlock s.inst s.first s.mem = .error (.access .elem (max s.first s.inst.elemSize)) :=
  readCells_error s.mem (Instance.W_pos s.inst) h

theorem exec_est_completed {s : State} (h : s.first + s.inst.W ≤ s.inst.elemSize) :
    exec .est s = .next (s.commit { res := blockWidth s.seed s.block } s.mem) := by
  rw [exec_est, execEst, readBlock_eq_block h, Run.get_ok, Run.finish_done]

/-- A block inside ELEM has fewer elements than an index register counts. -/
theorem State.W_lt_of_block_inside {s : State} (hs : s.Sound) (h : s.first + s.inst.W ≤ s.inst.elemSize) :
    s.inst.W < 2 ^ s.inst.idxw := by
  have helem : s.inst.elemSize < 2 ^ s.inst.idxw := Instance.extent_lt hs.1 .elem
  omega

/-- Settles O26: the estimate is the least width, and RES holds every width up to W. -/
theorem estCompletes : Obligations.EstCompletes := by
  intro s hs hin
  have hidxw := Instance.idxw_le hs.1
  have hW := State.W_lt_of_block_inside hs hin
  have hle := blockWidth_le s.seed s.block
  have hres : (truncTo (s.inst.idxw + 1) (blockWidth s.seed s.block)).toNat = blockWidth s.seed s.block := by
    rw [truncTo_toNat _ (by omega), Nat.mod_eq_of_lt]
    exact (hle.trans_lt hW).trans (Nat.pow_lt_pow_succ (by decide))
  refine ⟨_, exec_est_completed hin, rfl, ?_⟩
  rw [State.commit_res, hres]
  exact ⟨lt_two_pow_blockWidth _ _, fun b => blockWidth_le_iff.2⟩

/-- Settles O27: the read of the block raises E_ACCESS, before anything is written. -/
theorem estFaultsOutsideElem : Obligations.EstFaultsOutsideElem := by
  intro s hout
  rw [exec_est, execEst, readBlock_error hout, Run.get_error, Run.finish_raised]

/-! ## PACK (41_bitpack R124, R126) -/

/-- `PackBlock(c, e, b)` where every delta fits or the block is stored verbatim (41_bitpack R124). -/
def blockPayload (c : BitVec w) (e : List (BitVec w)) (b : Nat) : List (BitVec w) :=
  if b = w then e else if b = 0 then [] else packBits (deltas c e) b

theorem packBlock_eq_blockPayload {c : BitVec w} {e : List (BitVec w)}
    (h : b = w ∨ ∀ d ∈ deltas c e, d.toNat < 2 ^ b) : packBlock c e b = .ok (blockPayload c e b) := by
  rcases h with rfl | hfits
  · exact packBlock_of_fits fun d _ => d.isLt
  · exact packBlock_of_fits hfits

theorem blockPayload_length {c : BitVec w} {e : List (BitVec w)} (hlen : e.length = w) (hb : b ≤ w) :
    (blockPayload c e b).length = b := by
  unfold blockPayload
  split
  case isTrue hfull => rw [hlen, hfull]
  case isFalse hfull =>
    split
    case isTrue hzero => rw [List.length_nil, hzero]
    case isFalse => exact packBits_length (by omega) (by rw [deltas_length, hlen])

theorem State.block_length (s : State) : s.block.length = s.inst.W := Spaces.cells_length _ _ _ _ _

/-- What PACK and UNPACK commit for the block `e` (41_bitpack R126, R127). -/
def State.blockResults (s : State) (b : Nat) (e : List (BitVec s.inst.W)) : Results :=
  { res := b, carry := some ((carryAfter s.seed e).setWidth 64) }

/-- PACK on a block that packs writes the payload at WPTR. -/
theorem exec_pack_of_fits {s : State} (hb : b ≤ s.inst.W) (hin : s.first + s.inst.W ≤ s.inst.elemSize)
    (hfits : b = s.inst.W ∨ ∀ d ∈ deltas s.seed s.block, d.toNat < 2 ^ b) :
    exec (.pack b) s = Run.finish s ((writeCells s.inst .word (blockPayload s.seed s.block b) s.wordAt s.mem).bind
      fun _ m => .done (s.blockResults b s.block) m) := by
  rw [exec_pack, execPack, if_neg (Nat.not_lt.2 hb), readBlock_eq_block hin, Run.get_ok,
    packBlock_eq_blockPayload hfits, Run.get_ok]
  rfl

/-- Bit `j` of delta `i` stands in WORD where the layout puts it (41_bitpack R121). -/
theorem getLsbD_cell_store_blockPayload {p : Instance} {m : Spaces} {q i j : Nat} {c : BitVec p.W}
    {e : List (BitVec p.W)} (hm : m.within p) (hlen : e.length = p.W) (hb : b < p.W) (hpos : 1 ≤ b)
    (hfits : ∀ d ∈ deltas c e, d.toNat < 2 ^ b) (hroom : q + b ≤ p.wordSize) (hi : i < p.W) (hj : j < b) :
    ((m.store .word (blockPayload c e b) q).cell .word (q + (i * b + j) / p.W)).getLsbD ((i * b + j) % p.W) =
      ((deltas c e).getD i 0).getLsbD j := by
  have hcount := blockPayload_length (c := c) hlen hb.le
  have hword : (i * b + j) / p.W < (blockPayload c e b).length := by
    rw [hcount, Nat.div_lt_iff_lt_mul (Instance.W_pos p)]
    nlinarith
  have hbit := Nat.mod_lt (i * b + j) (Instance.W_pos p)
  have hW := (Instance.W_le p)
  obtain ⟨-, hlayout, -⟩ := packedLayoutIsContiguous p.W b (deltas c e) (by rw [deltas_length, hlen]) hpos hb hfits
  have hroom' : q + (blockPayload c e b).length ≤ extentOf p .word := by rwa [hcount]
  have hpayload : blockPayload c e b = packBits (deltas c e) b := by
    rw [blockPayload, if_neg hb.ne, if_neg (by omega)]
  rw [Spaces.cell_store_same _ hm hroom' (Nat.le_refl _) hword, ← hlayout i j hi hj,
    ← List.getD_eq_getElem _ 0 hword, BitVec.getLsbD_setWidth, decide_eq_true (by omega), Bool.true_and, hpayload]

/-- Settles O31: PACK commits after the payload is written at WPTR. -/
theorem packCompletes : Obligations.PackCompletes := by
  intro b s hs hb hin hfits hroom
  obtain ⟨hlegal, hwithin, -⟩ := hs
  have hcount := blockPayload_length (c := s.seed) s.block_length hb
  have hroom' : blockPayload s.seed s.block b = [] ∨
      s.wordAt + (blockPayload s.seed s.block b).length ≤ extentOf s.inst .word := by
    rwa [← List.length_eq_zero_iff, hcount]
  refine ⟨s.commit (s.blockResults b s.block) (s.mem.store .word (blockPayload s.seed s.block b) s.wordAt), ?exec,
    ?frame, fun i hi => Spaces.cell_store_other _ _ (.inr (by rwa [hcount])), ?verbatim, fun hpos hlt i j hi hj => ?bits⟩
  case exec => rw [exec_pack_of_fits hb hin hfits, writeCells_done_of_inside _ hroom', Run.bind_done, Run.finish_done]
  case frame =>
    simp only [State.commit, State.blockResults, Spaces.store_word_eq,
      truncTo_res_of_le (Instance.extent_lt hlegal .elem) (show b ≤ extentOf s.inst .elem by rw [extentOf]; omega),
      State.block, carryAfter_cells_elem hwithin s.seed s.first (Instance.W_pos s.inst), Option.getD_some, Option.getD_none,
      Option.map_none]
  case verbatim =>
    rintro rfl
    have hstored := Spaces.cells_store_of_inside hwithin hroom' (Nat.le_refl _) (Instance.W_le s.inst)
    rw [hcount] at hstored
    rw [State.commit_mem, hstored, blockPayload, if_pos rfl]
  case bits =>
    exact getLsbD_cell_store_blockPayload hwithin s.block_length hlt hpos (hfits.resolve_left hlt.ne)
      (hroom.resolve_left (by omega)) hi hj

/-- Settles O32: each test of PACK comes before the next one's, and nothing is written before the last. -/
theorem packFaultsInOrder : Obligations.PackFaultsInOrder := by
  refine fun b s => ⟨exec_pack_of_width, fun hb hout => ?access, fun hb hin i hi hbig hfirst => ?overflow,
    fun hs hb hin hfits hpos hout => ?word⟩
  case access =>
    rw [exec_pack, execPack, if_neg (Nat.not_lt.2 hb), readBlock_error hout, Run.get_error, Run.finish_raised]
  case overflow =>
    exact exec_pack_of_packBlock_error hb.le hin (packBlock_of_overflow hb (by rwa [s.block_length]) hbig hfirst)
  case word =>
    obtain ⟨-, hwithin, -⟩ := hs
    have hcount := blockPayload_length (c := s.seed) s.block_length hb
    have hne : blockPayload s.seed s.block b ≠ [] := by
      rw [← List.length_pos_iff, hcount]
      exact hpos
    have hout' : extentOf s.inst .word < s.wordAt + (blockPayload s.seed s.block b).length := by rwa [hcount]
    refine ⟨_, blockPayload s.seed s.block b, ?_, packBlock_eq_blockPayload hfits, (Spaces.store_word_eq _ _ _).symm,
      Spaces.cells_store_take hwithin (Nat.le_refl _) (Instance.W_le s.inst) hout'.le,
      fun i hi => Spaces.cell_store_take_other _ _ hi⟩
    rw [exec_pack_of_fits hb hin hfits, writeCells_raised _ hne hout', Run.bind_raised, Run.finish_raised]
    rfl

/-! ## UNPACK (41_bitpack R125, R127) -/

theorem exec_unpack (b : Nat) (s : State) : exec (.unpack b) s = execUnpack b s := rfl

/-- The elements that UNPACK makes of the payload at WPTR (41_bitpack R127). -/
def State.unpacked (s : State) (b : Nat) : List (BitVec s.inst.W) :=
  unpackBlock s.seed (s.mem.cells .word s.inst.W b s.wordAt) b

theorem State.unpacked_length (s : State) (b : Nat) : (s.unpacked b).length = s.inst.W :=
  unpackBlock_length _ _ _ (Spaces.cells_length _ _ _ _ _)

/-- UNPACK of a payload inside WORD writes the elements at EPTR. -/
theorem exec_unpack_of_payload {s : State} (hb : b ≤ s.inst.W) (hin : b = 0 ∨ s.wordAt + b ≤ s.inst.wordSize) :
    exec (.unpack b) s = Run.finish s ((writeCells s.inst .elem (s.unpacked b) s.first s.mem).bind
      fun _ m => .done (s.blockResults b (s.unpacked b)) m) := by
  rw [exec_unpack, execUnpack, if_neg (Nat.not_lt.2 hb), readCells_ok_of_inside s.mem hin, Run.get_ok]
  rfl

/-- Bit `j` of the field that is delta `i` (41_bitpack R121, R123). -/
theorem getLsbD_unpackBits_cells {p : Instance} {m : Spaces} {q i j : Nat} (hb : b ≤ p.W) (hi : i < p.W) :
    ((unpackBits (m.cells .word p.W b q) b).getD i 0).getLsbD j =
      (decide (j < b) && (m.cell .word (q + (i * b + j) / p.W)).getLsbD ((i * b + j) % p.W)) := by
  rw [BitVec.getLsbD, toNat_unpackBits_getD hb _ hi, Nat.testBit_mod_two_pow, Nat.testBit_shiftRight]
  by_cases hj : j < b
  case neg => simp [hj]
  have hword : (i * b + j) / p.W < b := by
    rw [Nat.div_lt_iff_lt_mul (Instance.W_pos p)]
    nlinarith
  have hbit := Nat.mod_lt (i * b + j) (Instance.W_pos p)
  have hpayload := testBit_payloadNumber (ws := m.cells .word p.W b q) (k := (i * b + j) / p.W) hbit
  rw [Nat.div_add_mod', List.getD_eq_getElem _ _ (by rwa [Spaces.cells_length]), Spaces.cells_getElem,
    BitVec.getLsbD_setWidth, decide_eq_true hbit, Bool.true_and] at hpayload
  rw [hpayload]

/-- Settles O33: UNPACK commits after the elements are written at EPTR, and the deltas of the running sum are the fields. -/
theorem unpackCompletes : Obligations.UnpackCompletes := by
  intro b s hs hb hword hin
  obtain ⟨hlegal, hwithin, -⟩ := hs
  have hcount := s.unpacked_length b
  have hroom : s.first + (s.unpacked b).length ≤ extentOf s.inst .elem := by rwa [hcount]
  have hcells : (s.mem.store .elem (s.unpacked b) s.first).cells .elem s.inst.W s.inst.W s.first = s.unpacked b := by
    have hstored := Spaces.cells_store_same hwithin hroom (Nat.le_refl _) (Instance.W_le s.inst)
    rwa [hcount] at hstored
  have hlast := Spaces.cell_store_last s.seed hwithin hroom (Nat.le_refl _) (by rw [hcount]; exact Instance.W_pos s.inst)
  rw [hcount] at hlast
  refine ⟨s.commit (s.blockResults b (s.unpacked b)) (s.mem.store .elem (s.unpacked b) s.first), ?exec, ?frame,
    fun i hi => Spaces.cell_store_other _ _ (.inr (by rwa [hcount])), ?zero, ?verbatim, fun hpos hlt i j hi _ => ?bits⟩
  case exec => rw [exec_unpack_of_payload hb hword, writeCells_done _ hroom, Run.bind_done, Run.finish_done]
  case frame =>
    simp only [State.commit, State.blockResults, Spaces.store_elem_eq,
      truncTo_res_of_le (Instance.extent_lt hlegal .elem) (show b ≤ extentOf s.inst .elem by rw [extentOf]; omega),
      hlast, Option.getD_some, Option.getD_none, Option.map_none]
  case zero =>
    rintro rfl
    rw [State.commit_mem, hcells, State.unpacked, unpackBlock, if_pos rfl]
  case verbatim =>
    rintro rfl
    rw [State.commit_mem, hcells, State.unpacked, unpackBlock, if_neg (Instance.W_pos s.inst).ne', if_pos rfl]
  case bits =>
    rw [State.commit_mem, hcells, State.unpacked, unpackBlock, if_neg (by omega), if_neg hlt.ne, deltas_undelta,
      getLsbD_unpackBits_cells hb hi]

/-- Settles O34: each test of UNPACK comes before the next one's, and ELEM is written after both. -/
theorem unpackFaultsInOrder : Obligations.UnpackFaultsInOrder := by
  refine fun b s => ⟨fun hb => ?width, fun hb hpos hout => ?word, fun hs hb hword hout => ?elem⟩
  case width => rw [exec_unpack, execUnpack, if_pos hb, Run.finish_raised]
  case word =>
    rw [exec_unpack, execUnpack, if_neg (Nat.not_lt.2 hb), readCells_error s.mem hpos hout, Run.get_error,
      Run.finish_raised]
    rfl
  case elem =>
    obtain ⟨-, hwithin, -⟩ := hs
    have hcount := s.unpacked_length b
    have hne : s.unpacked b ≠ [] := by
      rw [← List.length_pos_iff, hcount]
      exact (Instance.W_pos s.inst)
    have hout' : extentOf s.inst .elem < s.first + (s.unpacked b).length := by rwa [hcount]
    refine ⟨_, ?_, (Spaces.store_elem_eq _ _ _).symm,
      Spaces.cells_store_take hwithin (Nat.le_refl _) (Instance.W_le s.inst) hout'.le,
      fun i hi => Spaces.cell_store_take_other _ _ hi⟩
    rw [exec_unpack_of_payload hb hword, writeCells_raised _ hne hout', Run.bind_raised, Run.finish_raised]
    rfl

end Sys2Proof.Machine

/-! PROOF. CINT as one list of words: the header of a group, the stream that a run of CINT writes, where it stops, and how
two runs over adjacent ranges join (42_block_driver R141 to R145). -/

namespace Sys2Proof.Machine

open Sys2Proof

variable {p : Instance} {w : Nat} {m : Spaces} {α β γ : Type}

/-! ## The header (42_block_driver R141, R145) -/

theorem header_eq_sum (bs : List Nat) :
    header bs = ((List.range bs.length).map fun k => bs.getD k 0 <<< ((bs.length - 1 - k) * 8)).sum := by
  induction bs with
  | nil => rfl
  | cons b bs ih =>
    rw [header, ih, List.length_cons, List.range_succ_eq_map, List.map_cons, List.sum_cons, List.map_map]
    simp only [Function.comp_def, List.getD_cons_zero, List.getD_cons_succ, Nat.succ_eq_add_one,
      Nat.add_sub_cancel, Nat.sub_zero, Nat.sub_sub, Nat.add_comm 1]

/-- Settles O35: the header is a number to base 256, and its digits are the widths. -/
theorem headerHoldsOneBytePerBlock : Obligations.HeaderHoldsOneBytePerBlock := by
  refine ⟨fun p bs hlen hbs => ⟨?fits, ?sum, headerWidths_header (.inl rfl) hlen hbs⟩, fun p h k hk => ?byte,
    fun p h => ⟨by rw [headerWidths, if_pos rfl], header_singleton _⟩⟩
  case fits =>
    have hbyte : ∀ b ∈ bs, b < 256 := fun b hb => by
      have hle := hbs b hb
      have hW := Instance.W_le p
      omega
    have hlt := header_lt hbyte
    rwa [hlen, show 256 = 2 ^ 8 by rfl, ← Nat.pow_mul, Instance.eight_mul_G] at hlt
  case sum => rw [header_eq_sum, hlen]
  case byte =>
    have hG : p.G ≠ 1 := by
      have hW := Instance.W_cases p
      have hmul := Instance.eight_mul_G p
      omega
    rw [headerWidths, if_neg hG, List.getD_eq_getElem _ _ (by simpa using hk), List.getElem_map, List.getElem_range,
      BitVec.extractLsb'_toNat, BitVec.toNat_ushiftRight]

/-! ## Runs that write to WORD or BYTE and go on -/

@[simp] theorem Run.bind_done_right (x : Run α) : (x.bind fun a m' => .done a m') = x := by
  cases x <;> rfl

theorem Run.bind_assoc (x : Run α) (f : α → Spaces → Run β) (g : β → Spaces → Run γ) :
    (x.bind f).bind g = x.bind fun a m' => (f a m').bind g := by
  cases x <;> rfl

theorem Spaces.store_elem_of_ne {sp : Space} (h : sp ≠ .elem) (vs : List (BitVec w)) (i : Nat) (m : Spaces) :
    (m.store sp vs i).elem = m.elem := by
  cases sp with
  | elem => exact absurd rfl h
  | word => exact Spaces.store_word_elem vs i m
  | byte => exact Spaces.store_byte_elem vs i m

/-- What follows a list of values written outside ELEM finds ELEM as it was; where it writes more values and goes on, the
two lists are written as one. -/
theorem writeCells_bind_append {sp : Space} (hsp : sp ≠ .elem) {us vs : List (BitVec w)} {q : Nat}
    {f g : Unit → Spaces → Run α}
    (h : ∀ m', m'.elem = m.elem → f () m' = (writeCells p sp vs (q + us.length) m').bind g) :
    (writeCells p sp us q m).bind f = (writeCells p sp (us ++ vs) q m).bind g := by
  rw [writeCells_append, Run.bind_assoc]
  cases hrun : writeCells p sp us q m with
  | raised r m' => rfl
  | done _ m' =>
    obtain ⟨rfl, -⟩ := writeCells_eq_done hrun
    exact h _ (Spaces.store_elem_of_ne hsp us q m)

/-! ## The blocks that CINT reads -/

theorem readBlocks_ok {k i : Nat} (h : k = 0 ∨ i + k * p.W ≤ p.elemSize) :
    readBlocks p k i m = .ok (m.blocks p k i) := by
  induction k generalizing i with
  | zero => rfl
  | succ k ih =>
    rw [Nat.succ_mul] at h
    have hfirst : i + p.W ≤ extentOf p .elem := by rw [extentOf]; omega
    rw [readBlocks, readBlock, readCells_ok m hfirst, Except.bind_ok, ih (by omega), Except.bind_ok, Spaces.blocks_succ]

theorem readBlocks_error {k i : Nat} (hk : 0 < k) (h : p.elemSize < i + k * p.W) :
    readBlocks p k i m = .error (.access .elem (max i p.elemSize)) := by
  induction k generalizing i with
  | zero => cases hk
  | succ k ih =>
    rw [Nat.succ_mul] at h
    rw [readBlocks, readBlock]
    rcases Nat.lt_or_ge p.elemSize (i + p.W) with hout | hin
    · rw [readCells_error m (Instance.W_pos p) hout, Except.bind_error]
      rfl
    · have hpos : 0 < k := Nat.pos_of_ne_zero fun hzero => by simp [hzero] at h; omega
      have hW := Instance.W_pos p
      rw [readCells_ok m hin, Except.bind_ok, ih hpos (by omega), Except.bind_error]
      congr 2
      omega

/-! ## The groups that CINT writes (42_block_driver R142) -/

/-- A group whose blocks lie inside ELEM: one header and the payloads. -/
theorem compressGroup_inside {k i : Nat} (h : k = 0 ∨ i + k * p.W ≤ p.elemSize) (q : Nat) (c : BitVec p.W) (m : Spaces) :
    compressGroup p k i q c m =
      emit p (groupWords c (m.blocks p k i)) q (carryAfterBlocks c (m.blocks p k i)) m := by
  have hend : q + 1 + (payloads c (m.blocks p k i)).length = q + (groupWords c (m.blocks p k i)).length := by
    rw [groupWords, List.length_cons]
    omega
  rw [compressGroup, readBlocks_ok h, Run.get_ok]
  refine writeCells_bind_append (us := [_]) (by decide) fun m' _ => ?_
  rw [packBlocks_eq_emit Spaces.length_of_mem_blocks, emit, hend]
  rfl

/-- A group that leaves ELEM writes nothing. -/
theorem compressGroup_outside {k i : Nat} (hk : 0 < k) (h : p.elemSize < i + k * p.W) (q : Nat) (c : BitVec p.W)
    (m : Spaces) : compressGroup p k i q c m = .raised (.access .elem (max i p.elemSize)) m := by
  rw [compressGroup, readBlocks_error hk h, Run.get_error]

theorem compressGroups_add (k n l i q : Nat) (c : BitVec p.W) (m : Spaces) :
    compressGroups p k (n + l) i q c m =
      (compressGroups p k n i q c m).bind fun r m' => compressGroups p k l (i + n * (k * p.W)) r.2 r.1 m' := by
  induction n generalizing i q c m with
  | zero => rw [Nat.zero_add, compressGroups, Run.bind_done, Nat.zero_mul, Nat.add_zero]
  | succ n ih =>
    rw [Nat.succ_add, compressGroups, compressGroups, Run.bind_assoc]
    simp only [ih, Nat.succ_mul, Nat.add_comm (n * (k * p.W)), Nat.add_assoc]

/-- Groups inside ELEM write their stream; `N` blocks hold the blocks of the groups. -/
theorem compressGroups_inside {k n N i : Nat} (hN : n * k ≤ N) (h : n = 0 ∨ i + n * (k * p.W) ≤ p.elemSize) (q : Nat)
    (c : BitVec p.W) (m : Spaces) : compressGroups p k n i q c m =
      emit p (groupStream k n c (m.blocks p N i)) q (carryAfterBlocks c (m.blocks p (n * k) i)) m := by
  induction n generalizing N i q c m with
  | zero => simp [compressGroups, emit, groupStream, Spaces.blocks, writeCells]
  | succ n ih =>
    have hroom := h.resolve_left n.succ_ne_zero
    rw [Nat.succ_mul] at hN hroom
    rw [compressGroups, compressGroup_inside (.inr (by omega)), groupStream_succ, Spaces.blocks_take m p (by omega),
      Spaces.blocks_drop m p (by omega), Nat.succ_mul, Nat.add_comm (n * k), Spaces.blocks_add, carryAfterBlocks_append,
      emit, emit, Run.bind_assoc]
    refine writeCells_bind_append (by decide) fun m' helem => ?_
    rw [Run.bind_done, ih (N := N - k) (by omega) (.inr (by omega)), Spaces.blocks_congr helem,
      Spaces.blocks_congr helem, emit, List.length_append, Nat.add_assoc]

/-- Groups of which one leaves ELEM write the stream of those before it. -/
theorem compressGroups_outside {k n N i : Nat} (hk : 0 < k) (hN : n * k ≤ N) (hn : 0 < n)
    (h : p.elemSize < i + n * (k * p.W)) (q : Nat) (c : BitVec p.W) (m : Spaces) : compressGroups p k n i q c m =
      (writeCells p .word (groupStream k ((p.elemSize - i) / (k * p.W)) c (m.blocks p N i)) q m).bind
        fun _ m' => .raised (.access .elem (max i p.elemSize)) m' := by
  have hW : 0 < k * p.W := Nat.mul_pos hk (Instance.W_pos p)
  have hle := Nat.div_mul_le_self (p.elemSize - i) (k * p.W)
  have hlt := Nat.lt_div_mul_add (a := p.elemSize - i) hW
  have hfew : (p.elemSize - i) / (k * p.W) < n := by
    rw [Nat.div_lt_iff_lt_mul hW]
    have := Nat.mul_pos hn hW
    omega
  generalize (p.elemSize - i) / (k * p.W) = g at hle hlt hfew ⊢
  obtain ⟨l, rfl⟩ := Nat.exists_eq_add_of_lt hfew
  have hinside : g = 0 ∨ i + g * (k * p.W) ≤ p.elemSize := by
    rcases Nat.eq_zero_or_pos g with hzero | hpos
    · exact .inl hzero
    · have := Nat.mul_pos hpos hW
      exact .inr (by omega)
  have hmax : max (i + g * (k * p.W)) p.elemSize = max i p.elemSize := by
    rcases hinside with rfl | hin
    · rw [Nat.zero_mul, Nat.add_zero]
    · omega
  have hgN : g * k ≤ N := (Nat.mul_le_mul_right k hfew.le).trans hN
  have hnext : p.elemSize < i + g * (k * p.W) + k * p.W := by omega
  rw [Nat.add_assoc, compressGroups_add, compressGroups_inside hgN hinside, emit, Run.bind_assoc]
  simp only [Run.bind_done, compressGroups, compressGroup_outside hk hnext, Run.bind_raised, hmax]

end Sys2Proof.Machine

/-! PROOF. CINT: its stream where it completes, its faults at the extents, and two runs over adjacent ranges
(42_block_driver R142, R144; 60_exceptions R204). -/

namespace Sys2Proof.Machine

open Sys2Proof

/-! ## The run of CINT -/

/-- The megablocks, then the tail blocks (42_block_driver R142). -/
def State.cintRun (s : State) : Run (BitVec s.inst.W × Nat) :=
  (compressGroups s.inst s.inst.G s.megablocks s.first s.wordAt s.seed s.mem).bind fun r m =>
    compressGroups s.inst 1 s.tailBlocks s.tailStart r.2 r.1 m

/-- What CINT and DINT commit when their groups end with the carry and the index `r`. -/
def State.groupResults (s : State) (r : BitVec s.inst.W × Nat) : Results :=
  { res := r.2 - s.wordAt, carry := some (r.1.setWidth 64) }

theorem exec_cint_eq_cintRun {s : State} (h : s.first ≤ s.last) :
    exec .cint s = Run.finish s (s.cintRun.bind fun r m => .done (s.groupResults r) m) := by
  rw [exec_cint, execCint, if_neg (Nat.not_lt.2 h), State.cintRun, Run.bind_assoc]
  rfl

/-- The tail blocks end where the full blocks end. -/
theorem State.tailStart_add (s : State) :
    s.tailStart + s.tailBlocks * s.inst.W = s.first + s.blocks * s.inst.W := by
  rw [State.tailStart, ← s.blocks_eq]
  ring

theorem Instance.G_pos (p : Instance) : 0 < p.G := by
  have hW := Instance.W_pos p
  have hG := Instance.eight_mul_G p
  omega

theorem State.stream_eq_append (s : State) : s.stream =
    groupStream s.inst.G s.megablocks s.seed s.blockList ++
      groupStream 1 s.tailBlocks (carryAfterBlocks s.seed (s.mem.blocks s.inst (s.megablocks * s.inst.G) s.first))
        (s.mem.blocks s.inst s.tailBlocks s.tailStart) := by
  rw [State.stream, State.streamOf, State.blockList_take, State.blockList_drop]

theorem State.blocks_eq_zero {s : State} (h : s.blocks = 0) : s.megablocks = 0 ∧ s.tailBlocks = 0 := by
  have hblocks := s.blocks_eq
  have hG := Instance.G_pos s.inst
  rw [h] at hblocks
  obtain ⟨hmega, htail⟩ := Nat.add_eq_zero_iff.1 hblocks
  exact ⟨(Nat.mul_eq_zero.1 hmega).resolve_right hG.ne', htail⟩

/-- 42_block_driver R142: CINT over blocks inside ELEM writes its stream. -/
theorem State.cintRun_inside {s : State} (h : s.blocks = 0 ∨ s.first + s.blocks * s.inst.W ≤ s.inst.elemSize) :
    s.cintRun = emit s.inst s.stream s.wordAt (carryAfterBlocks s.seed s.blockList) s.mem := by
  have hblocks := s.blocks_eq
  have hend := s.tailStart_add
  have hzero := State.blocks_eq_zero (s := s)
  have hmega : s.megablocks = 0 ∨ s.first + s.megablocks * (s.inst.G * s.inst.W) ≤ s.inst.elemSize := by
    rw [State.tailStart] at hend
    omega
  have htail : s.tailBlocks = 0 ∨ s.tailStart + s.tailBlocks * (1 * s.inst.W) ≤ s.inst.elemSize := by
    rw [Nat.one_mul]
    omega
  rw [State.cintRun, compressGroups_inside (N := s.blocks) (by omega) hmega, State.stream_eq_append, emit, emit,
    Run.bind_assoc]
  refine writeCells_bind_append (by decide) fun m' helem => ?_
  rw [Run.bind_done, compressGroups_inside (Nat.mul_one s.tailBlocks).le htail, Spaces.blocks_congr helem,
    Spaces.blocks_congr helem, Nat.mul_one, ← carryAfterBlocks_append, ← State.blockList_eq_append, emit,
    List.length_append, Nat.add_assoc]
  rfl

/-- The stream before the first group that leaves ELEM, when that group is a megablock. -/
theorem State.streamInside_of_megablock {s : State}
    (h : s.inst.elemSize < s.first + s.megablocks * (s.inst.G * s.inst.W)) : s.streamInside =
      groupStream s.inst.G ((s.inst.elemSize - s.first) / (s.inst.G * s.inst.W)) s.seed s.blockList := by
  have hfew : (s.inst.elemSize - s.first) / (s.inst.G * s.inst.W) ≤ s.megablocks :=
    Nat.div_le_of_le_mul (by rw [Nat.mul_comm]; omega)
  have hnone : s.inst.elemSize - s.tailStart = 0 := by rw [State.tailStart]; omega
  rw [State.streamInside, Nat.min_eq_right hfew, hnone, Nat.zero_div, Nat.min_zero, State.streamOf]
  exact List.append_nil _

/-- The stream before the first group that leaves ELEM, when that group is a tail block. -/
theorem State.streamInside_of_tailBlock {s : State}
    (h : s.megablocks = 0 ∨ s.first + s.megablocks * (s.inst.G * s.inst.W) ≤ s.inst.elemSize)
    (hout : s.inst.elemSize < s.tailStart + s.tailBlocks * s.inst.W) : s.streamInside =
      groupStream s.inst.G s.megablocks s.seed s.blockList ++
        groupStream 1 ((s.inst.elemSize - s.tailStart) / s.inst.W)
          (carryAfterBlocks s.seed (s.mem.blocks s.inst (s.megablocks * s.inst.G) s.first))
          (s.mem.blocks s.inst s.tailBlocks s.tailStart) := by
  have hW := Instance.W_pos s.inst
  have hmega : s.megablocks ≤ (s.inst.elemSize - s.first) / (s.inst.G * s.inst.W) := by
    rw [Nat.le_div_iff_mul_le (Nat.mul_pos (Instance.G_pos s.inst) hW)]
    rcases h with hzero | hin
    · rw [hzero, Nat.zero_mul]
      exact Nat.zero_le _
    · omega
  have htail : (s.inst.elemSize - s.tailStart) / s.inst.W ≤ s.tailBlocks :=
    Nat.div_le_of_le_mul (by rw [Nat.mul_comm]; omega)
  rw [State.streamInside, Nat.min_eq_left hmega, Nat.min_eq_right htail, State.streamOf, State.blockList_take,
    State.blockList_drop]

/-- 42_block_driver R142: the stream before the first group outside is the whole stream when there is none. -/
theorem State.streamInside_eq_stream {s : State}
    (h : s.first + s.blocks * s.inst.W ≤ s.inst.elemSize) : s.streamInside = s.stream := by
  have hW := Instance.W_pos s.inst
  have hend := s.tailStart_add
  have hstart : s.tailStart = s.first + s.megablocks * (s.inst.G * s.inst.W) := rfl
  have hmega : s.megablocks ≤ (s.inst.elemSize - s.first) / (s.inst.G * s.inst.W) := by
    rw [Nat.le_div_iff_mul_le (Nat.mul_pos (Instance.G_pos s.inst) hW)]
    omega
  have htail : s.tailBlocks ≤ (s.inst.elemSize - s.tailStart) / s.inst.W := by
    rw [Nat.le_div_iff_mul_le hW]
    omega
  rw [State.streamInside, Nat.min_eq_left hmega, Nat.min_eq_left htail, State.stream]

/-- 42_block_driver R142, 60_exceptions R204: CINT over a range with a full block outside ELEM writes the groups before
it. -/
theorem State.cintRun_outside {s : State} (hpos : 0 < s.blocks)
    (h : s.inst.elemSize < s.first + s.blocks * s.inst.W) :
    s.cintRun = (writeCells s.inst .word s.streamInside s.wordAt s.mem).bind
      fun _ m => .raised (.access .elem (max s.first s.inst.elemSize)) m := by
  have hblocks := s.blocks_eq
  have hend := s.tailStart_add
  have hstart : s.tailStart = s.first + s.megablocks * (s.inst.G * s.inst.W) := rfl
  have hG := Instance.G_pos s.inst
  by_cases hmega : s.megablocks = 0 ∨ s.first + s.megablocks * (s.inst.G * s.inst.W) ≤ s.inst.elemSize
  case pos =>
    have htail : 0 < s.tailBlocks := Nat.pos_of_ne_zero fun hzero => by
      rcases hmega with hnone | hin
      · simp [hzero, hnone] at hblocks
        omega
      · rw [hzero, Nat.zero_mul] at hend
        omega
    have hout : s.inst.elemSize < s.tailStart + s.tailBlocks * (1 * s.inst.W) := by
      rw [Nat.one_mul]
      omega
    have hmax : max s.tailStart s.inst.elemSize = max s.first s.inst.elemSize := by
      rcases hmega with hnone | hin
      · rw [hstart, hnone, Nat.zero_mul, Nat.add_zero]
      · omega
    rw [State.cintRun, compressGroups_inside (N := s.blocks) (by omega) hmega,
      State.streamInside_of_tailBlock hmega (by omega), emit, Run.bind_assoc]
    refine writeCells_bind_append (by decide) fun m' helem => ?_
    rw [Run.bind_done, compressGroups_outside Nat.one_pos (Nat.mul_one s.tailBlocks).le htail hout, hmax, Nat.one_mul,
      Spaces.blocks_congr helem]
  case neg =>
    obtain ⟨hsome, hout⟩ := not_or.1 hmega
    rw [State.cintRun, compressGroups_outside hG (N := s.blocks) (by omega) (by omega) (by omega), Run.bind_assoc,
      State.streamInside_of_megablock (by omega)]
    rfl

/-! ## The statements -/

/-- A range without a full block has an empty stream. -/
theorem State.stream_of_no_blocks {s : State} (h : s.blocks = 0) : s.stream = [] := by
  have hsum := s.widths_sum_le
  obtain ⟨hmega, htail⟩ := State.blocks_eq_zero h
  rw [h, Nat.zero_mul] at hsum
  rw [← List.length_eq_zero_iff, State.stream_length]
  omega

/-- CARRY after CINT (42_block_driver R142). -/
theorem State.carryAfterBlocks_setWidth {s : State} (hs : s.Sound) :
    (carryAfterBlocks s.seed s.blockList).setWidth 64 =
      if s.blocks = 0 then s.carry else s.mem.cell .elem (s.first + s.blocks * s.inst.W - 1) := by
  obtain ⟨-, hwithin, -⟩ := id hs
  rw [carryAfterBlocks, State.blockList_eq, Spaces.blocks_flatten]
  split
  case isTrue hzero =>
    rw [hzero, Nat.zero_mul]
    exact State.seed_setWidth hs
  case isFalse hpos =>
    exact carryAfter_cells_elem hwithin _ _ (Nat.mul_pos (Nat.pos_of_ne_zero hpos) (Instance.W_pos s.inst))

/-- Settles O36: CINT commits after its stream is written. -/
theorem cintWritesPackedStream : Obligations.CintWritesPackedStream := by
  intro s hs hrange hin hroom
  obtain ⟨hlegal, hwithin, -⟩ := id hs
  have hroom' : s.stream = [] ∨ s.wordAt + s.stream.length ≤ extentOf s.inst .word :=
    hroom.imp_left State.stream_of_no_blocks
  refine ⟨s.commit (s.groupResults (carryAfterBlocks s.seed s.blockList, s.wordAt + s.stream.length))
    (s.mem.store .word s.stream s.wordAt), ?exec, ?frame,
    Spaces.cells_store_of_inside hwithin hroom' (Nat.le_refl _) (Instance.W_le s.inst),
    fun i hi => Spaces.cell_store_other _ _ (.inr hi)⟩
  case exec =>
    rw [exec_cint_eq_cintRun hrange, State.cintRun_inside hin, emit, writeCells_done_of_inside _ hroom', Run.bind_done,
      Run.bind_done, Run.finish_done]
  case frame =>
    simp only [State.commit, State.groupResults, Spaces.store_word_eq, Nat.add_sub_cancel_left,
      truncTo_of_lt (State.stream_length_lt hs), State.carryAfterBlocks_setWidth hs, Option.getD_some, Option.getD_none,
      Option.map_none]

/-- Settles O37: a run past WORD stops the writes of the stream before the first group outside ELEM; without one the fault
of that group ends it. -/
theorem cintFaultsAtTheExtents : Obligations.CintFaultsAtTheExtents := by
  intro s hs hrange hpos
  obtain ⟨-, hwithin, -⟩ := hs
  refine ⟨State.streamInside_eq_stream, fun hne hout => ?word, fun hout hroom => ?elem⟩
  case word =>
    refine ⟨_, ?_, (Spaces.store_word_eq _ _ _).symm,
      Spaces.cells_store_take hwithin (Nat.le_refl _) (Instance.W_le s.inst) hout.le,
      fun i hi => Spaces.cell_store_take_other _ _ hi⟩
    have hraised := writeCells_raised (sp := .word) s.mem hne hout
    rw [exec_cint_eq_cintRun hrange]
    rcases Nat.lt_or_ge s.inst.elemSize (s.first + s.blocks * s.inst.W) with hfar | hin
    · rw [State.cintRun_outside hpos hfar, hraised]
      rfl
    · rw [State.cintRun_inside (.inr hin), emit, ← State.streamInside_eq_stream hin, hraised]
      rfl
  case elem =>
    refine ⟨s.mem.store .word s.streamInside s.wordAt, ?_, (Spaces.store_word_eq _ _ _).symm, fun hnil => by rw [hnil]; rfl,
      Spaces.cells_store_of_inside hwithin hroom (Nat.le_refl _) (Instance.W_le s.inst),
      fun i hi => Spaces.cell_store_other _ _ (.inr hi)⟩
    rw [exec_cint_eq_cintRun hrange, State.cintRun_outside hpos hout, writeCells_done_of_inside _ hroom]
    rfl

/-! ## Two runs over adjacent ranges (42_block_driver R144) -/

theorem exec_cint_completed_run {s t : State} (h : exec .cint s = .next t) (ht : t.faulted = false) :
    ∃ r m, s.cintRun = .done r m ∧ t = s.commit (s.groupResults r) m := by
  rcases Nat.lt_or_ge s.last s.first with hdegen | hrange
  · rw [exec_cint, execCint, if_pos hdegen] at h
    obtain ⟨_, _, hrun, -⟩ := Run.finish_next_of_not_faulted h ht
    cases hrun
  · rw [exec_cint_eq_cintRun hrange] at h
    obtain ⟨_, m, hrun, rfl⟩ := Run.finish_next_of_not_faulted h ht
    obtain ⟨r, m', hrun, hend⟩ := Run.bind_eq_done.1 hrun
    cases hend
    exact ⟨r, m, hrun, rfl⟩

/-- A run of CINT that completes ends after its stream. -/
theorem State.cintRun_end {s : State} {r : BitVec s.inst.W × Nat} {m : Spaces} (h : s.cintRun = .done r m) :
    r.2 = s.wordAt + s.stream.length := by
  by_cases hout : 0 < s.blocks ∧ s.inst.elemSize < s.first + s.blocks * s.inst.W
  case pos =>
    obtain ⟨hpos, hfar⟩ := hout
    rw [State.cintRun_outside hpos hfar, Run.bind_eq_done] at h
    obtain ⟨_, _, -, hend⟩ := h
    cases hend
  case neg =>
    rw [State.cintRun_inside (by omega), emit_eq_done] at h
    rw [h.2]

/-- The groups of a range that goes on after `a` megablocks (42_block_driver R140). -/
theorem groups_after_megablocks (p : Instance) (a l : Nat) :
    (a * (p.G * p.W) + l) / p.W / p.G = a + l / p.W / p.G ∧ (a * (p.G * p.W) + l) / p.W % p.G = l / p.W % p.G := by
  have hblocks : (a * (p.G * p.W) + l) / p.W = l / p.W + p.G * a := by
    rw [show a * (p.G * p.W) = p.W * (p.G * a) by ring, Nat.mul_add_div (Instance.W_pos p), Nat.add_comm]
  rw [hblocks, Nat.add_mul_div_left _ _ (Instance.G_pos p), Nat.add_mul_mod_self_left, Nat.add_comm]
  exact ⟨rfl, rfl⟩

/-- The state `s` with its range cut at `mid`. -/
def State.upTo (s : State) (mid : BitVec 64) : State := { s with eend := mid }

/-- The state `t` with the rest of the range of `s`, from `mid` on, and WPTR at `q`. -/
def State.resume (t s : State) (mid : BitVec 64) (q : Nat) : State :=
  { t with eptr := mid, eend := s.eend, wptr := BitVec.ofNat 64 q }

/-- 42_block_driver R144: a run of CINT goes on where a run over whole megablocks has stopped. -/
theorem State.cintRun_joined {s : State} {mid : BitVec 64} (hfirst : s.first ≤ mid.toNat) (hlast : mid.toNat ≤ s.last)
    (hwhole : (mid.toNat - s.first) % (s.inst.G * s.inst.W) = 0) {r₁ r₂ : BitVec s.inst.W × Nat} {m₁ m₂ : Spaces}
    (h₁ : (s.upTo mid).cintRun = .done r₁ m₁)
    (h₂ : ((compressGroups s.inst s.inst.G ((s.last - mid.toNat) / s.inst.W / s.inst.G) mid.toNat r₁.2 r₁.1 m₁).bind
      fun r m => compressGroups s.inst 1 ((s.last - mid.toNat) / s.inst.W % s.inst.G)
        (mid.toNat + (s.last - mid.toNat) / s.inst.W / s.inst.G * (s.inst.G * s.inst.W)) r.2 r.1 m) = .done r₂ m₂) :
    s.cintRun = .done r₂ m₂ := by
  obtain ⟨a, hlen⟩ := Nat.dvd_of_mod_eq_zero hwhole
  rw [Nat.mul_comm] at hlen
  obtain ⟨hmega₁, htail₁⟩ := groups_after_megablocks s.inst a 0
  obtain ⟨hmega, htail⟩ := groups_after_megablocks s.inst a (s.last - mid.toNat)
  rw [← hlen, Nat.zero_div, Nat.zero_div, Nat.add_zero, Nat.add_zero] at hmega₁
  rw [← hlen, Nat.zero_div, Nat.zero_mod, Nat.add_zero] at htail₁
  rw [show a * (s.inst.G * s.inst.W) + (s.last - mid.toNat) = s.len by rw [State.len]; omega] at hmega htail
  change ((compressGroups s.inst s.inst.G ((mid.toNat - s.first) / s.inst.W / s.inst.G) s.first s.wordAt s.seed
    s.mem).bind fun r m => compressGroups s.inst 1 ((mid.toNat - s.first) / s.inst.W % s.inst.G) _ r.2 r.1 m) =
      .done r₁ m₁ at h₁
  rw [hmega₁, htail₁] at h₁
  have hmid : s.first + a * (s.inst.G * s.inst.W) = mid.toNat := by omega
  have hstart : s.tailStart =
      mid.toNat + (s.last - mid.toNat) / s.inst.W / s.inst.G * (s.inst.G * s.inst.W) := by
    rw [State.tailStart, State.megablocks, State.blocks, hmega, Nat.add_mul, ← Nat.add_assoc, hmid]
  have h₁ : compressGroups s.inst s.inst.G a s.first s.wordAt s.seed s.mem = .done r₁ m₁ :=
    (Run.bind_done_right _).symm.trans h₁
  rw [State.cintRun, hstart, State.megablocks, State.tailBlocks, State.blocks, hmega, htail, compressGroups_add, h₁,
    Run.bind_done, hmid, h₂]

/-- The stream of a range shorter than the index registers can count fits RES. -/
theorem State.stream_length_lt_of_len_lt {s : State} (h : s.len < 2 ^ s.inst.idxw) :
    s.stream.length < 2 ^ (s.inst.idxw + 1) :=
  s.stream_length_le_capacity.trans_lt (capacity_lt h)

/-- A carry comes back out of CARRY's container. -/
theorem setWidth_container_setWidth (p : Instance) (c : BitVec p.W) : (c.setWidth 64).setWidth p.W = c := by
  rw [BitVec.setWidth_setWidth_of_le _ (Instance.W_le p), BitVec.setWidth_eq]

/-- RES of a completed CINT is the length of its stream. -/
theorem State.groupResults_res {s : State} (hlegal : s.inst.legal = true) (hlen : s.len < 2 ^ s.inst.idxw)
    {r : BitVec s.inst.W × Nat} {m : Spaces} (h : s.cintRun = .done r m) :
    (s.commit (s.groupResults r) m).res.toNat = s.stream.length := by
  have hidxw := Instance.idxw_le hlegal
  rw [State.commit_res, State.groupResults, State.cintRun_end h, Nat.add_sub_cancel_left, truncTo_toNat _ (by omega),
    Nat.mod_eq_of_lt (State.stream_length_lt_of_len_lt hlen)]

/-- 42_block_driver R144: two completed CINT commands over adjacent ranges, the first of whole megablocks, do what one
over the joined range does. -/
theorem exec_cint_joined {s t u : State} {mid : BitVec 64} (hs : s.Sound) (hfault : s.faulted = false)
    (hfirst : s.first ≤ mid.toNat) (hlast : mid.toNat ≤ s.last)
    (hwhole : (mid.toNat - s.first) % (s.inst.G * s.inst.W) = 0) (hexec₁ : exec .cint (s.upTo mid) = .next t)
    (ht : t.faulted = false) (hexec₂ : exec .cint (t.resume s mid (s.wordAt + t.res.toNat)) = .next u)
    (hu : u.faulted = false) :
    ∃ v, exec .cint s = .next v ∧ v.faulted = false ∧ v.mem = u.mem ∧ v.carry = u.carry ∧
      v.res.toNat = t.res.toNat + u.res.toNat := by
  obtain ⟨hlegal, -, -, -, -, -, hend, hwptr, -⟩ := hs
  have hpow : 2 ^ s.inst.idxw ≤ 2 ^ 62 := Nat.pow_le_pow_right (by decide) (Instance.idxw_le hlegal)
  have hlen₁ : (s.upTo mid).len < 2 ^ s.inst.idxw := (Nat.sub_le _ _).trans_lt (hlast.trans_lt hend)
  have hlen₂ (q : Nat) : (t.resume s mid q).len < 2 ^ s.inst.idxw := (Nat.sub_le _ _).trans_lt hend
  obtain ⟨r₁, m₁, hrun₁, rfl⟩ := exec_cint_completed_run hexec₁ ht
  have hend₁ : r₁.2 = s.wordAt + (s.upTo mid).stream.length := State.cintRun_end hrun₁
  have hfits₁ : (s.upTo mid).stream.length < 2 ^ (s.inst.idxw + 1) := State.stream_length_lt_of_len_lt hlen₁
  have hres₁ := State.groupResults_res (s := s.upTo mid) hlegal hlen₁ hrun₁
  rw [hres₁, ← hend₁] at hexec₂
  obtain ⟨r₂, m₂, hrun₂, rfl⟩ := exec_cint_completed_run hexec₂ hu
  have hwordAt : (BitVec.ofNat 64 r₁.2).toNat = r₁.2 := by
    change s.wordAt < _ at hwptr
    rw [Nat.pow_succ] at hfits₁
    exact Nat.mod_eq_of_lt (by omega)
  have hend₂ : r₂.2 = (BitVec.ofNat 64 r₁.2).toNat + _ := State.cintRun_end hrun₂
  have hcarry : (r₁.1.setWidth 64).setWidth s.inst.W = r₁.1 := setWidth_container_setWidth s.inst r₁.1
  have hrun : s.cintRun = .done r₂ m₂ := by
    refine State.cintRun_joined hfirst hlast hwhole hrun₁ ?_
    rw [← hwordAt, ← hcarry]
    exact hrun₂
  have hwhole := State.cintRun_end hrun
  refine ⟨s.commit (s.groupResults r₂) m₂, ?_, by rwa [faulted_commit], rfl, rfl, ?_⟩
  · rw [exec_cint_eq_cintRun (hfirst.trans hlast), hrun]
    rfl
  · have hres₂ := State.groupResults_res (by exact hlegal) (hlen₂ _) hrun₂
    rw [hres₁, hres₂, State.groupResults_res hlegal ((Nat.sub_le _ _).trans_lt hend) hrun]
    omega

/-- Settles O39: the groups of the whole range are those of the first range, then those of the second. -/
theorem cintStreamsWholeMegablocks : Obligations.CintStreamsWholeMegablocks := by
  intro s t u mid hs hfault hfirst hlast hwhole hexec₁ ht hexec₂ hu
  have hmid : (BitVec.ofNat 64 mid).toNat = mid := Nat.mod_eq_of_lt (hlast.trans_lt s.eend.isLt)
  exact exec_cint_joined hs hfault (by rwa [hmid]) (by rwa [hmid]) (by rwa [hmid]) hexec₁ ht hexec₂ hu

end Sys2Proof.Machine

/-! PROOF. DINT as one list of blocks, each with the header before it when it is the first of its group: the elements it
writes, and where it stops (42_block_driver R145, R146; 60_exceptions R204). -/

namespace Sys2Proof.Machine

open Sys2Proof

variable {p : Instance} {m m' : Spaces}

/-! ## The blocks of a stream, one after another -/

/-- Unpack one block of width `b` from WORD index `r` to ELEM index `i`; the result is the carry after it. -/
def unpackOne (p : Instance) (b i r : Nat) (c : BitVec p.W) (m : Spaces) : Run (BitVec p.W) :=
  if p.W < b then .raised (.width b) m
  else
    Run.get (readCells p .word p.W b r m) m fun ws =>
      (writeBlock p (unpackBlock c ws b) i m).bind fun _ m' => .done (carryAfter c (unpackBlock c ws b)) m'

/-- Unpack blocks from WORD index `r` to ELEM index `i`. Each is given by its width, and by whether it is the first of
its group, which has the header before it. -/
def unpackItems (p : Instance) : List (Bool × Nat) → Nat → Nat → BitVec p.W → Spaces → Run (BitVec p.W × Nat)
  | [], _, r, c, m => .done (c, r) m
  | (f, b) :: rest, i, r, c, m =>
    if f = true ∧ p.wordSize ≤ r then .raised (.access .word r) m
    else
      (unpackOne p b i (r + f.toNat) c m).bind fun c' m' => unpackItems p rest (i + p.W) (r + f.toNat + b) c' m'

/-- The index after the last word of the blocks. -/
def itemsEnd : List (Bool × Nat) → Nat → Nat
  | [], r => r
  | (f, b) :: rest, r => itemsEnd rest (r + f.toNat + b)

/-- The index and the width of the payload of each block. -/
def itemsPayloads : List (Bool × Nat) → Nat → List (Nat × Nat)
  | [], _ => []
  | (f, b) :: rest, r => (r + f.toNat, b) :: itemsPayloads rest (r + f.toNat + b)

theorem itemsEnd_append (as bs : List (Bool × Nat)) (r : Nat) :
    itemsEnd (as ++ bs) r = itemsEnd bs (itemsEnd as r) := by
  induction as generalizing r with
  | nil => rfl
  | cons a as ih => exact ih _

theorem le_itemsEnd (as : List (Bool × Nat)) (r : Nat) : r ≤ itemsEnd as r := by
  induction as generalizing r with
  | nil => exact le_rfl
  | cons a as ih => exact le_trans (by omega) (ih (r + a.1.toNat + a.2))

theorem itemsPayloads_append (as bs : List (Bool × Nat)) (r : Nat) :
    itemsPayloads (as ++ bs) r = itemsPayloads as r ++ itemsPayloads bs (itemsEnd as r) := by
  induction as generalizing r with
  | nil => rfl
  | cons a as ih => exact congrArg (_ :: ·) (ih _)

@[simp] theorem itemsPayloads_length (as : List (Bool × Nat)) (r : Nat) : (itemsPayloads as r).length = as.length := by
  induction as generalizing r with
  | nil => rfl
  | cons a as ih => exact congrArg (· + 1) (ih _)

theorem itemsPayloads_map_snd (as : List (Bool × Nat)) (r : Nat) :
    (itemsPayloads as r).map Prod.snd = as.map Prod.snd := by
  induction as generalizing r with
  | nil => rfl
  | cons a as ih => exact congrArg (_ :: ·) (ih _)

theorem unpackItems_append (as bs : List (Bool × Nat)) (i r : Nat) (c : BitVec p.W) (m : Spaces) :
    unpackItems p (as ++ bs) i r c m =
      (unpackItems p as i r c m).bind fun x m' => unpackItems p bs (i + as.length * p.W) x.2 x.1 m' := by
  induction as generalizing i r c m with
  | nil => simp [unpackItems]
  | cons a as ih =>
    rw [List.cons_append, unpackItems, unpackItems]
    split
    · rfl
    · simp only [ih, Run.bind_assoc, List.length_cons, Nat.succ_mul, Nat.add_comm (as.length * p.W), Nat.add_assoc]

/-- A run that completes ends after the last word. -/
theorem unpackItems_end {as : List (Bool × Nat)} {i r : Nat} {c : BitVec p.W} {x : BitVec p.W × Nat}
    (h : unpackItems p as i r c m = .done x m') : x.2 = itemsEnd as r := by
  induction as generalizing i r c m with
  | nil => cases h; rfl
  | cons a as ih =>
    rw [unpackItems] at h
    split at h
    · cases h
    · obtain ⟨_, _, -, hrest⟩ := Run.bind_eq_done.1 h
      exact ih hrest

/-! ## The blocks of a range as such a list (42_block_driver R146) -/

/-- The blocks of one group: the first one has the header before it. -/
def groupItems : List Nat → List (Bool × Nat)
  | [] => []
  | b :: bs => (true, b) :: bs.map fun b => (false, b)

/-- The blocks of `n` groups of `k` blocks from WORD index `r` on. -/
def groupsItems (p : Instance) (m : Spaces) (k : Nat) : Nat → Nat → List (Bool × Nat)
  | 0, _ => []
  | n + 1, r => groupItems (headerAt p m k r) ++ groupsItems p m k n (r + 1 + (headerAt p m k r).sum)

@[simp] theorem headerAt_length (p : Instance) (m : Spaces) (k r : Nat) : (headerAt p m k r).length = k := by
  unfold headerAt headerWidths
  split
  · simp [*]
  · simp

@[simp] theorem groupItems_length (bs : List Nat) : (groupItems bs).length = bs.length := by
  cases bs <;> simp [groupItems]

@[simp] theorem groupsItems_length (p : Instance) (m : Spaces) (k n r : Nat) :
    (groupsItems p m k n r).length = n * k := by
  induction n generalizing r with
  | zero => simp [groupsItems]
  | succ n ih => rw [groupsItems, List.length_append, groupItems_length, headerAt_length, ih, Nat.succ_mul, Nat.add_comm]

theorem unpackBlocks_eq_unpackItems (bs : List Nat) (i r : Nat) (c : BitVec p.W) (m : Spaces) :
    unpackBlocks p bs i r c m = unpackItems p (bs.map fun b => (false, b)) i r c m := by
  induction bs generalizing i r c m with
  | nil => rfl
  | cons b bs ih =>
    rw [List.map_cons, unpackItems, if_neg (by simp), unpackBlocks, unpackOne, Bool.toNat_false, Nat.add_zero]
    split
    · rfl
    · cases readCells p .word p.W b r m with
      | error _ => rfl
      | ok ws => simp only [Run.get_ok, Run.bind_assoc, Run.bind_done, ih]

theorem decompressGroup_eq_unpackItems {k : Nat} (hk : 0 < k) (i r : Nat) (c : BitVec p.W) (m : Spaces) :
    decompressGroup p k i r c m = unpackItems p (groupItems (headerAt p m k r)) i r c m := by
  obtain ⟨b, bs, hwidths⟩ := List.exists_cons_of_length_pos (l := headerAt p m k r) (by rwa [headerAt_length])
  rw [decompressGroup, hwidths, groupItems, unpackItems]
  split
  case isTrue hout => rw [memRead_of_ge m (by exact hout.2), Run.get_error]
  case isFalse hin =>
    have hread : r < extentOf p .word := Nat.lt_of_not_le fun hle => hin ⟨rfl, hle⟩
    rw [memRead_of_lt m hread, Run.get_ok, ← headerAt, hwidths, unpackBlocks_eq_unpackItems, List.map_cons, unpackItems,
      if_neg (by simp)]
    rfl

theorem headerAt_congr (h : m'.word = m.word) (k r : Nat) : headerAt p m' k r = headerAt p m k r := by
  rw [headerAt, headerAt, Spaces.cell, Spaces.cell, h]

theorem groupsItems_congr (h : m'.word = m.word) (k n r : Nat) : groupsItems p m' k n r = groupsItems p m k n r := by
  induction n generalizing r with
  | zero => rfl
  | succ n ih => rw [groupsItems, groupsItems, headerAt_congr h, ih]

theorem itemsEnd_map_false (bs : List Nat) (r : Nat) : itemsEnd (bs.map fun b => (false, b)) r = r + bs.sum := by
  induction bs generalizing r with
  | nil => rfl
  | cons b bs ih => rw [List.map_cons, itemsEnd, ih, List.sum_cons, Bool.toNat_false, Nat.add_zero, Nat.add_assoc]

theorem itemsPayloads_map_false (bs : List Nat) (r : Nat) :
    itemsPayloads (bs.map fun b => (false, b)) r = payloadsAt bs r := by
  induction bs generalizing r with
  | nil => rfl
  | cons b bs ih => exact congrArg (_ :: ·) (ih _)

theorem itemsEnd_groupItems {bs : List Nat} (h : 0 < bs.length) (r : Nat) :
    itemsEnd (groupItems bs) r = r + 1 + bs.sum := by
  obtain ⟨b, bs, rfl⟩ := List.exists_cons_of_length_pos h
  rw [groupItems, itemsEnd, itemsEnd_map_false, List.sum_cons, Bool.toNat_true, Nat.add_assoc (r + 1)]

theorem itemsPayloads_groupItems (bs : List Nat) (r : Nat) : itemsPayloads (groupItems bs) r = payloadsAt bs (r + 1) := by
  cases bs with
  | nil => rfl
  | cons b bs => exact congrArg (_ :: ·) (itemsPayloads_map_false bs _)

theorem groupsEnd_eq_itemsEnd {k : Nat} (hk : 0 < k) (n r : Nat) :
    groupsEnd p m k n r = itemsEnd (groupsItems p m k n r) r := by
  induction n generalizing r with
  | zero => rfl
  | succ n ih => rw [groupsEnd, ih, groupsItems, itemsEnd_append, itemsEnd_groupItems (by rwa [headerAt_length])]

theorem groupsPayloads_eq_itemsPayloads {k : Nat} (hk : 0 < k) (n r : Nat) :
    groupsPayloads p m k n r = itemsPayloads (groupsItems p m k n r) r := by
  induction n generalizing r with
  | zero => rfl
  | succ n ih =>
    rw [groupsPayloads, ih, groupsItems, itemsPayloads_append, itemsEnd_groupItems (by rwa [headerAt_length]),
      itemsPayloads_groupItems]

theorem decompressGroups_eq_unpackItems {k : Nat} (hk : 0 < k) (n i r : Nat) (c : BitVec p.W) (m : Spaces) :
    decompressGroups p k n i r c m = unpackItems p (groupsItems p m k n r) i r c m := by
  induction n generalizing i r c m with
  | zero => rfl
  | succ n ih =>
    have hword := (decompressGroup_kept (keptBy_elem m) k i r c m ⟨rfl, rfl⟩).1
    rw [decompressGroups, groupsItems, unpackItems_append, groupItems_length, headerAt_length]
    rw [decompressGroup_eq_unpackItems hk] at hword ⊢
    cases hrun : unpackItems p (groupItems (headerAt p m k r)) i r c m with
    | raised _ _ => rfl
    | done x m' =>
      rw [hrun, Run.mem_done] at hword
      rw [Run.bind_done, Run.bind_done, ih, groupsItems_congr hword, unpackItems_end hrun,
        itemsEnd_groupItems (by rwa [headerAt_length])]

/-- A block whose place among its group's is 0 has a header before it. -/
theorem groupsItems_flag {k n r j b : Nat} {f : Bool} (hj : j % k = 0) (h : (groupsItems p m k n r)[j]? = some (f, b)) :
    f = true := by
  induction n generalizing r j with
  | zero => simp [groupsItems] at h
  | succ n ih =>
    rw [groupsItems] at h
    rcases Nat.lt_or_ge j k with hlt | hge
    · rw [Nat.mod_eq_of_lt hlt] at hj
      subst hj
      obtain ⟨b', bs, hwidths⟩ := List.exists_cons_of_length_pos (l := headerAt p m k r) (by rwa [headerAt_length])
      rw [hwidths] at h
      cases h
      rfl
    · rw [List.getElem?_append_right (by simpa using hge), groupItems_length, headerAt_length] at h
      exact ih (by rw [← Nat.mod_eq_sub_mod hge, hj]) h

/-- The blocks of the range of `s` in the stream at WPTR. -/
def State.items (s : State) : List (Bool × Nat) :=
  groupsItems s.inst s.mem s.inst.G s.megablocks s.wordAt ++
    groupsItems s.inst s.mem 1 s.tailBlocks (groupsEnd s.inst s.mem s.inst.G s.megablocks s.wordAt)

@[simp] theorem State.items_length (s : State) : s.items.length = s.blocks := by
  rw [State.items, List.length_append, groupsItems_length, groupsItems_length, Nat.mul_one, s.blocks_eq]

theorem State.payloadList_eq (s : State) : s.payloadList = itemsPayloads s.items s.wordAt := by
  rw [State.payloadList, State.items, itemsPayloads_append, ← groupsEnd_eq_itemsEnd (Instance.G_pos s.inst),
    groupsPayloads_eq_itemsPayloads (Instance.G_pos s.inst), groupsPayloads_eq_itemsPayloads Nat.one_pos]

theorem State.streamEnd_eq (s : State) : s.streamEnd = itemsEnd s.items s.wordAt := by
  rw [State.streamEnd, State.items, itemsEnd_append, ← groupsEnd_eq_itemsEnd (Instance.G_pos s.inst),
    groupsEnd_eq_itemsEnd Nat.one_pos]

theorem State.items_flag {s : State} {k b : Nat} {f : Bool} (hk : k % s.inst.G = 0 ∨ s.megablocks * s.inst.G ≤ k)
    (h : s.items[k]? = some (f, b)) : f = true := by
  rw [State.items] at h
  rcases Nat.lt_or_ge k (s.megablocks * s.inst.G) with hlt | hge
  · rw [List.getElem?_append_left (by simpa using hlt)] at h
    exact groupsItems_flag (hk.resolve_right (by omega)) h
  · rw [List.getElem?_append_right (by simpa using hge)] at h
    exact groupsItems_flag (Nat.mod_one _) h

/-- 42_block_driver R146: DINT unpacks the blocks of its range. -/
theorem exec_dint_eq_unpackItems {s : State} (hpos : s.first < s.last) (hwhole : s.len % s.inst.W = 0) :
    exec .dint s = Run.finish s ((unpackItems s.inst s.items s.first s.wordAt s.seed s.mem).bind
      fun r m => .done (s.groupResults r) m) := by
  have hword := (decompressGroups_kept (keptBy_elem s.mem) s.inst.G s.megablocks s.first s.wordAt s.seed s.mem
    ⟨rfl, rfl⟩).1
  rw [exec_dint, execDint, if_neg (by omega), State.items, unpackItems_append, groupsItems_length]
  rw [decompressGroups_eq_unpackItems (Instance.G_pos s.inst)] at hword ⊢
  cases hrun : unpackItems s.inst (groupsItems s.inst s.mem s.inst.G s.megablocks s.wordAt) s.first s.wordAt s.seed
    s.mem with
  | raised _ _ => rfl
  | done x m' =>
    rw [hrun, Run.mem_done] at hword
    rw [Run.bind_done, Run.bind_done, decompressGroups_eq_unpackItems Nat.one_pos, groupsItems_congr hword,
      unpackItems_end hrun, groupsEnd_eq_itemsEnd (Instance.G_pos s.inst), State.tailStart, Nat.mul_assoc]
    rfl

end Sys2Proof.Machine

/-! PROOF. The elements that DINT writes, and its faults (42_block_driver R145, R146; 60_exceptions R204). -/

namespace Sys2Proof.Machine

open Sys2Proof

variable {p : Instance} {m : Spaces}

/-! ## A run over blocks that decode inside the spaces -/

/-- The blocks decode inside the spaces: no width is above W, and no word and no element lies outside. -/
structure DecodesInside (p : Instance) (as : List (Bool × Nat)) (i r : Nat) : Prop where
  width : ∀ x ∈ as, x.2 ≤ p.W
  word : as = [] ∨ itemsEnd as r ≤ p.wordSize
  elem : as = [] ∨ i + as.length * p.W ≤ p.elemSize

theorem decodeBlocks_congr {m' : Spaces} (h : ∀ j, m'.cell .word j = m.cell .word j) (c : BitVec p.W)
    (l : List (Nat × Nat)) : decodeBlocks p m' c l = decodeBlocks p m c l := by
  induction l generalizing c with
  | nil => rfl
  | cons x l ih => simp only [decodeBlocks, Spaces.cells_congr fun j _ _ => h j, ih]

theorem decodeBlocks_length (p : Instance) (m : Spaces) (c : BitVec p.W) (l : List (Nat × Nat)) :
    (decodeBlocks p m c l).length = l.length * p.W := by
  induction l generalizing c with
  | nil => simp [decodeBlocks]
  | cons x l ih =>
    obtain ⟨r, b⟩ := x
    rw [decodeBlocks, List.length_append, unpackBlock_length _ _ _ (Spaces.cells_length _ _ _ _ _), ih, List.length_cons,
      Nat.succ_mul, Nat.add_comm]

theorem decodeBlocks_append (p : Instance) (m : Spaces) (c : BitVec p.W) (l k : List (Nat × Nat)) :
    decodeBlocks p m c (l ++ k) =
      decodeBlocks p m c l ++ decodeBlocks p m (carryAfter c (decodeBlocks p m c l)) k := by
  induction l generalizing c with
  | nil => rfl
  | cons x l ih =>
    obtain ⟨r, b⟩ := x
    rw [List.cons_append, decodeBlocks, ih, decodeBlocks, List.append_assoc, carryAfter_append]

/-- The elements of blocks, the first at index `r` with its header. -/
def decodeItems (p : Instance) (m : Spaces) (c : BitVec p.W) (as : List (Bool × Nat)) (r : Nat) : List (BitVec p.W) :=
  decodeBlocks p m c (itemsPayloads as r)

@[simp] theorem decodeItems_length (p : Instance) (m : Spaces) (c : BitVec p.W) (as : List (Bool × Nat)) (r : Nat) :
    (decodeItems p m c as r).length = as.length * p.W := by
  rw [decodeItems, decodeBlocks_length, itemsPayloads_length]

theorem decodeItems_store_elem (vs : List (BitVec p.W)) (i : Nat) (m : Spaces) (c : BitVec p.W)
    (as : List (Bool × Nat)) (r : Nat) : decodeItems p (m.store .elem vs i) c as r = decodeItems p m c as r :=
  decodeBlocks_congr (fun _ => Spaces.cell_store_other vs m (.inl (by decide))) c _

/-- Storing to one space leaves the runs of cells of another alone. -/
theorem Spaces.cells_store_other {sp sp' : Space} (h : sp' ≠ sp) {w : Nat} (vs : List (BitVec w)) (i : Nat) (m : Spaces)
    (w' n j : Nat) : (m.store sp vs i).cells sp' w' n j = m.cells sp' w' n j :=
  Spaces.cells_congr fun _ _ _ => Spaces.cell_store_other vs m (.inl h)

/-- One block whose payload lies inside WORD. -/
theorem unpackOne_of_payload {b r : Nat} (hb : b ≤ p.W) (hin : b = 0 ∨ r + b ≤ p.wordSize) (i : Nat) (c : BitVec p.W)
    (m : Spaces) : unpackOne p b i r c m =
      (writeCells p .elem (unpackBlock c (m.cells .word p.W b r) b) i m).bind
        fun _ m' => .done (carryAfter c (unpackBlock c (m.cells .word p.W b r) b)) m' := by
  rw [unpackOne, if_neg (Nat.not_lt.2 hb), readCells_ok_of_inside m hin, Run.get_ok]
  rfl

/-- 42_block_driver R146: blocks that decode inside the spaces are written as they decode. -/
theorem unpackItems_done {as : List (Bool × Nat)} {i r : Nat} (h : DecodesInside p as i r) (c : BitVec p.W) (m : Spaces) :
    unpackItems p as i r c m = .done (carryAfter c (decodeItems p m c as r), itemsEnd as r)
      (m.store .elem (decodeItems p m c as r) i) := by
  induction as generalizing i r c m with
  | nil => rfl
  | cons a as ih =>
    obtain ⟨f, b⟩ := a
    obtain ⟨hwidth, hword, helem⟩ := h
    obtain ⟨hb, hwidth⟩ := List.forall_mem_cons.1 hwidth
    have hword := hword.resolve_left (List.cons_ne_nil _ _)
    have helem := helem.resolve_left (List.cons_ne_nil _ _)
    rw [itemsEnd] at hword
    rw [List.length_cons, Nat.succ_mul] at helem
    have hend := le_itemsEnd as (r + f.toNat + b)
    have hheader : ¬ (f = true ∧ p.wordSize ≤ r) := by
      rintro ⟨rfl, hout⟩
      rw [Bool.toNat_true] at hend hword
      omega
    have hblock := unpackBlock_length c (m.cells .word p.W b (r + f.toNat)) b (Spaces.cells_length _ _ _ _ _)
    have hroom : i + (unpackBlock c (m.cells .word p.W b (r + f.toNat)) b).length ≤ extentOf p .elem := by
      rw [hblock, extentOf]
      omega
    rw [unpackItems, if_neg hheader, unpackOne_of_payload hb (.inr (by omega)), writeCells_done m hroom, Run.bind_done,
      Run.bind_done, ih ⟨hwidth, .inr hword, .inr (by omega)⟩, decodeItems_store_elem, itemsEnd]
    simp only [decodeItems, itemsPayloads, decodeBlocks, carryAfter_append, Spaces.store_append, hblock]

/-- A run goes on after blocks that decode inside the spaces. -/
theorem unpackItems_append_of_inside {as : List (Bool × Nat)} {i r : Nat} (h : DecodesInside p as i r)
    (bs : List (Bool × Nat)) (c : BitVec p.W) (m : Spaces) : unpackItems p (as ++ bs) i r c m =
      unpackItems p bs (i + as.length * p.W) (itemsEnd as r) (carryAfter c (decodeItems p m c as r))
        (m.store .elem (decodeItems p m c as r) i) := by
  rw [unpackItems_append, unpackItems_done h, Run.bind_done]

/-! ## What is left in ELEM -/

/-- ELEM after elements stored inside it: the elements, and every other cell as before. -/
theorem Spaces.stored_elem (hm : m.within p) {vs : List (BitVec p.W)} {i n : Nat} (hn : vs.length = n)
    (hin : vs = [] ∨ i + n ≤ p.elemSize) :
    m.store .elem vs i = { m with elem := (m.store .elem vs i).elem } ∧
      (m.store .elem vs i).cells .elem p.W n i = vs ∧
      ∀ j, j < i ∨ i + n ≤ j → (m.store .elem vs i).cell .elem j = m.cell .elem j := by
  subst hn
  exact ⟨(Spaces.store_elem_eq vs i m).symm, Spaces.cells_store_of_inside hm hin (Nat.le_refl _) (Instance.W_le p),
    fun j hj => Spaces.cell_store_other vs m (.inr hj)⟩

/-- Settles O40: every block decodes inside the spaces, so DINT commits after all of them. -/
theorem dintCompletes : Obligations.DintCompletes := by
  intro s hs hpos hwhole hin hwidth hend
  obtain ⟨hlegal, hwithin, -⟩ := hs
  rw [State.payloadList_eq] at hwidth ⊢
  rw [State.streamEnd_eq] at hend ⊢
  have hrange : s.blocks * s.inst.W = s.last - s.first := Nat.div_mul_cancel (Nat.dvd_of_mod_eq_zero hwhole)
  have hcount : (decodeItems s.inst s.mem s.seed s.items s.wordAt).length = s.len := by
    rw [decodeItems_length, State.items_length, hrange, State.len]
  have hinside : DecodesInside s.inst s.items s.first s.wordAt := by
    refine ⟨fun x hx => ?_, .inr hend, .inr (by rw [State.items_length]; omega)⟩
    have hmem := List.mem_map_of_mem (f := Prod.snd) hx
    rw [← itemsPayloads_map_snd s.items s.wordAt, List.mem_map] at hmem
    obtain ⟨y, hy, hxy⟩ := hmem
    exact hxy ▸ hwidth y hy
  have hroom : s.first + (decodeItems s.inst s.mem s.seed s.items s.wordAt).length ≤ extentOf s.inst .elem := by
    rw [hcount, State.len, extentOf]
    omega
  have hlast := Spaces.cell_store_last s.seed hwithin hroom (Nat.le_refl _) (by rw [hcount, State.len]; omega)
  rw [hcount, show s.first + s.len = s.last by rw [State.len]; omega] at hlast
  obtain ⟨hframe, hcells, hother⟩ := Spaces.stored_elem hwithin hcount (.inr (hcount ▸ hroom))
  rw [show s.first + s.len = s.last by rw [State.len]; omega] at hother
  refine ⟨s.commit (s.groupResults (carryAfter s.seed (decodeItems s.inst s.mem s.seed s.items s.wordAt),
    itemsEnd s.items s.wordAt)) (s.mem.store .elem (decodeItems s.inst s.mem s.seed s.items s.wordAt) s.first), ?exec,
    ?frame, hcells, hother⟩
  case exec => rw [exec_dint_eq_unpackItems hpos hwhole, unpackItems_done hinside, Run.bind_done, Run.finish_done]
  case frame =>
    have hres : truncTo (s.inst.idxw + 1) (itemsEnd s.items s.wordAt - s.wordAt) = _ :=
      truncTo_res_of_le (Instance.extent_lt hlegal .word) (Nat.sub_le_of_le_add (hend.trans (Nat.le_add_right _ _)))
    simp only [State.commit, State.groupResults, ← hframe, hres, hlast, Option.getD_some, Option.getD_none,
      Option.map_none]

/-! ## Block `k` of a range, and the blocks before it -/

/-- Block `k` of the range of `s`, as DINT reaches it: the blocks `as` come before it, `f` says whether it has a header
before it, `b` is its width and `rest` come after it. -/
structure State.BlockAt (s : State) (k : Nat) (as : List (Bool × Nat)) (f : Bool) (b : Nat) (rest : List (Bool × Nat)) :
    Prop where
  items : s.items = as ++ (f, b) :: rest
  length : as.length = k

namespace State.BlockAt

variable {s : State} {k b : Nat} {f : Bool} {as rest : List (Bool × Nat)}

theorem payloadList_eq (h : s.BlockAt k as f b rest) : s.payloadList = itemsPayloads as s.wordAt ++
    (itemsEnd as s.wordAt + f.toNat, b) :: itemsPayloads rest (itemsEnd as s.wordAt + f.toNat + b) := by
  rw [State.payloadList_eq, h.items, itemsPayloads_append, itemsPayloads]

theorem getD (h : s.BlockAt k as f b rest) : s.payloadList.getD k (0, 0) = (itemsEnd as s.wordAt + f.toNat, b) := by
  rw [h.payloadList_eq, List.getD_append_right _ _ _ _ (by simp [h.length]), itemsPayloads_length, h.length, Nat.sub_self,
    List.getD_cons_zero]

theorem take (h : s.BlockAt k as f b rest) : s.payloadList.take k = itemsPayloads as s.wordAt := by
  rw [h.payloadList_eq, List.take_left' (by simp [h.length])]

theorem take_succ (h : s.BlockAt k as f b rest) :
    s.payloadList.take (k + 1) = itemsPayloads as s.wordAt ++ [(itemsEnd as s.wordAt + f.toNat, b)] := by
  rw [h.payloadList_eq, List.take_append, itemsPayloads_length, h.length, List.take_of_length_le (by simp [h.length]),
    Nat.add_sub_cancel_left, List.take_succ_cons, List.take_zero]

theorem widths_le (h : s.BlockAt k as f b rest) (hwidth : ∀ j < k, (s.payloadList.getD j (0, 0)).2 ≤ s.inst.W) :
    ∀ x ∈ as, x.2 ≤ s.inst.W := by
  intro x hx
  obtain ⟨j, hj, rfl⟩ := List.mem_iff_getElem.1 hx
  have hj' : j < (itemsPayloads as s.wordAt).length := by rwa [itemsPayloads_length]
  have hsnd := List.getElem_of_eq (itemsPayloads_map_snd as s.wordAt) (i := j) (by simpa using hj)
  rw [List.getElem_map, List.getElem_map] at hsnd
  have hle := hwidth j (h.length ▸ hj)
  rwa [h.payloadList_eq, List.getD_append _ _ _ _ hj', List.getD_eq_getElem _ _ hj', hsnd] at hle

theorem flag (h : s.BlockAt k as f b rest) (hk : k % s.inst.G = 0 ∨ s.megablocks * s.inst.G ≤ k) : f = true := by
  refine State.items_flag (b := b) hk ?_
  rw [h.items, List.getElem?_append_right h.length.le, h.length, Nat.sub_self]
  rfl

end State.BlockAt

theorem State.exists_blockAt {s : State} {k : Nat} (hk : k < s.payloadList.length) :
    ∃ as f b rest, s.BlockAt k as f b rest := by
  rw [State.payloadList_eq, itemsPayloads_length] at hk
  refine ⟨s.items.take k, s.items[k].1, s.items[k].2, s.items.drop (k + 1), ?_, List.length_take_of_le hk.le⟩
  rw [Prod.mk.eta, ← List.drop_eq_getElem_cons hk, List.take_append_drop]

/-! ## The faults of DINT -/

/-- What DINT has written when it reaches block `k`: the blocks before it, as they decode. -/
theorem State.BlockAt.written {s : State} {k b : Nat} {f : Bool} {as rest : List (Bool × Nat)}
    (h : s.BlockAt k as f b rest) (hm : s.mem.within s.inst)
    (helem : k = 0 ∨ s.first + k * s.inst.W ≤ s.inst.elemSize) :
    s.mem.store .elem (decodeItems s.inst s.mem s.seed as s.wordAt) s.first =
        { s.mem with elem := (s.mem.store .elem (decodeItems s.inst s.mem s.seed as s.wordAt) s.first).elem } ∧
      (s.mem.store .elem (decodeItems s.inst s.mem s.seed as s.wordAt) s.first).cells .elem s.inst.W (k * s.inst.W)
        s.first = decodeBlocks s.inst s.mem s.seed (s.payloadList.take k) ∧
      ∀ i, i < s.first ∨ s.first + k * s.inst.W ≤ i →
        (s.mem.store .elem (decodeItems s.inst s.mem s.seed as s.wordAt) s.first).cell .elem i =
          s.mem.cell .elem i := by
  rw [h.take]
  refine Spaces.stored_elem hm (by rw [decodeItems_length, h.length]) (helem.imp_left fun hzero => ?_)
  rw [← List.length_eq_zero_iff, decodeItems_length, h.length, hzero, Nat.zero_mul]

/-- DINT reaches block `k` when the blocks before it decode inside the spaces. -/
theorem exec_dint_at_block {s : State} {k b : Nat} {f : Bool} {as rest : List (Bool × Nat)}
    (h : s.BlockAt k as f b rest) (hpos : s.first < s.last) (hwhole : s.len % s.inst.W = 0)
    (hwidth : ∀ j < k, (s.payloadList.getD j (0, 0)).2 ≤ s.inst.W)
    (hword : k = 0 ∨ itemsEnd as s.wordAt ≤ s.inst.wordSize)
    (helem : k = 0 ∨ s.first + k * s.inst.W ≤ s.inst.elemSize) :
    exec .dint s = Run.finish s ((unpackItems s.inst ((f, b) :: rest) (s.first + k * s.inst.W) (itemsEnd as s.wordAt)
      (carryAfter s.seed (decodeItems s.inst s.mem s.seed as s.wordAt))
      (s.mem.store .elem (decodeItems s.inst s.mem s.seed as s.wordAt) s.first)).bind
        fun r m => .done (s.groupResults r) m) := by
  have hnil : k = 0 → as = [] := fun hzero => List.length_eq_zero_iff.1 (h.length.trans hzero)
  have hinside : DecodesInside s.inst as s.first s.wordAt :=
    ⟨h.widths_le hwidth, hword.imp_left hnil, h.length.symm ▸ helem.imp_left hnil⟩
  rw [exec_dint_eq_unpackItems hpos hwhole, h.items, unpackItems_append_of_inside hinside, h.length]

/-- The header before a block, when there is one, lies inside WORD. -/
theorem header_inside {f : Bool} {r : Nat} (h : r + f.toNat ≤ p.wordSize) : ¬ (f = true ∧ p.wordSize ≤ r) := by
  rintro ⟨rfl, hout⟩
  rw [Bool.toNat_true] at h
  omega

/-- Settles O41: the blocks before block `k` are written, its header is read, and its width is the fault. -/
theorem dintFaultsAtTheFirstBadWidth : Obligations.DintFaultsAtTheFirstBadWidth := by
  intro s k hs hpos hwhole hk hwidth hbad hword helem
  obtain ⟨-, hwithin, -⟩ := hs
  obtain ⟨as, f, b, rest, h⟩ := State.exists_blockAt hk
  rw [h.getD] at hbad hword ⊢
  refine ⟨_, ?_, h.written hwithin helem⟩
  rw [exec_dint_at_block h hpos hwhole hwidth (.inr (Nat.le_of_add_right_le hword)) helem, unpackItems,
    if_neg (header_inside hword), unpackOne, if_pos hbad]
  rfl

/-- The elements of block `k` below the end of ELEM, stored after the blocks before it. -/
theorem State.BlockAt.store_block_take {s : State} {k b : Nat} {f : Bool} {as rest : List (Bool × Nat)}
    (h : s.BlockAt k as f b rest) (helem : k = 0 ∨ s.first + k * s.inst.W ≤ s.inst.elemSize)
    (vs : List (BitVec s.inst.W)) :
    (s.mem.store .elem (decodeItems s.inst s.mem s.seed as s.wordAt) s.first).store .elem
        (vs.take (s.inst.elemSize - (s.first + k * s.inst.W))) (s.first + k * s.inst.W) =
      s.mem.store .elem ((decodeItems s.inst s.mem s.seed as s.wordAt ++ vs).take (s.inst.elemSize - s.first))
        s.first := by
  have hlen : (decodeItems s.inst s.mem s.seed as s.wordAt).length = k * s.inst.W := by
    rw [decodeItems_length, h.length]
  have hle : k * s.inst.W ≤ s.inst.elemSize - s.first := by
    rcases helem with rfl | hin
    · rw [Nat.zero_mul]
      exact Nat.zero_le _
    · omega
  rw [List.take_append, List.take_of_length_le (hlen.le.trans hle), hlen, Spaces.store_append, hlen, Nat.sub_sub]

theorem State.BlockAt.decodeBlocks_take_succ {s : State} {k b : Nat} {f : Bool} {as rest : List (Bool × Nat)}
    (h : s.BlockAt k as f b rest) : decodeBlocks s.inst s.mem s.seed (s.payloadList.take (k + 1)) =
      decodeItems s.inst s.mem s.seed as s.wordAt ++
        unpackBlock (carryAfter s.seed (decodeItems s.inst s.mem s.seed as s.wordAt))
          (s.mem.cells .word s.inst.W b (itemsEnd as s.wordAt + f.toNat)) b := by
  rw [h.take_succ, decodeBlocks_append, decodeBlocks, decodeBlocks, List.append_nil, ← decodeItems]

/-- A block whose payload lies inside WORD and whose place leaves ELEM. -/
theorem unpackItems_leaving_elem {f : Bool} {b i r : Nat} (hb : b ≤ p.W) (hin : r + f.toNat + b ≤ p.wordSize)
    (hout : p.elemSize < i + p.W) (rest : List (Bool × Nat)) (c : BitVec p.W) (m : Spaces) :
    unpackItems p ((f, b) :: rest) i r c m = .raised (.access .elem (max i p.elemSize))
      (m.store .elem ((unpackBlock c (m.cells .word p.W b (r + f.toNat)) b).take (p.elemSize - i)) i) := by
  have hblock := unpackBlock_length c (m.cells .word p.W b (r + f.toNat)) b (Spaces.cells_length _ _ _ _ _)
  have hne : unpackBlock c (m.cells .word p.W b (r + f.toNat)) b ≠ [] := by
    rw [← List.length_pos_iff, hblock]
    exact Instance.W_pos p
  rw [unpackItems, if_neg (header_inside (Nat.le_of_add_right_le hin)), unpackOne_of_payload hb (.inr hin),
    writeCells_raised (sp := .elem) m hne (by rwa [hblock])]
  rfl

/-- Settles O55: DINT reaches block `k`, and its header, its payload or its place in ELEM lies outside. -/
theorem dintFaultsAtTheExtents : Obligations.DintFaultsAtTheExtents := by
  intro s k r b hs hpos hwhole hk hblock hwidth helem
  obtain ⟨-, hwithin, -⟩ := hs
  obtain ⟨as, f, b', rest, h⟩ := State.exists_blockAt hk
  rw [h.getD, Prod.mk.injEq] at hblock
  obtain ⟨rfl, rfl⟩ := hblock
  refine ⟨fun hfirst hbefore hout => ?header, fun hb hin hout => ?payload, fun hb hin hout => ?block⟩
  case header =>
    obtain rfl := h.flag hfirst
    rw [Bool.toNat_true, Nat.add_sub_cancel] at hbefore hout ⊢
    refine ⟨_, ?_, h.written hwithin helem⟩
    rw [exec_dint_at_block h hpos hwhole hwidth hbefore helem, unpackItems, if_pos ⟨rfl, hout⟩]
    rfl
  case payload =>
    refine ⟨_, ?_, h.written hwithin helem⟩
    rw [exec_dint_at_block h hpos hwhole hwidth (.inr (Nat.le_of_add_right_le hin)) helem, unpackItems,
      if_neg (header_inside hin), unpackOne, if_neg (Nat.not_lt.2 hb),
      readCells_error (sp := .word) _ (by omega) hout, extentOf, Nat.max_eq_right hin]
    rfl
  case block =>
    have hheader := Nat.le_of_add_right_le hin
    have hmax : max (s.first + k * s.inst.W) s.inst.elemSize = max s.first s.inst.elemSize := by
      rcases helem with rfl | hle
      · rw [Nat.zero_mul, Nat.add_zero]
      · omega
    have hcount : (decodeBlocks s.inst s.mem s.seed (s.payloadList.take (k + 1))).length = (k + 1) * s.inst.W := by
      rw [decodeBlocks_length, List.length_take_of_le hk]
    refine ⟨s.mem.store .elem ((decodeBlocks s.inst s.mem s.seed (s.payloadList.take (k + 1))).take
        (s.inst.elemSize - s.first)) s.first, ?_, (Spaces.store_elem_eq _ _ _).symm,
      Spaces.cells_store_take (sp := .elem) hwithin (Nat.le_refl _) (Instance.W_le s.inst) (by rw [hcount]; exact hout.le),
      fun i hi => Spaces.cell_store_take_other _ _ hi⟩
    rw [exec_dint_at_block h hpos hwhole hwidth (.inr (Nat.le_of_add_right_le hheader)) helem,
      unpackItems_leaving_elem hb hin (by rw [Nat.add_assoc, ← Nat.succ_mul]; exact hout),
      Spaces.cells_store_other (by decide), h.store_block_take helem, ← h.decodeBlocks_take_succ, hmax]
    rfl

end Sys2Proof.Machine

/-! PROOF. CVAR and DVAR: what each leaves when it completes, and its faults at the extents (43_varbyte R166, R167;
60_exceptions R204). -/

namespace Sys2Proof.Machine

open Sys2Proof

variable {p : Instance} {m m' : Spaces}

/-! ## The run of CVAR (43_varbyte R166) -/

/-- Over elements inside ELEM CVAR writes their varints. -/
theorem cvarLoop_inside {n i : Nat} (h : n = 0 ∨ i + n ≤ p.elemSize) (a : Nat) (c : BitVec p.W) (m : Spaces) :
    cvarLoop p n i a c m = (writeCells p .byte (varints p c (m.cells .elem p.W n i)) a m).bind fun _ m' =>
      .done (carryAfter c (m.cells .elem p.W n i), a + (varints p c (m.cells .elem p.W n i)).length) m' := by
  induction n generalizing i a c m with
  | zero => rfl
  | succ n ih =>
    have hin := h.resolve_left n.succ_ne_zero
    have hread : i < extentOf p .elem := by rw [extentOf]; omega
    rw [cvarLoop_succ, memRead_of_lt m hread, Run.get_ok, Spaces.cells_succ, varints_cons]
    refine writeCells_bind_append (by decide) fun m' helem => ?_
    rw [ih (.inr (by omega)), Spaces.cells_elem_congr helem, carryAfter_cons, List.length_append, Nat.add_assoc]

/-- Over elements of which one lies outside ELEM, CVAR writes the varints of those before it. -/
theorem cvarLoop_outside {n i : Nat} (hn : 0 < n) (h : p.elemSize < i + n) (a : Nat) (c : BitVec p.W) (m : Spaces) :
    cvarLoop p n i a c m = (writeCells p .byte (varints p c (m.cells .elem p.W (p.elemSize - i) i)) a m).bind
      fun _ m' => .raised (.access .elem (max i p.elemSize)) m' := by
  obtain ⟨l, hl⟩ := Nat.exists_eq_add_of_lt (show p.elemSize - i < n by omega)
  have hmax : i + (p.elemSize - i) = max i p.elemSize := by omega
  have hout : extentOf p .elem ≤ max i p.elemSize := Nat.le_max_right _ _
  rw [hl, Nat.add_assoc, cvarLoop_add, cvarLoop_inside (by omega), Run.bind_assoc, hmax]
  simp only [Run.bind_done, cvarLoop_succ, memRead_of_ge _ hout, Run.get_error]

theorem exec_cvar_eq_cvarLoop {s : State} (h : s.first ≤ s.last) :
    exec .cvar s = Run.finish s ((cvarLoop s.inst s.len s.first s.byteAt s.seed s.mem).bind
      fun r m => .done (s.varByteResults r) m) := by
  rw [exec_cvar, execCvar, if_neg (Nat.not_lt.2 h)]
  rfl

/-- CARRY after CVAR and DVAR, for the elements of the range in ELEM. -/
theorem State.carryAfter_elements_setWidth {s : State} (hs : s.Sound) (hrange : s.first ≤ s.last) :
    (carryAfter s.seed s.elements).setWidth 64 = if s.len = 0 then s.carry else s.mem.cell .elem (s.last - 1) := by
  obtain ⟨-, hwithin, -⟩ := id hs
  rw [State.elements]
  split
  case isTrue hzero =>
    rw [hzero]
    exact State.seed_setWidth hs
  case isFalse hpos =>
    rw [carryAfter_cells_elem hwithin _ _ (Nat.pos_of_ne_zero hpos), State.len, Nat.add_sub_cancel' hrange]

/-- Settles O50: CVAR commits after its varints are written. -/
theorem cvarCompletes : Obligations.CvarCompletes := by
  intro s hs hrange hin hroom
  obtain ⟨hlegal, hwithin, -, -, -, -, -, -, hbptr⟩ := id hs
  have hroom' : s.varStream = [] ∨ s.byteAt + s.varStream.length ≤ extentOf s.inst .byte := by
    refine hroom.imp_left fun hzero => ?_
    rw [State.varStream_eq, List.length_eq_zero_iff.1 (s.elements_length.trans hzero), varints_nil]
  have hin' : s.len = 0 ∨ s.first + s.len ≤ s.inst.elemSize := by rw [State.len] at hin ⊢; omega
  have hend : s.byteAt + s.varStream.length < 2 ^ s.inst.idxw := by
    rcases hroom' with hnil | hle
    · rw [hnil]
      exact hbptr
    · exact hle.trans_lt (Instance.extent_lt hlegal .byte)
  refine ⟨s.commit (s.varByteResults (carryAfter s.seed s.elements, s.byteAt + s.varStream.length))
    (s.mem.store .byte s.varStream s.byteAt), ?exec, ?frame,
    Spaces.cells_store_of_inside hwithin hroom' (Nat.le_refl 8) (by decide),
    fun i hi => Spaces.cell_store_other _ _ (.inr hi)⟩
  case exec =>
    rw [exec_cvar_eq_cvarLoop hrange, cvarLoop_inside hin', ← State.elements, ← State.varStream_eq,
      writeCells_done_of_inside _ hroom', Run.bind_done, Run.bind_done, Run.finish_done]
  case frame =>
    simp only [State.commit, State.varByteResults, Spaces.store_byte_eq, Nat.add_sub_cancel_left, truncTo_of_lt hend,
      truncTo_res_of_le hend (Nat.le_add_left _ _), State.carryAfter_elements_setWidth hs hrange, Option.getD_some,
      Option.getD_none, Option.map_some]

theorem State.varStreamInside_of_inside {s : State} (h : s.last ≤ s.inst.elemSize) :
    s.varStreamInside = s.varStream := by
  rw [State.varStreamInside, Nat.min_eq_left (by rw [State.len]; omega)]
  rfl

theorem State.varStreamInside_of_outside {s : State} (h : s.inst.elemSize ≤ s.last) :
    s.varStreamInside =
      varints s.inst s.seed (s.mem.cells .elem s.inst.W (s.inst.elemSize - s.first) s.first) := by
  rw [State.varStreamInside, Nat.min_eq_right (by rw [State.len]; omega)]
  rfl

/-- 43_varbyte R166: CVAR over a range that leaves ELEM. -/
theorem exec_cvar_outside {s : State} (hpos : s.first < s.last) (hout : s.inst.elemSize < s.last) :
    exec .cvar s = Run.finish s ((writeCells s.inst .byte s.varStreamInside s.byteAt s.mem).bind
      fun _ m => .raised (.access .elem (max s.first s.inst.elemSize)) m) := by
  have hlen : s.first + s.len = s.last := Nat.add_sub_cancel' hpos.le
  rw [exec_cvar_eq_cvarLoop hpos.le, cvarLoop_outside (by omega) (by omega), Run.bind_assoc,
    State.varStreamInside_of_outside hout.le]
  rfl

/-- Settles O51: a run past BYTE stops the writes of the varints of the elements inside ELEM; without one the first
element outside ends it. -/
theorem cvarFaultsAtTheExtents : Obligations.CvarFaultsAtTheExtents := by
  intro s hs hpos
  obtain ⟨-, hwithin, -⟩ := hs
  refine ⟨State.varStreamInside_of_inside, fun hne hout => ?byte, fun hout hroom => ?elem⟩
  case byte =>
    refine ⟨_, ?_, (Spaces.store_byte_eq _ _ _).symm, Spaces.cells_store_byte_take hwithin hout,
      fun i hi => Spaces.cell_store_take_other _ _ hi⟩
    have hraised := writeCells_raised (sp := .byte) s.mem hne hout
    rcases Nat.lt_or_ge s.inst.elemSize s.last with hfar | hin
    · rw [exec_cvar_outside hpos hfar, hraised]
      rfl
    · rw [State.varStreamInside_of_inside hin] at hraised ⊢
      rw [exec_cvar_eq_cvarLoop hpos.le, cvarLoop_inside (by rw [State.len]; omega), ← State.elements,
        ← State.varStream_eq, hraised]
      rfl
  case elem =>
    refine ⟨s.mem.store .byte s.varStreamInside s.byteAt, ?_, (Spaces.store_byte_eq _ _ _).symm,
      fun hnil => by rw [hnil]; rfl, Spaces.cells_store_of_inside hwithin hroom (Nat.le_refl 8) (by decide),
      fun i hi => Spaces.cell_store_other _ _ (.inr hi)⟩
    rw [exec_cvar_outside hpos hout, writeCells_done_of_inside _ hroom]
    rfl

/-! ## The run of DVAR (43_varbyte R167) -/

theorem varDecodeLoop_congr (h : ∀ j, m'.cell .byte j = m.cell .byte j) (bp fuel : Nat) (x : Byte) (n : Nat)
    (acc : BitVec p.W) : varDecodeLoop p bp m' fuel x n acc = varDecodeLoop p bp m fuel x n acc := by
  induction fuel generalizing x n acc with
  | zero => rfl
  | succ fuel ih => simp only [varDecodeLoop, memRead, h, ih]

theorem varDecode_congr (h : ∀ j, m'.cell .byte j = m.cell .byte j) (bp : Nat) :
    varDecode p bp m' = varDecode p bp m := by
  simp only [varDecode, memRead, h, varDecodeLoop_congr h]

/-- The varints of the values `d 0`, ..., `d (k - 1)` stand in BYTE at the positions `pos 0`, ..., each where the one
before it ends. -/
def VarintsAt (p : Instance) (m : Spaces) (pos : Nat → Nat) (d : Nat → BitVec p.W) (k : Nat) : Prop :=
  ∀ i < k, ∃ n, varDecode p (pos i) m = .ok (d i, n) ∧ pos (i + 1) = pos i + n

/-- The running sum of the values `d 0`, ..., `d (k - 1)`. -/
def runningSum (c : BitVec p.W) (d : Nat → BitVec p.W) (k : Nat) : List (BitVec p.W) :=
  undelta c ((List.range k).map d)

@[simp] theorem runningSum_length (c : BitVec p.W) (d : Nat → BitVec p.W) (k : Nat) :
    (runningSum c d k).length = k := by
  simp [runningSum]

theorem runningSum_succ (c : BitVec p.W) (d : Nat → BitVec p.W) (k : Nat) :
    runningSum c d (k + 1) = (c + d 0) :: runningSum (c + d 0) (fun i => d (i + 1)) k := by
  simp [runningSum, List.range_succ_eq_map, Function.comp_def]

/-- DVAR over `k` varints and as many elements inside ELEM, and then over `l` more. -/
theorem dvarLoop_add {k i : Nat} {pos : Nat → Nat} {d : Nat → BitVec p.W} (hread : VarintsAt p m pos d k)
    (hin : k = 0 ∨ i + k ≤ p.elemSize) (l : Nat) (c : BitVec p.W) :
    dvarLoop p (k + l) i (pos 0) c m = dvarLoop p l (i + k) (pos k) (carryAfter c (runningSum c d k))
      (m.store .elem (runningSum c d k) i) := by
  induction k generalizing i pos d c m with
  | zero => rw [Nat.zero_add]; rfl
  | succ k ih =>
    have hroom := hin.resolve_left k.succ_ne_zero
    obtain ⟨n, hdecode, hnext⟩ := hread 0 k.succ_pos
    have hread' : VarintsAt p (m.setCell .elem i ((c + d 0).setWidth 64)) (fun j => pos (j + 1)) (fun j => d (j + 1)) k :=
      fun j hj => by
        obtain ⟨n, hn⟩ := hread (j + 1) (Nat.succ_lt_succ hj)
        rw [← varDecode_congr fun j => Spaces.cell_setCell_other m ((c + d 0).setWidth 64) (sp := .elem) (i := i)
          (.inl (by decide))] at hn
        exact ⟨n, hn⟩
    have hwrite : i < extentOf p .elem := by rw [extentOf]; omega
    have hrest := ih hread' (i := i + 1) (.inr (by omega)) (c + d 0)
    rw [Nat.succ_add, dvarLoop, hdecode, Run.get_ok, memWrite_of_lt _ m hwrite, Run.get_ok, ← hnext, hrest,
      runningSum_succ, carryAfter_cons, Spaces.store, Nat.add_assoc, Nat.add_comm 1]

theorem exec_dvar_eq_dvarLoop {s : State} (h : s.first ≤ s.last) :
    exec .dvar s = Run.finish s ((dvarLoop s.inst s.len s.first s.byteAt s.seed s.mem).bind
      fun r m => .done (s.varByteResults r) m) := by
  rw [exec_dvar, execDvar, if_neg (Nat.not_lt.2 h)]
  rfl

/-- The last varint ends inside BYTE; without one BPTR stands where it stood. -/
theorem VarintsAt.end_lt {k : Nat} {pos : Nat → Nat} {d : Nat → BitVec p.W} (h : VarintsAt p m pos d k)
    (hlegal : p.legal = true) (hpos : pos 0 < 2 ^ p.idxw) : pos k < 2 ^ p.idxw := by
  cases k with
  | zero => exact hpos
  | succ k =>
    obtain ⟨n, hdecode, hnext⟩ := h k k.lt_succ_self
    obtain ⟨-, hin, -⟩ := varDecode_eq_ok hdecode
    rw [hnext]
    exact hin.trans_lt (Instance.extent_lt hlegal .byte)

/-- Settles O52: DVAR commits after the running sum of the values is written. -/
theorem dvarCompletes : Obligations.DvarCompletes := by
  intro s pos d hs hrange hin hpos hread
  obtain ⟨hlegal, hwithin, -, -, -, -, -, -, hbptr⟩ := id hs
  have hlen : s.first + s.len = s.last := Nat.add_sub_cancel' hrange
  have hin' : s.len = 0 ∨ s.first + s.len ≤ s.inst.elemSize := by rwa [hlen]
  have hend : pos s.len < 2 ^ s.inst.idxw := VarintsAt.end_lt hread hlegal (hpos ▸ hbptr)
  obtain ⟨hframe, hcells, hother⟩ := Spaces.stored_elem hwithin (runningSum_length s.seed d s.len)
    (hin'.imp_left fun h => List.length_eq_zero_iff.1 ((runningSum_length _ _ _).trans h))
  rw [hlen] at hother
  refine ⟨s.commit (s.varByteResults (carryAfter s.seed (runningSum s.seed d s.len), pos s.len))
    (s.mem.store .elem (runningSum s.seed d s.len) s.first), ?exec, ?frame, hcells, hother⟩
  case exec =>
    have hloop := dvarLoop_add (l := 0) hread hin' s.seed
    rw [Nat.add_zero] at hloop
    rw [exec_dvar_eq_dvarLoop hrange, ← hpos, hloop, dvarLoop, Run.bind_done, Run.finish_done]
  case frame =>
    have hcarry : (carryAfter s.seed (runningSum s.seed d s.len)).setWidth 64 = if s.len = 0 then s.carry else
        (s.mem.store .elem (runningSum s.seed d s.len) s.first).cell .elem (s.last - 1) := by
      split
      case isTrue hzero =>
        rw [hzero]
        exact State.seed_setWidth hs
      case isFalse hne =>
        have hlast := Spaces.cell_store_last (sp := .elem) s.seed (vs := runningSum s.seed d s.len) hwithin
          (by rw [runningSum_length]; exact hin'.resolve_left hne) (Nat.le_refl _)
          (by rw [runningSum_length]; exact Nat.pos_of_ne_zero hne)
        rw [← hlast, runningSum_length, hlen]
    simp only [State.commit, State.varByteResults, ← hframe, truncTo_of_lt hend, truncTo_res_of_le hend (Nat.sub_le _ _),
      hcarry, Option.getD_some, Option.getD_none, Option.map_some]

/-- Settles O53: DVAR has taken `k` varints and written `k` elements when it reaches the one that lies outside. -/
theorem dvarFaultsAtTheExtents : Obligations.DvarFaultsAtTheExtents := by
  intro s pos d k r hs hrange hk hin hpos hread hfault
  obtain ⟨-, hwithin, -⟩ := hs
  obtain ⟨l, hl⟩ := Nat.exists_eq_add_of_lt hk
  refine ⟨_, ?_, Spaces.stored_elem hwithin (runningSum_length s.seed d k)
    (hin.imp_left fun h => List.length_eq_zero_iff.1 ((runningSum_length _ _ _).trans h))⟩
  have hdecode : varDecode s.inst (pos k) (s.mem.store .elem (runningSum s.seed d k) s.first) =
      varDecode s.inst (pos k) s.mem := varDecode_congr (fun j => Spaces.cell_store_other _ s.mem (.inl (by decide))) _
  rw [exec_dvar_eq_dvarLoop hrange.le, ← hpos, hl, Nat.add_assoc, dvarLoop_add hread hin, dvarLoop, hdecode]
  rcases hfault with hbyte | ⟨⟨x, hx⟩, hout, rfl⟩
  · rw [hbyte]
    rfl
  · rw [hx, Run.get_ok, memWrite_of_ge (sp := .elem) _ _ hout]
    rfl

end Sys2Proof.Machine

/-! PROOF. How a command can end: each command as one run, the values it can commit, the faults it can raise and the cells
it can have written (10_state R32, 20_memory R55, 60_exceptions R202, R204). -/

namespace Sys2Proof.Machine

open Sys2Proof

variable {p : Instance} {sp : Space} {m m₁ m₂ : Spaces} {α β : Type}

/-! ## What holds when a run ends -/

/-- The run completes with `Q`, or raises a fault with `E`. -/
def Run.Ends (Q : α → Spaces → Prop) (E : Raise → Spaces → Prop) : Run α → Prop
  | .done a m => Q a m
  | .raised r m => E r m

theorem Run.ends_bind {P : α → Spaces → Prop} {Q : β → Spaces → Prop} {E F : Raise → Spaces → Prop} {x : Run α}
    {k : α → Spaces → Run β} (hx : x.Ends P F) (hraised : ∀ r m, F r m → E r m)
    (hdone : ∀ a m, P a m → (k a m).Ends Q E) : (x.bind k).Ends Q E := by
  cases x with
  | done a m => exact hdone a m hx
  | raised r m => exact hraised r m hx

theorem Run.ends_get {Q : β → Spaces → Prop} {E : Raise → Spaces → Prop} {x : Except Raise α} {k : α → Run β}
    (herror : ∀ r, x = .error r → E r m) (hok : ∀ a, x = .ok a → (k a).Ends Q E) : (Run.get x m k).Ends Q E := by
  cases x with
  | ok a => exact hok a rfl
  | error r => exact herror r rfl

theorem Run.Ends.imp {Q Q' : α → Spaces → Prop} {E E' : Raise → Spaces → Prop} {x : Run α} (h : x.Ends Q E)
    (hdone : ∀ a m, Q a m → Q' a m) (hraised : ∀ r m, E r m → E' r m) : x.Ends Q' E' := by
  cases x with
  | done a m => exact hdone a m h
  | raised r m => exact hraised r m h

/-! ## Values stored from an index on -/

/-- `m₂` is `m₁` with at most `n` values stored in `sp` from index `i` on, inside the extent. -/
def Spaces.StoredIn (p : Instance) (sp : Space) (i n : Nat) (m₁ m₂ : Spaces) : Prop :=
  ∃ vs : List (BitVec (cellBitsOf p sp)), m₂ = m₁.store sp vs i ∧ vs.length ≤ n ∧
    (vs = [] ∨ i + vs.length ≤ extentOf p sp)

theorem Spaces.StoredIn.refl (p : Instance) (sp : Space) (i n : Nat) (m : Spaces) : Spaces.StoredIn p sp i n m m :=
  ⟨[], rfl, Nat.zero_le n, .inl rfl⟩

theorem Spaces.StoredIn.mono {i n k : Nat} (h : Spaces.StoredIn p sp i n m₁ m₂) (hn : n ≤ k) :
    Spaces.StoredIn p sp i k m₁ m₂ := by
  obtain ⟨vs, hm, hlen, hin⟩ := h
  exact ⟨vs, hm, hlen.trans hn, hin⟩

/-- More values stored after `l` values. -/
theorem Spaces.StoredIn.append {us : List (BitVec (cellBitsOf p sp))} {i n l : Nat} (hl : us.length = l)
    (hus : us = [] ∨ i + us.length ≤ extentOf p sp) (h : Spaces.StoredIn p sp (i + l) n (m.store sp us i) m₂) :
    Spaces.StoredIn p sp i (l + n) m m₂ := by
  subst hl
  obtain ⟨vs, rfl, hlen, hin⟩ := h
  refine ⟨us ++ vs, (Spaces.store_append us vs i m).symm, by rw [List.length_append]; omega, ?_⟩
  rcases hin with rfl | hin
  · simpa using hus
  · rw [List.length_append]
    exact .inr (by omega)

theorem Spaces.StoredIn.within {i n : Nat} (h : Spaces.StoredIn p sp i n m₁ m₂) (hm : m₁.within p) : m₂.within p := by
  obtain ⟨vs, rfl, -, rfl | hin⟩ := h
  · exact hm
  · exact Spaces.store_within vs hm hin le_rfl

theorem Spaces.StoredIn.cell {i n k : Nat} {sp' : Space} (h : Spaces.StoredIn p sp i n m₁ m₂)
    (hk : sp' ≠ sp ∨ k < i ∨ i + n ≤ k) : m₂.cell sp' k = m₁.cell sp' k := by
  obtain ⟨vs, rfl, hlen, -⟩ := h
  exact Spaces.cell_store_other vs m₁ (hk.imp_right fun h => by omega)

/-- Only the space stored to changes. -/
theorem Spaces.StoredIn.other {i n : Nat} (h : Spaces.StoredIn p sp i n m₁ m₂) :
    (sp ≠ .elem → m₂.elem = m₁.elem) ∧ (sp ≠ .word → m₂.word = m₁.word) ∧ (sp ≠ .byte → m₂.byte = m₁.byte) := by
  obtain ⟨vs, rfl, -, -⟩ := h
  cases sp <;> simp

/-! ## The runs that commands are made of -/

/-- A run of writes, however it ends. -/
theorem writeCells_ends (vs : List (BitVec (cellBitsOf p sp))) (i : Nat) (m : Spaces) : (writeCells p sp vs i m).Ends
    (fun _ m' => m' = m.store sp vs i ∧ (vs = [] ∨ i + vs.length ≤ extentOf p sp))
    (fun r m' => (∃ j, r = .access sp j) ∧ Spaces.StoredIn p sp i vs.length m m') := by
  by_cases hin : vs = [] ∨ i + vs.length ≤ extentOf p sp
  case pos =>
    rw [writeCells_done_of_inside m hin]
    exact ⟨rfl, hin⟩
  case neg =>
    obtain ⟨hne, hout⟩ := not_or.1 hin
    rw [writeCells_raised m hne (Nat.not_le.1 hout)]
    refine ⟨⟨_, rfl⟩, _, rfl, List.length_take_le' _ _, ?_⟩
    rw [← List.length_eq_zero_iff, List.length_take]
    omega

theorem writeCells_ends_storedIn {vs : List (BitVec (cellBitsOf p sp))} {n : Nat} (h : vs.length ≤ n) (i : Nat)
    (m : Spaces) : (writeCells p sp vs i m).Ends (fun _ m' => Spaces.StoredIn p sp i n m m')
      (fun r m' => (∃ j, r = .access sp j) ∧ Spaces.StoredIn p sp i n m m') :=
  (writeCells_ends vs i m).imp (fun _ _ hdone => ⟨vs, hdone.1, h, hdone.2⟩)
    fun _ _ hraised => ⟨hraised.1, hraised.2.mono h⟩

/-- The faults of reading a block that packs, or not (41_bitpack R124). -/
theorem packBlock_cases {w b : Nat} (c : BitVec w) (e : List (BitVec w)) :
    packBlock c e b = .ok (blockPayload c e b) ∨ ∃ i, packBlock c e b = .error (.overflow i) := by
  unfold packBlock blockPayload
  split
  · exact .inl rfl
  · split
    · exact .inr ⟨_, rfl⟩
    · exact .inl (apply_ite Except.ok _ _ _).symm

/-- The faults that DINT can raise once its range is not degenerate (42_block_driver R146). -/
def Raise.OfDint (r : Raise) : Prop := (∃ b, r = .width b) ∨ (∃ j, r = .access .word j) ∨ ∃ j, r = .access .elem j

theorem unpackOne_ends (b i r : Nat) (c : BitVec p.W) (m : Spaces) : (unpackOne p b i r c m).Ends
    (fun _ m' => ∃ vs : List (BitVec p.W), vs.length = p.W ∧ m' = m.store .elem vs i ∧
      (vs = [] ∨ i + vs.length ≤ p.elemSize))
    (fun r m' => r.OfDint ∧ Spaces.StoredIn p .elem i p.W m m') := by
  have hkept := Spaces.StoredIn.refl p .elem i p.W m
  unfold unpackOne
  split
  case isTrue => exact ⟨.inl ⟨b, rfl⟩, hkept⟩
  case isFalse =>
    refine Run.ends_get (fun r h => ⟨.inr (.inl (eq_access_of_readCells_eq_error h)), hkept⟩) fun ws hws => ?_
    obtain rfl := eq_cells_of_readCells_eq_ok hws
    have hlen := unpackBlock_length c (m.cells .word p.W b r) b (Spaces.cells_length _ _ _ _ _)
    refine Run.ends_bind (writeCells_ends (sp := .elem) _ i m) (fun r m' h => ⟨.inr (.inr h.1), hlen ▸ h.2⟩)
      fun _ m' h => ⟨_, hlen, h⟩

theorem unpackItems_ends (as : List (Bool × Nat)) (i r : Nat) (c : BitVec p.W) (m : Spaces) :
    (unpackItems p as i r c m).Ends (fun _ m' => Spaces.StoredIn p .elem i (as.length * p.W) m m')
      (fun r m' => r.OfDint ∧ Spaces.StoredIn p .elem i (as.length * p.W) m m') := by
  induction as generalizing i r c m with
  | nil => exact Spaces.StoredIn.refl _ _ _ _ _
  | cons a as ih =>
    obtain ⟨f, b⟩ := a
    have hcount : (as.length + 1) * p.W = p.W + as.length * p.W := by ring
    rw [unpackItems, List.length_cons, hcount]
    split
    case isTrue => exact ⟨.inr (.inl ⟨_, rfl⟩), Spaces.StoredIn.refl _ _ _ _ _⟩
    case isFalse =>
      refine Run.ends_bind (unpackOne_ends b i _ c m) (fun r m' h => ⟨h.1, h.2.mono (Nat.le_add_right _ _)⟩) ?_
      rintro c' _ ⟨vs, hlen, rfl, hin⟩
      exact (ih (i + p.W) _ c' _).imp (fun _ m' h => h.append hlen hin) fun r m' h => ⟨h.1, h.2.append hlen hin⟩

theorem dvarLoop_ends (n i a : Nat) (c : BitVec p.W) (m : Spaces) : (dvarLoop p n i a c m).Ends
    (fun _ m' => Spaces.StoredIn p .elem i n m m')
    (fun r m' => ((∃ j, r = .access .byte j) ∨ ∃ j, r = .access .elem j) ∧ Spaces.StoredIn p .elem i n m m') := by
  induction n generalizing i a c m with
  | zero => exact Spaces.StoredIn.refl _ _ _ _ _
  | succ n ih =>
    have hkept := Spaces.StoredIn.refl p .elem i (n + 1) m
    rw [dvarLoop]
    refine Run.ends_get (fun r h => ⟨.inl ⟨_, varDecode_eq_error h⟩, hkept⟩) fun x _ => ?_
    rcases Nat.lt_or_ge i (extentOf p .elem) with hin | hout
    · rw [memWrite_of_lt _ m hin, Run.get_ok, Nat.add_comm n]
      exact (ih (i + 1) _ _ _).imp (fun _ m' h => h.append (p := p) (sp := .elem) (us := [c + x.1]) rfl (.inr hin))
        fun r m' h => ⟨h.1, h.2.append (p := p) (sp := .elem) (us := [c + x.1]) rfl (.inr hin)⟩
    · rw [memWrite_of_ge _ m hout, Run.get_error]
      exact ⟨.inr ⟨i, rfl⟩, hkept⟩

/-- A run of CVAR writes at most KMAX bytes for each element (43_varbyte R168). -/
theorem cvarLoop_ends (n i a : Nat) (c : BitVec p.W) (m : Spaces) : (cvarLoop p n i a c m).Ends
    (fun _ m' => Spaces.StoredIn p .byte a (p.kmax * n) m m')
    (fun r m' => ((∃ j, r = .access .byte j) ∨ ∃ j, r = .access .elem j) ∧
      Spaces.StoredIn p .byte a (p.kmax * n) m m') := by
  have hlen {l : Nat} (hl : l ≤ n) : (varints p c (m.cells .elem p.W l i)).length ≤ p.kmax * n := by
    have hbound := (varints_length_bounds c (m.cells .elem p.W l i)).2
    rw [Spaces.cells_length] at hbound
    exact hbound.trans (Nat.mul_le_mul_left _ hl)
  have hstored {l : Nat} (hl : l ≤ n) := writeCells_ends_storedIn (p := p) (sp := .byte) (hlen hl) a m
  by_cases hin : n = 0 ∨ i + n ≤ p.elemSize
  case pos =>
    rw [cvarLoop_inside hin]
    exact Run.ends_bind (hstored le_rfl) (fun r m' h => ⟨.inl h.1, h.2⟩) fun _ m' h => h
  case neg =>
    obtain ⟨hpos, hout⟩ := not_or.1 hin
    rw [cvarLoop_outside (Nat.pos_of_ne_zero hpos) (by omega)]
    exact Run.ends_bind (hstored (by omega)) (fun r m' h => ⟨.inl h.1, h.2⟩) fun _ m' h => ⟨.inr ⟨_, rfl⟩, h⟩

/-- Groups of verbatim blocks take the most words. -/
theorem groupStream_length_le {w : Nat} (k n : Nat) (c : BitVec w) {es : List (List (BitVec w))}
    (hlen : ∀ e ∈ es, e.length = w) : (groupStream k n c es).length ≤ n * (1 + k * w) := by
  have hsum := List.sum_le_card_nsmul _ _ (groupWidths_le c (es.take (n * k)))
  have hcount : (groupWidths c (es.take (n * k))).length ≤ n * k := by
    rw [groupWidths_length]
    exact List.length_take_le _ _
  have hmul := Nat.mul_le_mul_right w hcount
  rw [smul_eq_mul] at hsum
  rw [groupStream_length k n hlen, Nat.mul_add, Nat.mul_one, ← Nat.mul_assoc]
  omega

theorem State.streamInside_length_le_capacity (s : State) : s.streamInside.length ≤ capacity s.inst s.len := by
  have hlen := s.length_of_mem_blockList
  have hmega := Nat.mul_le_mul_right (1 + s.inst.G * s.inst.W)
    (Nat.min_le_left s.megablocks ((s.inst.elemSize - s.first) / (s.inst.G * s.inst.W)))
  have htail := Nat.mul_le_mul_right (1 + 1 * s.inst.W)
    (Nat.min_le_left s.tailBlocks ((s.inst.elemSize - s.tailStart) / s.inst.W))
  rw [State.streamInside, State.streamOf, List.length_append, s.capacity_eq_groups]
  exact Nat.add_le_add ((groupStream_length_le _ _ _ hlen).trans hmega)
    ((groupStream_length_le _ _ _ fun e he => hlen e (List.mem_of_mem_drop he)).trans htail)

/-- A run of CINT writes at most Cap(n) words (44_capacity R182). -/
theorem State.cintRun_ends (s : State) : s.cintRun.Ends
    (fun _ m => Spaces.StoredIn s.inst .word s.wordAt (capacity s.inst s.len) s.mem m)
    (fun r m => ((∃ j, r = .access .word j) ∨ ∃ j, r = .access .elem j) ∧
      Spaces.StoredIn s.inst .word s.wordAt (capacity s.inst s.len) s.mem m) := by
  have hstored {ws : List (BitVec s.inst.W)} (hlen : ws.length ≤ capacity s.inst s.len) :=
    writeCells_ends_storedIn (p := s.inst) (sp := .word) hlen s.wordAt s.mem
  by_cases hin : s.blocks = 0 ∨ s.first + s.blocks * s.inst.W ≤ s.inst.elemSize
  case pos =>
    rw [State.cintRun_inside hin, emit]
    exact Run.ends_bind (hstored s.stream_length_le_capacity) (fun r m' h => ⟨.inl h.1, h.2⟩) fun _ m' h => h
  case neg =>
    obtain ⟨hpos, hout⟩ := not_or.1 hin
    rw [State.cintRun_outside (Nat.pos_of_ne_zero hpos) (by omega)]
    exact Run.ends_bind (hstored s.streamInside_length_le_capacity) (fun r m' h => ⟨.inl h.1, h.2⟩)
      fun _ m' h => ⟨.inr ⟨_, rfl⟩, h⟩

/-! ## Each command as one run -/

/-- The run of a command from the registers and spaces of `s`, to the results it commits or the fault it raises. -/
def State.commandRun (s : State) : Instr → Run Results
  | .est =>
    Run.get (readBlock s.inst s.first s.mem) s.mem fun e => .done { res := blockWidth s.seed e } s.mem
  | .pack b =>
    if s.inst.W < b then .raised (.width b) s.mem
    else
      Run.get (readBlock s.inst s.first s.mem) s.mem fun e =>
        Run.get (packBlock s.seed e b) s.mem fun out =>
          (writeCells s.inst .word out s.wordAt s.mem).bind fun _ m => .done (s.blockResults b e) m
  | .unpack b =>
    if s.inst.W < b then .raised (.width b) s.mem
    else
      Run.get (readCells s.inst .word s.inst.W b s.wordAt s.mem) s.mem fun ws =>
        (writeBlock s.inst (unpackBlock s.seed ws b) s.first s.mem).bind fun _ m =>
          .done (s.blockResults b (unpackBlock s.seed ws b)) m
  | .cint =>
    if s.last < s.first then .raised .degen s.mem
    else s.cintRun.bind fun r m => .done (s.groupResults r) m
  | .dint =>
    if s.last ≤ s.first ∨ s.len % s.inst.W ≠ 0 then .raised .degen s.mem
    else
      (unpackItems s.inst s.items s.first s.wordAt s.seed s.mem).bind fun r m => .done (s.groupResults r) m
  | .cap =>
    if s.last < s.first then .raised .degen s.mem else .done { res := capacity s.inst s.len } s.mem
  | .cvar =>
    if s.last < s.first then .raised .degen s.mem
    else
      (cvarLoop s.inst s.len s.first s.byteAt s.seed s.mem).bind fun r m => .done (s.varByteResults r) m
  | .dvar =>
    if s.last < s.first then .raised .degen s.mem
    else
      (dvarLoop s.inst s.len s.first s.byteAt s.seed s.mem).bind fun r m => .done (s.varByteResults r) m
  | .wrvar =>
    (writeCells s.inst .byte (varEncode s.inst.kmax s.value) s.byteAt s.mem).bind fun _ m =>
      .done { res := (varEncode s.inst.kmax s.value).length,
              bptr := some (s.byteAt + (varEncode s.inst.kmax s.value).length) } m
  | .rdvar =>
    Run.get (varDecode s.inst s.byteAt s.mem) s.mem fun x =>
      .done { res := x.2, val := some (x.1.setWidth 64), bptr := some (s.byteAt + x.2) } s.mem

/-- 42_block_driver R146: the degenerate ranges of DINT. -/
theorem exec_dint_degen {s : State} (h : s.last = 0 ∨ s.last ≤ s.first ∨ s.len % s.inst.W ≠ 0) :
    exec .dint s = .next (s.raise .degen s.mem) := by
  rw [exec_dint, execDint, if_pos h, Run.finish_raised]

theorem exec_cint_degen {s : State} (h : s.last < s.first) : exec .cint s = .next (s.raise .degen s.mem) := by
  rw [exec_cint, execCint, if_pos h, Run.finish_raised]

theorem exec_cvar_degen {s : State} (h : s.last < s.first) : exec .cvar s = .next (s.raise .degen s.mem) := by
  rw [exec_cvar, execCvar, if_pos h, Run.finish_raised]

theorem exec_dvar_degen {s : State} (h : s.last < s.first) : exec .dvar s = .next (s.raise .degen s.mem) := by
  rw [exec_dvar, execDvar, if_pos h, Run.finish_raised]

/-- Every command is its run, and the commit or the fault at its end (70_reset_and_hazards R240). -/
theorem exec_eq_finish_commandRun (i : Instr) (s : State) : exec i s = Run.finish s (s.commandRun i) := by
  cases i with
  | est | pack | unpack | cap | wrvar | rdvar => rfl
  | cint =>
    rw [State.commandRun]
    split
    case isTrue h => exact exec_cint_degen h
    case isFalse h => exact exec_cint_eq_cintRun (Nat.not_lt.1 h)
  | dint =>
    rw [State.commandRun]
    split
    case isTrue h => exact exec_dint_degen (.inr h)
    case isFalse h => exact exec_dint_eq_unpackItems (by omega) (by omega)
  | cvar =>
    rw [State.commandRun]
    split
    case isTrue h => exact exec_cvar_degen h
    case isFalse h => exact exec_cvar_eq_cvarLoop (Nat.not_lt.1 h)
  | dvar =>
    rw [State.commandRun]
    split
    case isTrue h => exact exec_dvar_degen h
    case isFalse h => exact exec_dvar_eq_dvarLoop (Nat.not_lt.1 h)

/-- Settles O19: the test for a degenerate range comes before anything else. -/
theorem degenerateRangesFault : Obligations.DegenerateRangesFault :=
  ⟨fun _ h => ⟨exec_cint_degen h, exec_cvar_degen h, exec_dvar_degen h, exec_cap_degen h⟩, fun _ => exec_dint_degen⟩

end Sys2Proof.Machine

/-! PROOF. What every command leaves: its frame, its faults, the registers it does not name, and the invariant of the
machine (10_state R28, R32; 20_memory R55; 60_exceptions R202, R204; 70_reset_and_hazards R240). -/

namespace Sys2Proof.Machine

open Sys2Proof

variable {s t : State} {i : Instr} {m : Spaces}

/-! ## The law of a command -/

/-- The spaces `m` are those of `s` but for cells of the destination of `i` (10_state R32, 20_memory R55). -/
def State.Writes (s : State) (i : Instr) (m : Spaces) : Prop :=
  match spaceWritten i with
  | none => m = s.mem
  | some sp => Spaces.StoredIn s.inst sp (s.destination i).1 ((s.destination i).2 - (s.destination i).1) s.mem m

theorem State.writes_self (s : State) (i : Instr) : s.Writes i s.mem := by
  unfold State.Writes
  split
  · rfl
  · exact Spaces.StoredIn.refl _ _ _ _ _

theorem State.writes_of_storedIn {sp : Space} {n : Nat} (hsp : spaceWritten i = some sp)
    (hn : n ≤ (s.destination i).2 - (s.destination i).1)
    (h : Spaces.StoredIn s.inst sp (s.destination i).1 n s.mem m) : s.Writes i m := by
  unfold State.Writes
  rw [hsp]
  exact h.mono hn

/-- What the command `i` may commit from `s`: registers that the table says it writes, with values of their widths. -/
structure State.Completes (s : State) (i : Instr) (r : Results) (m : Spaces) : Prop where
  carry : ∀ v, r.carry = some v → Reg.carry ∈ registersWritten i ∧ fitsIn s.inst.W v
  val : ∀ v, r.val = some v → Reg.val ∈ registersWritten i ∧ fitsIn s.inst.W v
  bptr : ∀ v, r.bptr = some v → Reg.bptr ∈ registersWritten i
  mem : s.Writes i m

/-- The faults that the command `i` may raise from `s`, with the spaces it may leave (60_exceptions R202, R204). -/
structure State.Faults (s : State) (i : Instr) (r : Raise) (m : Spaces) : Prop where
  cause : (r.cause, r.spaceCode) ∈ causesOf i
  early : r.cause = 3 ∨ r.cause = 5 ∨ (r.cause = 2 ∧ i ≠ .dint) → m = s.mem
  mem : s.Writes i m

theorem State.faults_before_writing {r : Raise} (hr : (r.cause, r.spaceCode) ∈ causesOf i) : s.Faults i r s.mem :=
  ⟨hr, fun _ => rfl, s.writes_self i⟩

theorem State.faults_access {sp : Space} {r : Raise} (hr : ∃ j, r = .access sp j) (hsp : (4, sp.code) ∈ causesOf i)
    (hm : s.Writes i m) : s.Faults i r m := by
  obtain ⟨j, rfl⟩ := hr
  exact ⟨hsp, by simp [Raise.cause], hm⟩

/-- A command that commits a carry, and perhaps BPTR. -/
theorem State.completes_of_carry {r : Results} {c : BitVec s.inst.W} (hr : r.carry = some (c.setWidth 64))
    (hcarry : Reg.carry ∈ registersWritten i) (hval : r.val = none) (hbptr : r.bptr = none ∨ Reg.bptr ∈ registersWritten i)
    (hm : s.Writes i m) : s.Completes i r m where
  carry v hv := by
    obtain rfl := Option.some.inj (hr.symm.trans hv)
    exact ⟨hcarry, setWidth_toNat_lt c le_rfl⟩
  val v hv := by simp [hval] at hv
  bptr v hv := hbptr.resolve_left (by simp [hv])
  mem := hm

/-! ## Each command keeps its law -/

theorem est_ends (s : State) : (s.commandRun .est).Ends (s.Completes .est) (s.Faults .est) :=
  Run.ends_get (fun _ h => State.faults_access (eq_access_of_readCells_eq_error h) (by decide) rfl)
    fun _ _ => ⟨nofun, nofun, nofun, rfl⟩

theorem pack_ends (b : Nat) (s : State) :
    (s.commandRun (.pack b)).Ends (s.Completes (.pack b)) (s.Faults (.pack b)) := by
  rw [State.commandRun]
  split
  case isTrue => exact State.faults_before_writing (by simp [Raise.cause, Raise.spaceCode, causesOf])
  case isFalse hb =>
    refine Run.ends_get (fun r h => ?read) fun e he => ?_
    case read =>
      exact State.faults_access (eq_access_of_readCells_eq_error h) (by simp [Space.code, causesOf]) (s.writes_self _)
    obtain rfl := eq_cells_of_readCells_eq_ok he
    have hlen := blockPayload_length (c := s.seed) s.block_length (Nat.not_lt.1 hb)
    rcases packBlock_cases (b := b) s.seed s.block with hpack | ⟨j, hpack⟩
    · have hwrites {m} (h : Spaces.StoredIn s.inst .word s.wordAt b s.mem m) : s.Writes (.pack b) m :=
        State.writes_of_storedIn rfl (Nat.le_sub_of_add_le' le_rfl) h
      rw [← State.block, hpack, Run.get_ok]
      exact Run.ends_bind (writeCells_ends_storedIn (sp := .word) hlen.le _ _)
        (fun r m h => State.faults_access h.1 (by simp [Space.code, causesOf]) (hwrites h.2))
        fun _ m h => State.completes_of_carry rfl (by simp [registersWritten]) rfl (.inl rfl) (hwrites h)
    · rw [← State.block, hpack, Run.get_error]
      exact State.faults_before_writing (by simp [Raise.cause, Raise.spaceCode, causesOf])

theorem unpack_ends (b : Nat) (s : State) :
    (s.commandRun (.unpack b)).Ends (s.Completes (.unpack b)) (s.Faults (.unpack b)) := by
  rw [State.commandRun]
  split
  case isTrue => exact State.faults_before_writing (by simp [Raise.cause, Raise.spaceCode, causesOf])
  case isFalse =>
    refine Run.ends_get (fun r h => ?read) fun ws hws => ?_
    case read =>
      exact State.faults_access (eq_access_of_readCells_eq_error h) (by simp [Space.code, causesOf]) (s.writes_self _)
    obtain rfl := eq_cells_of_readCells_eq_ok hws
    have hwrites {m} (h : Spaces.StoredIn s.inst .elem s.first s.inst.W s.mem m) : s.Writes (.unpack b) m :=
      State.writes_of_storedIn rfl (Nat.le_sub_of_add_le' le_rfl) h
    exact Run.ends_bind (writeCells_ends_storedIn (sp := .elem) (s.unpacked_length b).le _ _)
      (fun r m h => State.faults_access h.1 (by simp [Space.code, causesOf]) (hwrites h.2))
      fun _ m h => State.completes_of_carry rfl (by simp [registersWritten]) rfl (.inl rfl) (hwrites h)

theorem cint_ends (s : State) : (s.commandRun .cint).Ends (s.Completes .cint) (s.Faults .cint) := by
  have hwrites {m} (h : Spaces.StoredIn s.inst .word s.wordAt (capacity s.inst s.len) s.mem m) : s.Writes .cint m :=
    State.writes_of_storedIn rfl (Nat.le_sub_of_add_le' le_rfl) h
  rw [State.commandRun]
  split
  case isTrue => exact State.faults_before_writing (by decide)
  case isFalse =>
    exact Run.ends_bind s.cintRun_ends
      (fun r m h => h.1.elim (fun hr => State.faults_access hr (by decide) (hwrites h.2))
        fun hr => State.faults_access hr (by decide) (hwrites h.2))
      fun r m h => State.completes_of_carry rfl (by decide) rfl (.inl rfl) (hwrites h)

theorem dint_ends (s : State) : (s.commandRun .dint).Ends (s.Completes .dint) (s.Faults .dint) := by
  rw [State.commandRun]
  split
  case isTrue => exact State.faults_before_writing (by decide)
  case isFalse hrange =>
    have hlen : s.items.length * s.inst.W ≤ s.last - s.first := by
      rw [State.items_length]
      exact Nat.div_mul_le_self _ _
    have hwrites {m} (h : Spaces.StoredIn s.inst .elem s.first (s.items.length * s.inst.W) s.mem m) : s.Writes .dint m :=
      State.writes_of_storedIn rfl hlen h
    refine Run.ends_bind (unpackItems_ends _ _ _ _ _) (fun r m h => ?fault)
      fun r m h => State.completes_of_carry rfl (by decide) rfl (.inl rfl) (hwrites h)
    case fault =>
      obtain ⟨⟨b, rfl⟩ | hr | hr, hm⟩ := h
      · exact ⟨by simp [Raise.cause, Raise.spaceCode, causesOf], by simp [Raise.cause], hwrites hm⟩
      · exact State.faults_access hr (by decide) (hwrites hm)
      · exact State.faults_access hr (by decide) (hwrites hm)

theorem cap_ends (s : State) : (s.commandRun .cap).Ends (s.Completes .cap) (s.Faults .cap) := by
  rw [State.commandRun]
  split
  case isTrue => exact State.faults_before_writing (by decide)
  case isFalse => exact ⟨nofun, nofun, nofun, rfl⟩

theorem cvar_ends (s : State) : (s.commandRun .cvar).Ends (s.Completes .cvar) (s.Faults .cvar) := by
  have hwrites {m} (h : Spaces.StoredIn s.inst .byte s.byteAt (s.inst.kmax * s.len) s.mem m) : s.Writes .cvar m :=
    State.writes_of_storedIn rfl (Nat.le_sub_of_add_le' le_rfl) h
  rw [State.commandRun]
  split
  case isTrue => exact State.faults_before_writing (by decide)
  case isFalse =>
    exact Run.ends_bind (cvarLoop_ends _ _ _ _ _)
      (fun r m h => h.1.elim (fun hr => State.faults_access hr (by decide) (hwrites h.2))
        fun hr => State.faults_access hr (by decide) (hwrites h.2))
      fun r m h => State.completes_of_carry rfl (by decide) rfl (.inr (by decide)) (hwrites h)

theorem dvar_ends (s : State) : (s.commandRun .dvar).Ends (s.Completes .dvar) (s.Faults .dvar) := by
  have hwrites {m} (h : Spaces.StoredIn s.inst .elem s.first s.len s.mem m) : s.Writes .dvar m :=
    State.writes_of_storedIn rfl le_rfl h
  rw [State.commandRun]
  split
  case isTrue => exact State.faults_before_writing (by decide)
  case isFalse =>
    exact Run.ends_bind (dvarLoop_ends _ _ _ _ _)
      (fun r m h => h.1.elim (fun hr => State.faults_access hr (by decide) (hwrites h.2))
        fun hr => State.faults_access hr (by decide) (hwrites h.2))
      fun r m h => State.completes_of_carry rfl (by decide) rfl (.inr (by decide)) (hwrites h)

theorem wrvar_ends (s : State) : (s.commandRun .wrvar).Ends (s.Completes .wrvar) (s.Faults .wrvar) := by
  have hlen : (varEncode s.inst.kmax s.value).length ≤ s.inst.kmax := by
    rw [Instance.varEncode_length_eq]
    exact Instance.varLen_le_kmax s.value
  have hwrites {m} (h : Spaces.StoredIn s.inst .byte s.byteAt s.inst.kmax s.mem m) : s.Writes .wrvar m :=
    State.writes_of_storedIn rfl (Nat.le_sub_of_add_le' le_rfl) h
  exact Run.ends_bind (writeCells_ends_storedIn (sp := .byte) hlen _ _)
    (fun r m h => State.faults_access h.1 (by decide) (hwrites h.2))
    fun _ m h => ⟨nofun, nofun, fun _ _ => by decide, hwrites h⟩

theorem rdvar_ends (s : State) : (s.commandRun .rdvar).Ends (s.Completes .rdvar) (s.Faults .rdvar) := by
  refine Run.ends_get (fun r h => State.faults_access ⟨_, varDecode_eq_error h⟩ (by decide) rfl) fun x _ => ?_
  refine ⟨nofun, fun v hv => ⟨by decide, ?_⟩, fun _ _ => by decide, rfl⟩
  obtain rfl := Option.some.inj hv
  exact setWidth_toNat_lt x.1 le_rfl

theorem commandRun_ends (i : Instr) (s : State) : (s.commandRun i).Ends (s.Completes i) (s.Faults i) := by
  cases i with
  | est => exact est_ends s
  | pack b => exact pack_ends b s
  | unpack b => exact unpack_ends b s
  | cint => exact cint_ends s
  | dint => exact dint_ends s
  | cap => exact cap_ends s
  | cvar => exact cvar_ends s
  | dvar => exact dvar_ends s
  | wrvar => exact wrvar_ends s
  | rdvar => exact rdvar_ends s

/-- Everything that a command can do: it commits results, or it takes a fault. -/
theorem exec_next (h : exec i s = .next t) :
    (∃ r m, s.Completes i r m ∧ t = s.commit r m) ∨ ∃ r m, s.Faults i r m ∧ t = s.raise r m := by
  have hends := commandRun_ends i s
  rw [exec_eq_finish_commandRun] at h
  rcases Run.finish_next h with ⟨r, m, hrun, rfl⟩ | ⟨r, m, hrun, rfl⟩
  · exact .inl ⟨r, m, by rwa [hrun] at hends, rfl⟩
  · exact .inr ⟨r, m, by rwa [hrun] at hends, rfl⟩

end Sys2Proof.Machine

/-! PROOF. The statements about every command and every step, from the law of a command (10_state R28, R32; 20_memory R55;
60_exceptions R202, R204; 70_reset_and_hazards R240). -/

namespace Sys2Proof.Machine

open Sys2Proof

variable {s t : State} {i : Instr}

/-! ## The end of a command -/

/-- Settles O12: a run ends in a commit or in a fault, and either gives a next state. -/
theorem everyCommandEnds : Obligations.EveryCommandEnds := by
  intro i s
  rw [exec_eq_finish_commandRun]
  cases s.commandRun i with
  | done r m => exact ⟨_, rfl⟩
  | raised r m => exact ⟨_, rfl⟩

@[simp] theorem busy_commit (r : Results) (m : Spaces) (s : State) : (s.commit r m).busy = false := by
  rw [State.busy, State.commit_status, clearBusy_getLsbD]
  exact Bool.and_false _

/-- An accepted write of CMD runs its command or raises E_OPCODE (30_encoding R80, R84). -/
theorem writeCmd_next {w : BitVec 32} (h : writeCmd w s = .next t) :
    (∃ i, exec i s.begin = .next t) ∨ t = s.raise (.opcode w) s.mem := by
  unfold writeCmd at h
  split at h
  · exact .inl ⟨_, h⟩
  · cases h
    exact .inr rfl

/-- STATUS of an idle core is the same after BUSY was set and cleared. -/
theorem commit_begin_status (hs : s.busy = false) (r : Results) (m : Spaces) :
    (s.begin.commit r m).status = s.status := by
  rw [State.commit_status, State.begin_status, clearBusy_setBusy, clearBusy_of_idle hs]

/-- Settles O13: a commit clears BUSY and nothing else of STATUS; a fault clears BUSY and sets FAULT. -/
theorem commandLeavesCoreIdle : Obligations.CommandLeavesCoreIdle := by
  intro s t v hs h
  rw [hostStep_regWrite_cmd hs] at h
  rcases writeCmd_next h with ⟨i, hexec⟩ | rfl
  · rcases exec_next hexec with ⟨r, m, -, rfl⟩ | ⟨r, m, -, rfl⟩
    · exact ⟨busy_commit _ _ _, fun _ => ⟨commit_begin_status hs.1 r m, rfl⟩⟩
    · exact ⟨busy_raise _ _ _, fun h => by simp at h⟩
  · exact ⟨busy_raise _ _ _, fun h => by simp at h⟩

/-! ## The faults of a command -/

/-- A command that ends with FAULT set has taken one of its faults. -/
theorem exec_next_of_faulted (hs : s.faulted = false) (h : exec i s = .next t) (ht : t.faulted = true) :
    ∃ r m, s.Faults i r m ∧ t = s.raise r m := by
  rcases exec_next h with ⟨r, m, -, rfl⟩ | hraised
  · rw [faulted_commit, hs] at ht
    cases ht
  · exact hraised

/-- Settles O17: taking a fault writes STATUS and FINFO, and the faults named come before the first write of a cell. -/
theorem faultingCommandKeepsRegisters : Obligations.FaultingCommandKeepsRegisters := by
  intro i s t hs h ht
  obtain ⟨r, m, hr, rfl⟩ := exec_next_of_faulted hs h ht
  rw [cause_raise]
  exact ⟨rfl, hr.early⟩

/-- Settles O18: STATUS names the fault, which is in the command's row. -/
theorem commandsRaiseOnlyTheirCauses : Obligations.CommandsRaiseOnlyTheirCauses := by
  intro i s t hs h ht
  obtain ⟨r, m, hr, rfl⟩ := exec_next_of_faulted hs h ht
  rw [cause_raise, spaceField_raise]
  exact hr.cause

/-! ## The frame of a command (10_state R32, 20_memory R55) -/

theorem Option.getD_eq_of_none {α : Type} {x : Option α} {a : α} (h : ∀ v, x ≠ some v) : x.getD a = a := by
  rw [Option.eq_none_iff_forall_ne_some.2 h, Option.getD_none]

/-- The cells a command may have written. -/
theorem State.Writes.frame {m : Spaces} (h : s.Writes i m) :
    (spaceWritten i ≠ some Space.elem → m.elem = s.mem.elem) ∧
      (spaceWritten i ≠ some Space.word → m.word = s.mem.word) ∧
      (spaceWritten i ≠ some Space.byte → m.byte = s.mem.byte) ∧
      ∀ sp k, spaceWritten i ≠ some sp ∨ k < (s.destination i).1 ∨ (s.destination i).2 ≤ k →
        m.cell sp k = s.mem.cell sp k := by
  unfold State.Writes at h
  split at h
  case h_1 hnone =>
    subst h
    exact ⟨fun _ => rfl, fun _ => rfl, fun _ => rfl, fun _ _ _ => rfl⟩
  case h_2 sp hsp =>
    obtain ⟨helem, hword, hbyte⟩ := h.other
    simp only [hsp, ne_eq, Option.some.injEq]
    exact ⟨helem, hword, hbyte, fun sp' k hk => h.cell (hk.imp Ne.symm fun h => by omega)⟩

/-- Settles O20: a commit writes only the registers of the command's row, a fault none, and neither a cell outside the
destination. -/
theorem commandsWriteOnlyTheirState : Obligations.CommandsWriteOnlyTheirState := by
  intro i s t h
  rcases exec_next h with ⟨r, m, hr, rfl⟩ | ⟨r, m, hr, rfl⟩
  · refine ⟨rfl, rfl, rfl, fun hn => ?carry, fun hn => ?val, fun hn => ?bptr, rfl, rfl, rfl, hr.mem.frame⟩
    case carry => exact Option.getD_eq_of_none fun v hv => hn (hr.carry v hv).1
    case val => exact Option.getD_eq_of_none fun v hv => hn (hr.val v hv).1
    case bptr =>
      rw [State.commit_bptr, Option.eq_none_iff_forall_ne_some.2 fun v hv => hn (hr.bptr v hv)]
      rfl
  · exact ⟨rfl, rfl, rfl, fun _ => rfl, fun _ => rfl, fun _ => rfl, rfl, rfl, rfl, hr.mem.frame⟩

/-! ## The registers a command does not name (10_state R32) -/

/-- A command reads no register that the table marks "-": row by row, a register that is named is excluded, and with
another value in any other the run unfolds to the same one. -/
theorem commandRun_writeReg {r : Reg} (hr : r ∈ [Reg.carry, .val, .eptr, .eend, .wptr, .bptr])
    (hi : r ∉ registersUsed i) (s : State) (v : BitVec 64) : (s.writeReg r v).commandRun i = s.commandRun i := by
  cases i <;> cases r <;> simp [registersUsed] at hr hi <;> rfl

theorem registersWritten_subset (i : Instr) : registersWritten i ⊆ registersUsed i := by
  cases i <;> simp [registersWritten, registersUsed]

/-- A commit leaves a register that the command does not write, so it may be written before it or after it. -/
theorem commit_writeReg {r : Results} {m : Spaces} (hr : s.Completes i r m) {x : Reg} (hx : x ∉ registersWritten i)
    (v : BitVec 64) : (s.writeReg x v).commit r m = (s.commit r m).writeReg x v := by
  cases x with
  | carry =>
    have hnone : r.carry = none := Option.eq_none_iff_forall_ne_some.2 fun v hv => hx (hr.carry v hv).1
    simp [State.commit, State.writeReg, hnone]
  | val =>
    have hnone : r.val = none := Option.eq_none_iff_forall_ne_some.2 fun v hv => hx (hr.val v hv).1
    simp [State.commit, State.writeReg, hnone]
  | bptr =>
    have hnone : r.bptr = none := Option.eq_none_iff_forall_ne_some.2 fun v hv => hx (hr.bptr v hv)
    simp [State.commit, State.writeReg, hnone]
  | _ => rfl

theorem raise_writeReg (r : Raise) (m : Spaces) (s : State) (x : Reg) (v : BitVec 64) :
    (s.writeReg x v).raise r m = (s.raise r m).writeReg x v := by
  cases x <;> rfl

/-- Settles O21: the run does not depend on the register, and its end does not write it. -/
theorem commandsIgnoreUnnamedRegisters : Obligations.CommandsIgnoreUnnamedRegisters := by
  intro i x s v hx hi
  have hends := commandRun_ends i s
  simp only [exec_eq_finish_commandRun, commandRun_writeReg hx hi]
  cases hrun : s.commandRun i with
  | done r m =>
    rw [hrun] at hends
    exact ⟨_, rfl, congrArg Host.Outcome.next (commit_writeReg hends (fun h => hi (registersWritten_subset i h)) v)⟩
  | raised r m => exact ⟨_, rfl, congrArg Host.Outcome.next (raise_writeReg r m s x v)⟩

/-! ## One step of the host -/

/-- Everything that a write of a register can do (10_state R29). -/
theorem hostRegWrite_next {n : Fin 16} {v : BitVec 64} (h : hostStep (.regWrite n v) s = .next t) :
    t = s ∨ s.Accepting ∧ (writeCmd (v.setWidth 32) s = .next t ∨ t = s.writeReg (regNumbered n) v) := by
  change hostRegWrite n v s = _ at h
  unfold hostRegWrite at h
  split at h
  case isTrue =>
    cases h
    exact .inl rfl
  case isFalse hidle =>
    have hs : s.Accepting := by simpa using hidle
    split at h
    · exact .inr ⟨hs, .inl h⟩
    · cases h
      exact .inr ⟨hs, .inr rfl⟩

theorem exec_inst (h : exec i s = .next t) : t.inst = s.inst := by
  rcases exec_next h with ⟨r, m, -, rfl⟩ | ⟨r, m, -, rfl⟩ <;> rfl

theorem hostStep_inst {op : HostOp} (h : hostStep op s = .next t) : t.inst = s.inst := by
  cases op with
  | regWrite n v =>
    rcases hostRegWrite_next h with rfl | ⟨-, hcmd | rfl⟩
    · rfl
    · rcases writeCmd_next hcmd with ⟨i, hexec⟩ | rfl
      · exact (exec_inst hexec).trans s.begin_inst
      · rfl
    · exact State.writeReg_inst s _ v
  | regRead n =>
    cases h
    rfl
  | cellWrite sp j v =>
    obtain ⟨-, -, rfl⟩ := hostAccess_eq_next.1 h
    rfl
  | cellRead sp j =>
    obtain ⟨-, -, rfl⟩ := hostAccess_eq_next.1 h
    rfl
  | reset =>
    cases h
    rfl

/-- Settles O11: no move of the host writes the parameters. -/
theorem stepKeepsParameters : Obligations.StepKeepsParameters := by
  intro s t h
  cases hscript : s.script with
  | nil =>
    rw [step_of_script_nil hscript] at h
    cases h
    rfl
  | cons op rest =>
    rw [step_of_script hscript] at h
    exact hostStep_inst (s := { s with script := rest }) h

/-- A write of a register gives a next state. -/
theorem exists_hostRegWrite_next (n : Fin 16) (v : BitVec 64) (s : State) :
    ∃ t, hostStep (.regWrite n v) s = .next t := by
  change ∃ t, hostRegWrite n v s = .next t
  unfold hostRegWrite writeCmd
  split
  · exact ⟨_, rfl⟩
  · split
    · split
      · exact everyCommandEnds _ _
      · exact ⟨_, rfl⟩
    · exact ⟨_, rfl⟩

/-- 20_memory R60: an idle core ends an access of the host in a next state, or in the fault of a cell that does not
exist. -/
theorem hostAccess_of_idle (hs : s.busy = false) (sp : Space) (j : Nat) (k : State) :
    hostAccess sp j s k = .next k ∨
      extentOf s.inst sp ≤ j ∧ hostAccess sp j s k = .fault (.hostOutOfExtent sp j) := by
  unfold hostAccess
  rw [hs, if_neg (by decide)]
  split
  case isTrue hout => exact .inr ⟨hout, rfl⟩
  case isFalse => exact .inl rfl

/-- From an idle core a move of the host gives a next state, or it reaches for a cell that does not exist. -/
theorem hostStep_of_idle (hs : s.busy = false) (op : HostOp) :
    (∃ t, hostStep op s = .next t) ∨ ∃ sp j, extentOf s.inst sp ≤ j ∧
      hostStep op s = .fault (.hostOutOfExtent sp j) ∧ (op = .cellRead sp j ∨ ∃ v, op = .cellWrite sp j v) := by
  cases op with
  | regWrite n v => exact .inl (exists_hostRegWrite_next n v s)
  | regRead n => exact .inl ⟨_, rfl⟩
  | cellWrite sp j v =>
    exact (hostAccess_of_idle hs sp j _).imp (fun h => ⟨_, h⟩) fun ⟨hout, h⟩ => ⟨sp, j, hout, h, .inr ⟨v, rfl⟩⟩
  | cellRead sp j =>
    exact (hostAccess_of_idle hs sp j _).imp (fun h => ⟨_, h⟩) fun ⟨hout, h⟩ => ⟨sp, j, hout, h, .inl rfl⟩
  | reset => exact .inl ⟨_, rfl⟩

/-- Settles O14: BUSY is 0 in a state of the invariant, and an idle core stops in one way only. -/
theorem stepStopsOnlyOutsideExtents : Obligations.StepStopsOnlyOutsideExtents := by
  intro s hs
  obtain ⟨-, hidle, -⟩ := hs
  cases hscript : s.script with
  | nil =>
    rw [step_of_script_nil hscript]
    exact ⟨nofun, nofun⟩
  | cons op rest =>
    rw [step_of_script hscript]
    rcases hostStep_of_idle (s := { s with script := rest }) hidle op with ⟨t, h⟩ | ⟨sp, j, hout, h, hop⟩
    · rw [h]
      exact ⟨nofun, nofun⟩
    · rw [h]
      refine ⟨nofun, fun f hf => ?_⟩
      cases hf
      refine ⟨sp, j, rest, rfl, hout, ?_⟩
      rcases hop with rfl | ⟨v, rfl⟩
      · exact .inl rfl
      · exact .inr ⟨v, rfl⟩

/-! ## The invariant (10_state R21, R28) -/

theorem State.Writes.within {m : Spaces} (h : s.Writes i m) (hs : s.mem.within s.inst) : m.within s.inst := by
  unfold State.Writes at h
  split at h
  · exact h ▸ hs
  · exact h.within hs

theorem Option.getD_of_forall {α : Type} {P : α → Prop} {x : Option α} {a : α} (hx : ∀ v, x = some v → P v) (ha : P a) :
    P (x.getD a) := by
  cases x with
  | none => exact ha
  | some v => exact hx v rfl

theorem sound_commit {r : Results} {m : Spaces} (hs : s.Sound) (hr : s.Completes i r m) : (s.commit r m).Sound := by
  obtain ⟨hlegal, hwithin, -, hcarry, hval, heptr, heend, hwptr, hbptr⟩ := hs
  refine ⟨hlegal, hr.mem.within hwithin, truncTo_fits _ _, Option.getD_of_forall (fun v hv => (hr.carry v hv).2) hcarry,
    Option.getD_of_forall (fun v hv => (hr.val v hv).2) hval, heptr, heend, hwptr,
    Option.getD_of_forall (fun v hv => ?_) hbptr⟩
  obtain ⟨n, -, rfl⟩ := Option.map_eq_some_iff.1 hv
  exact truncTo_fits _ n

theorem sound_raise {m : Spaces} (hs : s.Sound) (r : Raise) (hm : m.within s.inst) : (s.raise r m).Sound := by
  obtain ⟨hlegal, -, hregs⟩ := hs
  exact ⟨hlegal, hm, hregs⟩

/-- STATUS and FINFO after a fault describe that fault (60_exceptions R200, R203). -/
theorem statusLegal_raise (r : Raise) (m : Spaces) (s : State) : (s.raise r m).StatusLegal := by
  refine ⟨busy_raise r m s, raise_reserved r m s, fun h => by simp at h, fun _ => ?_⟩
  rw [cause_raise, spaceField_raise]
  cases r with
  | access sp j => cases sp <;> simp [Raise.cause, Raise.spaceCode, Space.code]
  | _ => simp [Raise.cause, Raise.spaceCode]

theorem wf_exec_begin (hs : s.Wf) (h : exec i s.begin = .next t) : t.Wf := by
  obtain ⟨hsound, hstatus⟩ := hs
  have hsound : s.begin.Sound := hsound
  rcases exec_next h with ⟨r, m, hr, rfl⟩ | ⟨r, m, hr, rfl⟩
  · refine ⟨sound_commit hsound hr, ?_⟩
    have hkept := commit_begin_status hstatus.1 r m
    simpa only [State.StatusLegal, State.busy, State.faulted, State.cause, State.spaceField, hkept,
      State.commit_finfo, State.begin_finfo] using hstatus
  · exact ⟨sound_raise hsound r (hr.mem.within hsound.2.1), statusLegal_raise r m _⟩

/-- A write of a register by the host is truncated to its width (10_state R29). -/
theorem sound_writeReg (hs : s.Sound) (r : Reg) (v : BitVec 64) : (s.writeReg r v).Sound := by
  obtain ⟨hlegal, hwithin, hres, hcarry, hval, heptr, heend, hwptr, hbptr⟩ := hs
  cases r with
  | carry => exact ⟨hlegal, hwithin, hres, truncTo_fits _ _, hval, heptr, heend, hwptr, hbptr⟩
  | val => exact ⟨hlegal, hwithin, hres, hcarry, truncTo_fits _ _, heptr, heend, hwptr, hbptr⟩
  | eptr => exact ⟨hlegal, hwithin, hres, hcarry, hval, truncTo_fits _ _, heend, hwptr, hbptr⟩
  | eend => exact ⟨hlegal, hwithin, hres, hcarry, hval, heptr, truncTo_fits _ _, hwptr, hbptr⟩
  | wptr => exact ⟨hlegal, hwithin, hres, hcarry, hval, heptr, heend, truncTo_fits _ _, hbptr⟩
  | bptr => exact ⟨hlegal, hwithin, hres, hcarry, hval, heptr, heend, hwptr, truncTo_fits _ _⟩
  | _ => exact ⟨hlegal, hwithin, hres, hcarry, hval, heptr, heend, hwptr, hbptr⟩

theorem statusLegal_writeReg (hs : s.StatusLegal) (r : Reg) (v : BitVec 64) : (s.writeReg r v).StatusLegal := by
  cases r <;> exact hs

theorem wf_hostStep {op : HostOp} (hs : s.Wf) (h : hostStep op s = .next t) : t.Wf := by
  obtain ⟨hsound, hstatus⟩ := id hs
  obtain ⟨hlegal, hwithin, hregs⟩ := id hsound
  cases op with
  | regWrite n v =>
    rcases hostRegWrite_next h with rfl | ⟨-, hcmd | rfl⟩
    · exact hs
    · rcases writeCmd_next hcmd with ⟨i, hexec⟩ | rfl
      · exact wf_exec_begin hs hexec
      · exact ⟨sound_raise hsound _ hwithin, statusLegal_raise _ _ _⟩
    · exact ⟨sound_writeReg hsound _ v, statusLegal_writeReg hstatus _ v⟩
  | regRead n =>
    cases h
    exact hs
  | cellWrite sp j v =>
    obtain ⟨-, hin, rfl⟩ := hostAccess_eq_next.1 h
    exact ⟨⟨hlegal, Spaces.setCell_within hwithin hin (truncTo_fits _ _), hregs⟩, hstatus⟩
  | cellRead sp j =>
    obtain ⟨-, -, rfl⟩ := hostAccess_eq_next.1 h
    exact hs
  | reset =>
    cases h
    exact wf_powerUp hlegal hwithin

/-- Settles O10: the host's moves keep the invariant: a command by its law, a write of a register or of a cell by its
truncation, and a reset as a power-up. -/
theorem stepKeepsWellFormed : Obligations.StepKeepsWellFormed := by
  intro s t hs h
  cases hscript : s.script with
  | nil =>
    rw [step_of_script_nil hscript] at h
    cases h
    exact hs
  | cons op rest =>
    rw [step_of_script hscript] at h
    exact wf_hostStep (s := { s with script := rest }) hs h

end Sys2Proof.Machine
